-- ==== Sys2Proof/Word.lean ====
section
/-! DEFINITION. The machine's word and byte, and the two block sizes a command can name. -/

namespace Sys2Proof

/-- One 32-bit register, memory word or command word (R9). -/
abbrev Word := BitVec 32

/-- One element of `PKT` (R9, R36). -/
abbrev Byte := BitVec 8

/-- The blocksize flag `f` or `nf` of a command: 0 selects the short size, 1 the long (R14, R92). -/
inductive BlockSize where
  | short
  | long
  deriving DecidableEq, Repr

end Sys2Proof
end

