-- ==== Sys2Proof/Syntax.lean ====
section
/-! DEFINITION. The twelve commands of the VCU (R93), one constructor each. -/

namespace Sys2Proof

/-- A command with its operands (R92).  Operands are the naturals the fields hold; WellFormed.lean says which ones fit. -/
inductive Instr where
  /-- `NOP` (R185) -/
  | nop
  /-- `RESET` (R182) -/
  | reset
  /-- `COMMIT` (R183) -/
  | commit
  /-- `PKT_START` (R121) -/
  | pktStart
  /-- `BR_READ n` (R123) -/
  | brRead (n : Nat)
  /-- `BR_READ1` (R124) -/
  | brRead1
  /-- `CB_BUILD b` (R141) -/
  | cbBuild (b : Nat)
  /-- `CB_DECODE b` (R150) -/
  | cbDecode (b : Nat)
  /-- `CB_DECODE_VQ b` (R152) -/
  | cbDecodeVq (b : Nat)
  /-- `IMDCT c, f` (R201) -/
  | imdct (c : Nat) (f : BlockSize)
  /-- `OLA f, nf` (R225) -/
  | ola (f nf : BlockSize)
  /-- `OLA_RESET` (R235) -/
  | olaReset
  deriving DecidableEq, Repr

end Sys2Proof
end

