-- ==== Sys2Proof/WellFormed.lean ====
section
/-! DEFINITION. Which commands a command word can hold: every operand fits its field (R90, R91). -/

namespace Sys2Proof

/-- The operands fit their fields: a bit count in `B` (6 bits), a slot or a channel in `A` (8 bits) (R90, R92). -/
def Instr.wf : Instr → Bool
  | .nop => true
  | .reset => true
  | .commit => true
  | .pktStart => true
  | .brRead n => decide (n < 64)
  | .brRead1 => true
  | .cbBuild b => decide (b < 256)
  | .cbDecode b => decide (b < 256)
  | .cbDecodeVq b => decide (b < 256)
  | .imdct c _ => decide (c < 256)
  | .ola _ _ => true
  | .olaReset => true

end Sys2Proof
end

