-- ==== Sys2Proof/Decode.lean ====
section
/-! DEFINITION. The command word: its fields, its decoder, the opcode map as masks and patterns, and the encoder
(R90 to R96). -/

namespace Sys2Proof

/-- Why a word is illegal (R94, R268). -/
inductive IllegalWord where
  /-- `OP` is not one of the twelve opcodes. -/
  | unknownOpcode
  /-- `Z` is not 0. -/
  | zNotZero
  /-- A bit the format of the opcode does not use is 1. -/
  | mustBeZero
  deriving DecidableEq, Repr

/-- What a word decodes to: a command, or a rejection by name. -/
inductive Decoded where
  | command (i : Instr)
  | illegal (why : IllegalWord)
  deriving DecidableEq, Repr

/-- The command of a decoded word, if it holds one. -/
def Decoded.command? : Decoded → Option Instr
  | .command i => some i
  | .illegal _ => none

/-- `OP` = w[7:0] (R90). -/
def opField (w : Word) : Nat := (w.extractLsb' 0 8).toNat

/-- `A` = w[15:8] (R90). -/
def aField (w : Word) : Nat := (w.extractLsb' 8 8).toNat

/-- `B` = w[21:16] (R90). -/
def bField (w : Word) : Nat := (w.extractLsb' 16 6).toNat

/-- `Z` = w[31:22] (R90). -/
def zField (w : Word) : Nat := (w.extractLsb' 22 10).toNat

/-- The blocksize flag a bit stands for: 0 short, 1 long (R92). -/
def flagSize (bit : Nat) : BlockSize := if bit % 2 = 0 then .short else .long

/-- Format Z: `A` and `B` must be 0 (R91). -/
def formatZ (w : Word) (i : Instr) : Decoded :=
  if aField w = 0 ∧ bField w = 0 then .command i else .illegal .mustBeZero

/-- Format N: n = `B`; `A` must be 0 (R91). -/
def formatN (w : Word) (i : Nat → Instr) : Decoded :=
  if aField w = 0 then .command (i (bField w)) else .illegal .mustBeZero

/-- Format K: b = `A`; `B` must be 0 (R91). -/
def formatK (w : Word) (i : Nat → Instr) : Decoded :=
  if bField w = 0 then .command (i (aField w)) else .illegal .mustBeZero

/-- Format T: c = `A`, f = w[16]; w[21:17] must be 0 (R91). -/
def formatT (w : Word) (i : Nat → BlockSize → Instr) : Decoded :=
  if bField w < 2 then .command (i (aField w) (flagSize (bField w))) else .illegal .mustBeZero

/-- Format W: f = w[16], nf = w[17]; `A` and w[21:18] must be 0 (R91). -/
def formatW (w : Word) (i : BlockSize → BlockSize → Instr) : Decoded :=
  if aField w = 0 ∧ bField w < 4 then .command (i (flagSize (bField w)) (flagSize (bField w / 2)))
  else .illegal .mustBeZero

/-- The command of an opcode whose `Z` field is 0 (R93). -/
def decodeOp (w : Word) : Decoded :=
  match opField w with
  | 0x00 => formatZ w .nop
  | 0x01 => formatZ w .reset
  | 0x02 => formatZ w .commit
  | 0x10 => formatZ w .pktStart
  | 0x11 => formatN w .brRead
  | 0x12 => formatZ w .brRead1
  | 0x20 => formatK w .cbBuild
  | 0x21 => formatK w .cbDecode
  | 0x22 => formatK w .cbDecodeVq
  | 0x30 => formatT w .imdct
  | 0x40 => formatW w .ola
  | 0x41 => formatZ w .olaReset
  | _ => .illegal .unknownOpcode

/-- The decoder, total on every 32-bit word (R93, R94). -/
def decode (w : Word) : Decoded :=
  if zField w = 0 then decodeOp w else .illegal .zNotZero

/-- One row of the opcode map: a word w encodes the command exactly when `w & mask = match` (R93). -/
structure OpcodeRow where
  mnemonic : String
  pattern : Word
  mask : Word
  deriving DecidableEq, Repr

/-- The opcode map (R93, spec/opcode_table.json). -/
def opcodeMap : List OpcodeRow :=
  [ ⟨"NOP", 0x00000000, 0xFFFFFFFF⟩, ⟨"RESET", 0x00000001, 0xFFFFFFFF⟩, ⟨"COMMIT", 0x00000002, 0xFFFFFFFF⟩,
    ⟨"PKT_START", 0x00000010, 0xFFFFFFFF⟩, ⟨"BR_READ", 0x00000011, 0xFFC0FFFF⟩, ⟨"BR_READ1", 0x00000012, 0xFFFFFFFF⟩,
    ⟨"CB_BUILD", 0x00000020, 0xFFFF00FF⟩, ⟨"CB_DECODE", 0x00000021, 0xFFFF00FF⟩,
    ⟨"CB_DECODE_VQ", 0x00000022, 0xFFFF00FF⟩, ⟨"IMDCT", 0x00000030, 0xFFFE00FF⟩, ⟨"OLA", 0x00000040, 0xFFFCFFFF⟩,
    ⟨"OLA_RESET", 0x00000041, 0xFFFFFFFF⟩ ]

/-- The row matches the word (R93). -/
def OpcodeRow.hits (r : OpcodeRow) (w : Word) : Bool := w &&& r.mask == r.pattern

/-- The row of a command. -/
def Instr.mnemonic : Instr → String
  | .nop => "NOP"
  | .reset => "RESET"
  | .commit => "COMMIT"
  | .pktStart => "PKT_START"
  | .brRead _ => "BR_READ"
  | .brRead1 => "BR_READ1"
  | .cbBuild _ => "CB_BUILD"
  | .cbDecode _ => "CB_DECODE"
  | .cbDecodeVq _ => "CB_DECODE_VQ"
  | .imdct _ _ => "IMDCT"
  | .ola _ _ => "OLA"
  | .olaReset => "OLA_RESET"

/-- The bit of a blocksize flag (R92). -/
def sizeBit : BlockSize → Nat
  | .short => 0
  | .long => 1

/-- A command word from its fields `OP`, `A` and `B`, with `Z` = 0 (R90). -/
def wordOf (op a b : Nat) : Word := BitVec.ofNat 32 (op + a * 2 ^ 8 + b * 2 ^ 16)

/-- The word of a well-formed command (R90 to R93). -/
def encode : Instr → Word
  | .nop => wordOf 0x00 0 0
  | .reset => wordOf 0x01 0 0
  | .commit => wordOf 0x02 0 0
  | .pktStart => wordOf 0x10 0 0
  | .brRead n => wordOf 0x11 0 n
  | .brRead1 => wordOf 0x12 0 0
  | .cbBuild b => wordOf 0x20 b 0
  | .cbDecode b => wordOf 0x21 b 0
  | .cbDecodeVq b => wordOf 0x22 b 0
  | .imdct c f => wordOf 0x30 c (sizeBit f)
  | .ola f nf => wordOf 0x40 0 (sizeBit f + 2 * sizeBit nf)
  | .olaReset => wordOf 0x41 0 0

/-- The command the decoder reads from a row of the opcode table whose bits are `w`; every bit above `nbits` is 0. -/
def decodeTableWord (nbits w : Nat) : Option Instr :=
  (decode (BitVec.ofNat 32 (w % 2 ^ nbits))).command?

end Sys2Proof
end

