-- ==== Sys2Proof/Machine/Float.lean ====
section
/-! DEFINITION. IEEE 754 binary32 sums and products, computed exactly and rounded once (R12, R221 to R223).

A finite sample is a whole number of units of 2^-149, the smallest subnormal.  Sums are exact in those units and
products in units of 2^-298; one rounding then gives the result word. -/

namespace Sys2Proof.Machine

/-- The sign bit. -/
def floatSign (w : Word) : Bool := w.getLsbD 31

/-- The biased exponent field, bits 30 to 23. -/
def floatExp (w : Word) : Nat := w.toNat / 2 ^ 23 % 2 ^ 8

/-- The fraction field, bits 22 to 0. -/
def floatFrac (w : Word) : Nat := w.toNat % 2 ^ 23

/-- The sample is a NaN. -/
def isNaN (w : Word) : Bool := floatExp w == 255 && floatFrac w != 0

/-- The sample is an infinity. -/
def isInf (w : Word) : Bool := floatExp w == 255 && floatFrac w == 0

/-- The sample is a finite number. -/
def isFinite (w : Word) : Bool := floatExp w != 255

/-- The sample is +0.0 or -0.0: "numerically zero" (R205, R240). -/
def isZero (w : Word) : Bool := floatExp w == 0 && floatFrac w == 0

/-- The magnitude of a finite sample, in units of 2^-149. -/
def magUnits (w : Word) : Nat :=
  if floatExp w = 0 then floatFrac w else (2 ^ 23 + floatFrac w) * 2 ^ (floatExp w - 1)

/-- The value of a finite sample, in units of 2^-149. -/
def units (w : Word) : Int := if floatSign w then -(magUnits w : Int) else magUnits w

/-- `n / 2^q` rounded to the nearest natural, ties to the even one. -/
def roundShift (n q : Nat) : Nat :=
  let f := n / 2 ^ q
  let r := n % 2 ^ q
  if 2 * r < 2 ^ q then f else if 2 ^ q < 2 * r then f + 1 else f + f % 2

/-- The number of bits of the significand below which `n` (in units of 2^-(149+sc)) is rounded away. -/
def roundQuantum (n sc : Nat) : Nat := max sc (Nat.log2 n - 23)

/-- The 31 magnitude bits of the binary32 number nearest to `n` units of 2^-(149+sc), ties to even; a magnitude past
the largest finite number gives infinity (R221, R222). -/
def roundMag (n sc : Nat) : Nat :=
  let q := roundQuantum n sc
  min ((q - sc) * 2 ^ 23 + roundShift n q) (255 * 2 ^ 23)

/-- A sample from its sign and its 31 magnitude bits. -/
def packFloat (sign : Bool) (mag : Nat) : Word := BitVec.ofNat 32 ((if sign then 2 ^ 31 else 0) + mag)

/-- The magnitude bits of infinity. -/
def infMag : Nat := 255 * 2 ^ 23

/-- The NaN a draw `d` names: `d` supplies the sign, the payload and the quiet bit, and every NaN is named by some
`d` (R223). -/
def nanOf (d : Word) : Word :=
  packFloat (floatSign d) (infMag + (if floatFrac d = 0 then 1 else floatFrac d))

/-- The sum of two finite samples: the exact sum, rounded once (R221). -/
def faddFinite (a b : Word) : Word :=
  let k := units a + units b
  if k = 0 then packFloat (floatSign a && floatSign b) 0
  else packFloat (decide (k < 0)) (roundMag k.natAbs 0)

/-- `fadd(a, b)` (R221); `d` is the draw that names the NaN of R223. -/
def fadd (a b d : Word) : Word :=
  if isNaN a || isNaN b then nanOf d
  else if isInf a then (if isInf b && (floatSign a != floatSign b) then nanOf d else a)
  else if isInf b then b
  else faddFinite a b

/-- `fmul(a, b)` (R222); `d` is the draw that names the NaN of R223. -/
def fmul (a b d : Word) : Word :=
  let sign := floatSign a != floatSign b
  if isNaN a || isNaN b then nanOf d
  else if isInf a || isInf b then
    (if isZero a || isZero b then nanOf d else packFloat sign infMag)
  else packFloat sign (roundMag (magUnits a * magUnits b) 149)

end Sys2Proof.Machine
end

