-- ==== Sys2Proof/Config/Reference.lean ====
section
/-! DEFINITION. The real-number references the numerics record is measured against: the window coefficient (R224)
and the inverse MDCT (R202), with the two accuracy properties the spec names (R204, R224).  Nothing here is run: these
are the propositions that the uninterpreted units of Config.lean satisfy. -/

namespace Sys2Proof.Config

open Sys2Proof.Machine

/-- The real number a finite sample stands for (R12). -/
noncomputable def sampleValue (w : Word) : ℝ := (units w : ℝ) * (2 : ℝ) ^ (-149 : ℤ)

/-- One unit in the last place of a finite sample. -/
noncomputable def sampleUlp (w : Word) : ℝ := (2 : ℝ) ^ (floatExp w - 1) * (2 : ℝ) ^ (-149 : ℤ)

/-- `v` is a binary32 number nearest to the real `x`. -/
def IsNearest (v : Word) (x : ℝ) : Prop :=
  isFinite v = true ∧ ∀ u : Word, isFinite u = true → |sampleValue v - x| ≤ |sampleValue u - x|

/-- The window coefficient's reference value `w_ref(m, k)` (R224). -/
noncomputable def winRef (m k : Nat) : ℝ :=
  Real.sin (Real.pi / 2 * Real.sin (Real.pi * (2 * k + 1) / (2 * m)) ^ 2)

/-- At most one unit in the last place of error (R224).  Both readings the spec prints are allowed: within one unit of the
reference, or one word away from a correctly rounded coefficient. -/
def WithinOneUlp (w : Word) (x : ℝ) : Prop :=
  |sampleValue w - x| ≤ sampleUlp w ∨
    ∃ v, IsNearest v x ∧ (w.toNat = v.toNat + 1 ∨ v.toNat = w.toNat + 1)

/-- A window coefficient lies above 0 and at most at 1.0 (R224); 0x3F800000 is 1.0. -/
def WindowPositive (coeff : Nat → Nat → Word) : Prop :=
  ∀ e k : Nat, 2 ≤ e → e ≤ 15 → k < 2 ^ e / 2 →
    0 < (coeff (2 ^ e) k).toNat ∧ (coeff (2 ^ e) k).toNat ≤ 0x3F800000

/-- The accuracy of a window table at every slope size the parameters admit (R224, R7). -/
def WindowAccurate (coeff : Nat → Nat → Word) : Prop :=
  ∀ e k : Nat, 2 ≤ e → e ≤ 15 → k < 2 ^ e / 2 → WithinOneUlp (coeff (2 ^ e) k) (winRef (2 ^ e) k)

/-- The real sum of the magnitudes of a frequency vector. -/
noncomputable def magnitudeSum (X : List Word) : ℝ := (X.map fun w => |sampleValue w|).sum

/-- The direct-summation formula at block size `2^e` and scale `scale`, of real inputs (R202). -/
noncomputable def imdctSum (scale : ℝ) (e : Nat) (x : Nat → ℝ) (n : Nat) : ℝ :=
  scale * ∑ k ∈ Finset.range (2 ^ e / 2), x k *
    Real.cos (Real.pi / (2 * (2 : ℝ) ^ e) * (2 * n + 1 + (2 : ℝ) ^ e / 2) * (2 * k + 1))

/-- The reference output `y_ref[n]` of a frequency vector (R202). -/
noncomputable def imdctRef (scale : ℝ) (e : Nat) (X : List Word) (n : Nat) : ℝ :=
  imdctSum scale e (fun k => sampleValue (X.getD k 0)) n

/-- The input is in range: every sample finite and no reference output able to overflow binary32 (R204). -/
def ImdctInRange (scale : ℝ) (X : List Word) : Prop :=
  (∀ w ∈ X, isFinite w = true) ∧ |scale| * magnitudeSum X < (2 : ℝ) ^ (127 : ℕ)

/-- The accuracy bound of the transform unit at exponent `e` with tolerance `tol` (R204). -/
def ImdctAccurateAt (scale : ℝ) (out : Nat → List Word → Nat → Word) (tol : ℝ) (e : Nat) : Prop :=
  ∀ X : List Word, X.length = 2 ^ e / 2 → ImdctInRange scale X → ∀ n < 2 ^ e,
    isFinite (out e X n) = true ∧ |sampleValue (out e X n) - imdctRef scale e X n| ≤ tol * magnitudeSum X

/-- The accuracy of a transform unit: one tolerance that serves every exponent the parameters admit (R204, R7). -/
def ImdctAccurate (scale : ℝ) (out : Nat → List Word → Nat → Word) : Prop :=
  ∃ tol : ℝ, 0 ≤ tol ∧ ∀ e : Nat, 2 ≤ e → e ≤ 15 → ImdctAccurateAt scale out tol e

end Sys2Proof.Config
end

