-- ==== Sys2Proof/Laws/Float.lean ====
section
/-! SUPPORT. What packing, unpacking and rounding a binary32 number do (R221, R222). -/

namespace Sys2Proof.Machine

theorem packFloat_toNat (s : Bool) {m : Nat} (h : m < 2 ^ 31) :
    (packFloat s m).toNat = (if s then 2 ^ 31 else 0) + m := by
  cases s <;> simp [packFloat] <;> omega

theorem floatSign_eq (w : Word) : floatSign w = decide (2 ^ 31 ≤ w.toNat) := by
  have h := w.isLt
  have e := BitVec.msb_eq_decide w
  simp only [BitVec.msb, BitVec.getMsbD] at e
  simpa [floatSign] using e

@[simp] theorem floatSign_packFloat (s : Bool) {m : Nat} (h : m < 2 ^ 31) : floatSign (packFloat s m) = s := by
  rw [floatSign_eq, packFloat_toNat s h]
  cases s <;> simp
  all_goals omega

@[simp] theorem floatExp_packFloat (s : Bool) {m : Nat} (h : m < 2 ^ 31) :
    floatExp (packFloat s m) = m / 2 ^ 23 := by
  rw [floatExp, packFloat_toNat s h]
  cases s <;> simp
  all_goals omega

@[simp] theorem floatFrac_packFloat (s : Bool) {m : Nat} (h : m < 2 ^ 31) :
    floatFrac (packFloat s m) = m % 2 ^ 23 := by
  rw [floatFrac, packFloat_toNat s h]
  cases s <;> simp
  all_goals omega

theorem floatExp_lt (w : Word) : floatExp w < 256 := Nat.mod_lt _ (by decide)

theorem floatFrac_lt (w : Word) : floatFrac w < 2 ^ 23 := Nat.mod_lt _ (by decide)

/-- A word is its sign and its magnitude bits put back together. -/
theorem packFloat_fields (w : Word) : packFloat (floatSign w) (floatExp w * 2 ^ 23 + floatFrac w) = w := by
  apply BitVec.eq_of_toNat_eq
  have hw := w.isLt
  rw [packFloat_toNat]
  · rw [floatSign_eq, floatExp, floatFrac]; split <;> simp_all <;> omega
  · have := floatExp_lt w; have := floatFrac_lt w; omega

theorem magUnits_packFloat (s : Bool) {t r : Nat} (hr : r ≤ 2 ^ 24) (ht : t = 0 ∨ 2 ^ 23 ≤ r)
    (hm : t * 2 ^ 23 + r < 255 * 2 ^ 23) : magUnits (packFloat s (t * 2 ^ 23 + r)) = r * 2 ^ t := by
  have hlt : t * 2 ^ 23 + r < 2 ^ 31 := by omega
  rw [magUnits, floatExp_packFloat s hlt, floatFrac_packFloat s hlt]
  rcases Nat.lt_or_ge r (2 ^ 23) with h | h
  · obtain rfl : t = 0 := by omega
    rw [if_pos (by omega)]; simp; omega
  · rw [if_neg (by omega)]
    rcases Nat.lt_or_ge r (2 ^ 24) with h2 | h2
    · have e1 : (t * 2 ^ 23 + r) / 2 ^ 23 - 1 = t := by omega
      have e2 : 2 ^ 23 + (t * 2 ^ 23 + r) % 2 ^ 23 = r := by omega
      rw [e1, e2]
    · obtain rfl : r = 2 ^ 24 := by omega
      have e1 : (t * 2 ^ 23 + 2 ^ 24) / 2 ^ 23 - 1 = t + 1 := by omega
      have e2 : 2 ^ 23 + (t * 2 ^ 23 + 2 ^ 24) % 2 ^ 23 = 2 ^ 23 := by omega
      rw [e1, e2, Nat.pow_succ]; ring

/-- Rounding moves a number by at most half a unit of the place rounded to. -/
theorem roundShift_close (n q : Nat) :
    2 * (roundShift n q * 2 ^ q) ≤ 2 * n + 2 ^ q ∧ 2 * n ≤ 2 * (roundShift n q * 2 ^ q) + 2 ^ q := by
  have hd := Nat.div_add_mod n (2 ^ q)
  have hr := Nat.mod_lt n (Nat.two_pow_pos q)
  have hc : 2 ^ q * (n / 2 ^ q) = n / 2 ^ q * 2 ^ q := Nat.mul_comm _ _
  simp only [roundShift]
  split
  · omega
  · split
    · rw [Nat.add_mul]; omega
    · rcases Nat.mod_two_eq_zero_or_one (n / 2 ^ q) with h | h <;> rw [h] <;> (try rw [Nat.add_mul]) <;> omega

theorem roundShift_le {n q k : Nat} (h : n < k * 2 ^ q) : roundShift n q ≤ k := by
  have : n / 2 ^ q < k := (Nat.div_lt_iff_lt_mul (Nat.two_pow_pos q)).mpr h
  simp only [roundShift]
  split
  · omega
  · split <;> omega

theorem le_roundShift {n q k : Nat} (h : k * 2 ^ q ≤ n) : k ≤ roundShift n q := by
  have : k ≤ n / 2 ^ q := (Nat.le_div_iff_mul_le (Nat.two_pow_pos q)).mpr h
  simp only [roundShift]
  split
  · omega
  · split <;> omega

/-- The rounded significand has at most 24 bits, or is 2^24 itself. -/
theorem roundShift_quantum_le (n sc : Nat) : roundShift n (roundQuantum n sc) ≤ 2 ^ 24 := by
  apply roundShift_le
  have h1 : n < 2 ^ (Nat.log2 n + 1) := Nat.lt_log2_self
  have h2 : 2 ^ (Nat.log2 n + 1) ≤ 2 ^ (24 + roundQuantum n sc) :=
    Nat.pow_le_pow_right (by decide) (by simp only [roundQuantum]; omega)
  rw [← Nat.pow_add]; omega

/-- Above the subnormal range the rounded significand has its top bit. -/
theorem le_roundShift_quantum {n sc : Nat} (h : roundQuantum n sc ≠ sc) :
    2 ^ 23 ≤ roundShift n (roundQuantum n sc) := by
  apply le_roundShift
  have hq : roundQuantum n sc = Nat.log2 n - 23 := by simp only [roundQuantum] at h ⊢; omega
  have hn : n ≠ 0 := by rintro rfl; simp [roundQuantum] at h
  have h1 : 2 ^ Nat.log2 n ≤ n := Nat.log2_self_le hn
  have h2 : 23 + roundQuantum n sc = Nat.log2 n := by simp only [roundQuantum] at h hq ⊢; omega
  rw [← Nat.pow_add, h2]; exact h1

theorem le_roundQuantum (n sc : Nat) : sc ≤ roundQuantum n sc := Nat.le_max_left _ _

/-- The rounded number's magnitude, in units of 2^-149, when it is finite. -/
theorem magUnits_roundMag (s : Bool) {n sc : Nat} (h : roundMag n sc < infMag) :
    magUnits (packFloat s (roundMag n sc)) =
      roundShift n (roundQuantum n sc) * 2 ^ (roundQuantum n sc - sc) := by
  simp only [roundMag, infMag] at h ⊢
  have hlt : (roundQuantum n sc - sc) * 2 ^ 23 + roundShift n (roundQuantum n sc) < 255 * 2 ^ 23 := by omega
  rw [Nat.min_eq_left (by omega)]
  apply magUnits_packFloat s (roundShift_quantum_le n sc) _ hlt
  by_cases hq : roundQuantum n sc = sc
  · left; omega
  · right; exact le_roundShift_quantum hq

theorem roundMag_le (n sc : Nat) : roundMag n sc ≤ infMag := Nat.min_le_right _ _

end Sys2Proof.Machine
end

