-- ==== Sys2Proof/Config/Witness.lean ====
section
/-! DEFINITION. That numerics with the spec's named properties exist: a window table within one unit in the last place
of the reference (R224), computed by a Taylor series over the rationals, and a transform unit within some tolerance of the
reference (R204).  They only show that the uninterpreted units of Config.lean are inhabited; no run uses their values. -/

namespace Sys2Proof.Config

open Sys2Proof.Machine

/-- The sign pattern of the sine series: 0, 1, 0, -1, … -/
def sineSign (j : Nat) : ℚ := if j % 4 = 1 then 1 else if j % 4 = 3 then -1 else 0

/-- The sine series cut after 30 terms. -/
def sineSeries (x : ℚ) : ℚ := ∑ j ∈ Finset.range 30, sineSign j * x ^ j / (j.factorial : ℚ)

/-- A rational within 10^-20 of π. -/
def piNear : ℚ := 314159265358979323846 / 100000000000000000000

/-- The rational that the window coefficient `w_ref(m, k)` is approximated by. -/
def winNear (m k : Nat) : ℚ := sineSeries (piNear / 2 * sineSeries (piNear * (2 * k + 1) / (2 * m)) ^ 2)

/-- The magnitude of the approximated coefficient in units of 2^-149, kept between the smallest sample and 1.0. -/
def winNearUnits (m k : Nat) : Nat := max 1 (min (2 ^ 149) ⌊winNear m k * 2 ^ 149⌋₊)

/-- A window table that meets R224. -/
def winWitness (m k : Nat) : Word := packFloat false (roundMag (winNearUnits m k) 0)

theorem sineSign_eq_im (j : Nat) : ((sineSign j : ℚ) : ℝ) = (Complex.I ^ j).im := by
  have hj : Complex.I ^ j = Complex.I ^ (j % 4) := by
    conv_lhs => rw [← Nat.div_add_mod j 4, pow_add, pow_mul, Complex.I_pow_four, one_pow, one_mul]
  rw [hj]
  have h4 : j % 4 < 4 := Nat.mod_lt _ (by decide)
  unfold sineSign
  interval_cases j % 4 <;> simp [pow_succ]

theorem sineSeries_close {x : ℚ} (h0 : 0 ≤ x) (h2 : x ≤ 2) :
    |Real.sin x - (sineSeries x : ℚ)| ≤ 1 / 10 ^ 22 := by
  have hx0 : (0 : ℝ) ≤ x := by exact_mod_cast h0
  have hx2 : (x : ℝ) ≤ 2 := by exact_mod_cast h2
  have hn : ‖((x : ℝ) : ℂ) * Complex.I‖ = (x : ℝ) := by
    rw [norm_mul, Complex.norm_I, mul_one, Complex.norm_real, Real.norm_of_nonneg hx0]
  have hb := Complex.exp_bound' (x := ((x : ℝ) : ℂ) * Complex.I) (n := 30) (by rw [hn]; norm_num; linarith)
  rw [hn] at hb
  have him : (Complex.exp (((x : ℝ) : ℂ) * Complex.I) -
      ∑ m ∈ Finset.range 30, (((x : ℝ) : ℂ) * Complex.I) ^ m / (m.factorial : ℂ)).im =
      Real.sin x - (sineSeries x : ℚ) := by
    rw [Complex.sub_im, Complex.exp_ofReal_mul_I_im, Complex.im_sum]
    congr 1
    rw [sineSeries, Rat.cast_sum]
    refine Finset.sum_congr rfl fun j _ => ?_
    rw [mul_pow, ← Complex.ofReal_pow]
    have : ((x : ℝ) ^ j : ℝ) * Complex.I ^ j / (j.factorial : ℂ) =
        (((x : ℝ) ^ j / (j.factorial : ℝ) : ℝ) : ℂ) * Complex.I ^ j := by push_cast; ring
    rw [this, Complex.im_ofReal_mul]
    push_cast
    rw [sineSign_eq_im]
    ring
  rw [← him]
  refine (Complex.abs_im_le_norm _).trans (hb.trans ?_)
  have : (x : ℝ) ^ 30 ≤ 2 ^ 30 := pow_le_pow_left₀ hx0 hx2 30
  calc (x : ℝ) ^ 30 / (Nat.factorial 30 : ℝ) * 2 ≤ 2 ^ 30 / (Nat.factorial 30 : ℝ) * 2 := by gcongr
    _ ≤ 1 / 10 ^ 22 := by norm_num [Nat.factorial]

theorem sin_close {t : ℝ} {x : ℚ} {d : ℝ} (hx0 : 0 ≤ x) (hx2 : x ≤ 2) (h : |t - x| ≤ d) :
    |Real.sin t - (sineSeries x : ℚ)| ≤ d + 1 / 10 ^ 22 := by
  have h1 : |Real.sin t - Real.sin x| ≤ |t - x| := by
    have := Real.lipschitzWith_sin.dist_le_mul t x
    simpa [Real.dist_eq] using this
  have h2 := sineSeries_close hx0 hx2
  have h3 := abs_sub_le (Real.sin t) (Real.sin x) (sineSeries x : ℚ)
  linarith

theorem pi_close : |Real.pi - (piNear : ℚ)| ≤ 1 / 10 ^ 20 := by
  have h1 := Real.pi_gt_d20
  have h2 := Real.pi_lt_d20
  rw [abs_le]; push_cast [piNear]
  constructor <;> norm_num at h1 h2 ⊢ <;> linarith

/-- The rational approximation is within 10^-18 of the reference coefficient. -/
theorem winNear_close {m k : Nat} (hm : 0 < m) (hk : k < m / 2) :
    |winRef m k - (winNear m k : ℚ)| ≤ 1 / 10 ^ 18 := by
  have hmR : (0 : ℝ) < m := by exact_mod_cast hm
  have hmQ : (0 : ℚ) < m := by exact_mod_cast hm
  -- the angle is r·π with 0 ≤ r ≤ 1/2
  set r : ℚ := (2 * k + 1) / (2 * m) with hr
  have hr0 : 0 ≤ r := by positivity
  have hr1 : r ≤ 1 / 2 := by
    rw [hr, div_le_div_iff₀ (by positivity) (by norm_num)]
    have : 2 * k + 1 ≤ m := by omega
    have : ((2 * k + 1 : ℕ) : ℚ) ≤ m := by exact_mod_cast this
    push_cast at this; linarith
  have hpi := pi_close
  have hang : Real.pi * (2 * k + 1) / (2 * m) = Real.pi * (r : ℚ) := by rw [hr]; push_cast; ring
  have hq : piNear * (2 * k + 1) / (2 * m) = piNear * r := by rw [hr]; ring
  have hr0R : (0 : ℝ) ≤ r := by exact_mod_cast hr0
  have hr1R : (r : ℝ) ≤ 1 / 2 := by
    have := (Rat.cast_le (K := ℝ)).mpr hr1
    push_cast at this; exact this
  have hp0 : (0 : ℚ) ≤ piNear := by norm_num [piNear]
  have hp4 : piNear ≤ 16 / 5 := by norm_num [piNear]
  have hd : |Real.pi * (r : ℚ) - ((piNear * r : ℚ) : ℝ)| ≤ 1 / 10 ^ 20 := by
    push_cast
    rw [← sub_mul, abs_mul, abs_of_nonneg hr0R]
    calc |Real.pi - (piNear : ℚ)| * r ≤ 1 / 10 ^ 20 * 1 := by gcongr; linarith
      _ = 1 / 10 ^ 20 := by ring
  have hs := sin_close (x := piNear * r) (by positivity) (by nlinarith) hd
  set s : ℚ := sineSeries (piNear * r) with hsdef
  set S : ℝ := Real.sin (Real.pi * (r : ℚ)) with hS
  have hS1 : |S| ≤ 1 := Real.abs_sin_le_one _
  have hs1 : |(s : ℝ)| ≤ 1 + 1 / 10 ^ 19 := by
    have := abs_sub_abs_le_abs_sub (s : ℝ) S
    rw [abs_sub_comm] at this
    have h' : (1 : ℝ) / 10 ^ 20 + 1 / 10 ^ 22 ≤ 1 / 10 ^ 19 := by norm_num
    linarith
  have hsq : |S ^ 2 - (s : ℝ) ^ 2| ≤ 3 / 10 ^ 20 := by
    have : S ^ 2 - (s : ℝ) ^ 2 = (S - s) * (S + s) := by ring
    rw [this, abs_mul]
    have h2 : |S + s| ≤ 2 + 1 / 10 ^ 19 := (abs_add_le _ _).trans (by linarith)
    calc |S - s| * |S + s| ≤ (1 / 10 ^ 20 + 1 / 10 ^ 22) * (2 + 1 / 10 ^ 19) := by gcongr
      _ ≤ 3 / 10 ^ 20 := by norm_num
  have hs2 : (s : ℝ) ^ 2 ≤ 1 + 1 / 10 ^ 18 := by
    rw [← sq_abs]
    calc |(s : ℝ)| ^ 2 ≤ (1 + 1 / 10 ^ 19) ^ 2 := by gcongr
      _ ≤ 1 + 1 / 10 ^ 18 := by norm_num
  have hpiu : Real.pi ≤ 16 / 5 := by have := Real.pi_lt_d2; norm_num at this ⊢; linarith
  have hd2 : |Real.pi / 2 * S ^ 2 - ((piNear / 2 * s ^ 2 : ℚ) : ℝ)| ≤ 1 / 10 ^ 19 := by
    push_cast
    have e : Real.pi / 2 * S ^ 2 - (piNear : ℝ) / 2 * (s : ℝ) ^ 2 =
        Real.pi / 2 * (S ^ 2 - (s : ℝ) ^ 2) + (Real.pi - piNear) * ((s : ℝ) ^ 2 / 2) := by ring
    rw [e]
    refine (abs_add_le _ _).trans ?_
    rw [abs_mul, abs_mul, abs_of_nonneg (by positivity : (0 : ℝ) ≤ Real.pi / 2),
      abs_of_nonneg (by positivity : (0 : ℝ) ≤ (s : ℝ) ^ 2 / 2)]
    calc Real.pi / 2 * |S ^ 2 - (s : ℝ) ^ 2| + |Real.pi - (piNear : ℝ)| * ((s : ℝ) ^ 2 / 2)
        ≤ 16 / 5 / 2 * (3 / 10 ^ 20) + 1 / 10 ^ 20 * ((1 + 1 / 10 ^ 18) / 2) := by gcongr
      _ ≤ 1 / 10 ^ 19 := by norm_num
  have hs2Q : s ^ 2 ≤ 1 + 1 / 10 ^ 18 := by
    have h : ((s ^ 2 : ℚ) : ℝ) ≤ ((1 + 1 / 10 ^ 18 : ℚ) : ℝ) := by push_cast; exact hs2
    exact Rat.cast_le.mp h
  have hw := sin_close (x := piNear / 2 * s ^ 2) (by positivity)
    (by nlinarith [sq_nonneg s]) hd2
  have hb : (1 : ℝ) / 10 ^ 19 + 1 / 10 ^ 22 ≤ 1 / 10 ^ 18 := by norm_num
  rw [winRef, winNear, hang, hq]
  exact hw.trans hb

/-- The reference coefficient is not small: at least `1/m²`. -/
theorem winRef_lower {m k : Nat} (hm : 0 < m) (hk : k < m / 2) :
    1 / (m : ℝ) ^ 2 ≤ winRef m k ∧ winRef m k ≤ 1 := by
  have hmR : (0 : ℝ) < m := by exact_mod_cast hm
  refine ⟨?_, Real.sin_le_one _⟩
  set a : ℝ := Real.pi * (2 * k + 1) / (2 * m) with ha
  have hpi := Real.pi_pos
  have ha0 : 0 ≤ a := by positivity
  have ha1 : a ≤ Real.pi / 2 := by
    rw [ha, div_le_div_iff₀ (by positivity) (by norm_num)]
    have : 2 * k + 1 ≤ m := by omega
    have : ((2 * k + 1 : ℕ) : ℝ) ≤ m := by exact_mod_cast this
    push_cast at this; nlinarith
  have h1 : 1 / (m : ℝ) ≤ Real.sin a := by
    refine le_trans ?_ (Real.mul_le_sin ha0 ha1)
    rw [ha]; field_simp; linarith [(Nat.cast_nonneg k : (0 : ℝ) ≤ k)]
  have h2 : 1 / (m : ℝ) ^ 2 ≤ Real.sin a ^ 2 := by
    have := pow_le_pow_left₀ (by positivity) h1 2
    simpa [div_pow] using this
  have h3 : Real.sin a ^ 2 ≤ 1 := Real.sin_sq_le_one a
  have h4 := Real.mul_le_sin (x := Real.pi / 2 * Real.sin a ^ 2) (by positivity) (by nlinarith)
  have h5 : 2 / Real.pi * (Real.pi / 2 * Real.sin a ^ 2) = Real.sin a ^ 2 := by field_simp
  rw [winRef, ← ha]; linarith

/-- In units of 2^-149, the approximation is within one 2^-54 of the reference, lies between 2^118 and 1.0. -/
theorem winNearUnits_close {e k : Nat} (he2 : 2 ≤ e) (he : e ≤ 15) (hk : k < 2 ^ e / 2) :
    2 ^ 118 ≤ winNearUnits (2 ^ e) k ∧ winNearUnits (2 ^ e) k ≤ 2 ^ 149 ∧
      |(winNearUnits (2 ^ e) k : ℝ) * (2 : ℝ) ^ (-149 : ℤ) - winRef (2 ^ e) k| ≤ 1 / 10 ^ 17 := by
  have hm : 0 < 2 ^ e := Nat.two_pow_pos e
  have hc := winNear_close hm hk
  obtain ⟨hl, hu⟩ := winRef_lower hm hk
  set x := winRef (2 ^ e) k
  set w := winNear (2 ^ e) k
  have hlow : (1 : ℝ) / 2 ^ 30 ≤ x := by
    refine le_trans ?_ hl
    have h1 : ((2 ^ e : ℕ) : ℝ) ^ 2 ≤ 2 ^ 30 := by
      have h2 : (2 ^ e : ℕ) ^ 2 ≤ 2 ^ 30 := by rw [← pow_mul]; exact Nat.pow_le_pow_right (by decide) (by omega)
      exact_mod_cast h2
    have h3 : (0 : ℝ) < ((2 ^ e : ℕ) : ℝ) ^ 2 := by positivity
    exact one_div_le_one_div_of_le h3 h1
  rw [abs_le] at hc
  obtain ⟨hc1, hc2⟩ := hc
  have hwl : (1 : ℝ) / 2 ^ 30 - 1 / 10 ^ 18 ≤ w := by linarith
  have hw31 : (1 : ℝ) / 2 ^ 31 ≤ w := le_trans (by norm_num) hwl
  have hw0Q : (0 : ℚ) ≤ w := by
    have : (0 : ℝ) ≤ ((w : ℚ) : ℝ) := le_trans (by positivity) hw31
    exact_mod_cast this
  have hw0 : (0 : ℚ) ≤ w * 2 ^ 149 := by positivity
  have hf1 := Nat.floor_le hw0
  have hf2 := Nat.lt_floor_add_one (w * 2 ^ 149)
  set f := ⌊w * 2 ^ 149⌋₊ with hf
  have hf1R : (f : ℝ) ≤ w * 2 ^ 149 := by
    have := (Rat.cast_le (K := ℝ)).mpr hf1
    push_cast at this; exact this
  have hf2R : (w : ℝ) * 2 ^ 149 < f + 1 := by
    have := (Rat.cast_lt (K := ℝ)).mpr hf2
    push_cast at this; exact this
  have hflow : 2 ^ 118 ≤ f := by
    have h1 : (2 : ℝ) ^ 118 < f + 1 := by
      refine lt_of_le_of_lt ?_ hf2R
      have e118 : (2 : ℝ) ^ 118 = 1 / 2 ^ 31 * 2 ^ 149 := by
        rw [show (149 : ℕ) = 31 + 118 from rfl, pow_add]; field_simp
      rw [e118]; gcongr
    have h2 : (2 ^ 118 : ℕ) < f + 1 := by exact_mod_cast h1
    omega
  have hn : winNearUnits (2 ^ e) k = min (2 ^ 149) f := by
    rw [winNearUnits]; apply Nat.max_eq_right
    rw [← hf]; omega
  have hz : (2 : ℝ) ^ (-149 : ℤ) = 1 / 2 ^ 149 := by
    rw [zpow_neg, one_div]; norm_cast
  rw [hn, hz]
  refine ⟨le_min (by norm_num) hflow, min_le_left _ _, ?_⟩
  have hp : (0 : ℝ) < 2 ^ 149 := by positivity
  have e17 : (1 : ℝ) / 10 ^ 18 + 1 / 2 ^ 149 ≤ 1 / 10 ^ 17 := by norm_num
  have hfd : (f : ℝ) * (1 / 2 ^ 149) ≤ w ∧ (w : ℝ) < (f : ℝ) * (1 / 2 ^ 149) + 1 / 2 ^ 149 := by
    constructor
    · rw [mul_one_div, div_le_iff₀ hp]; exact hf1R
    · rw [← add_one_mul, mul_one_div, lt_div_iff₀ hp]; exact hf2R
  rw [abs_le]
  rcases Nat.le_total f (2 ^ 149) with h | h
  · rw [Nat.min_eq_right h]
    constructor <;> linarith [hfd.1, hfd.2]
  · rw [Nat.min_eq_left h]
    have hfR : (2 : ℝ) ^ 149 ≤ f := by exact_mod_cast h
    have h1 : (1 : ℝ) ≤ (f : ℝ) * (1 / 2 ^ 149) := by rw [mul_one_div, le_div_iff₀ hp]; linarith
    have h2 : ((2 ^ 149 : ℕ) : ℝ) * (1 / 2 ^ 149) = 1 := by
      rw [Nat.cast_pow, Nat.cast_ofNat, mul_one_div, div_self hp.ne']
    rw [h2]
    constructor <;> linarith [hfd.1]

theorem roundMag_one : roundMag (2 ^ 149) 0 = 0x3F800000 := by decide +kernel

/-- Rounding is at most 1.0 on numbers at most 1.0, and keeps a positive number positive. -/
theorem roundMag_unit_interval {n : Nat} (h0 : 0 < n) (h1 : n ≤ 2 ^ 149) :
    0 < roundMag n 0 ∧ roundMag n 0 ≤ 0x3F800000 := by
  have hlog : Nat.log2 n ≤ 149 := by
    by_contra hc
    have : 2 ^ 150 ≤ 2 ^ Nat.log2 n := Nat.pow_le_pow_right (by decide) (by omega)
    have := Nat.log2_self_le (n := n) (by omega)
    omega
  have hq : roundQuantum n 0 = Nat.log2 n - 23 := by simp [roundQuantum]
  constructor
  · simp only [roundMag]
    refine lt_min ?_ (by decide)
    by_cases h : roundQuantum n 0 = 0
    · rw [h]
      have := le_roundShift (n := n) (q := 0) (k := n) (by simp)
      omega
    · have := le_roundShift_quantum h; omega
  · simp only [roundMag]
    refine (Nat.min_le_left _ _).trans ?_
    have hr := roundShift_quantum_le n 0
    rcases Nat.lt_or_ge (Nat.log2 n) 149 with h | h
    · have : roundQuantum n 0 ≤ 125 := by omega
      omega
    · have h2 : Nat.log2 n = 149 := by omega
      have h3 : 2 ^ 149 ≤ n := by
        have := Nat.log2_self_le (n := n) (by omega)
        rwa [h2] at this
      obtain rfl : n = 2 ^ 149 := by omega
      have hq2 : roundQuantum (2 ^ 149) 0 = 126 := by omega
      have h4 : roundShift (2 ^ 149) 126 ≤ 2 ^ 23 := by
        simp only [roundShift]; norm_num
      rw [hq2]; omega

theorem winWitness_pos : WindowPositive winWitness := by
  intro e k _ _ _
  generalize 2 ^ e = m
  have h1 : 0 < winNearUnits m k := lt_of_lt_of_le one_pos (le_max_left _ _)
  have h2 : winNearUnits m k ≤ 2 ^ 149 := max_le (by norm_num) (min_le_left _ _)
  have h := roundMag_unit_interval h1 h2
  rw [winWitness, packFloat_toNat false (by omega)]
  simpa using h

theorem winWitness_accurate : WindowAccurate winWitness := by
  intro e k he2 he hk
  left
  obtain ⟨hlo, hhi, hc⟩ := winNearUnits_close he2 he hk
  rw [winWitness]
  set n := winNearUnits (2 ^ e) k
  obtain ⟨hp, hle⟩ := roundMag_unit_interval (n := n) (by omega) hhi
  have hfin : roundMag n 0 < infMag := by simp only [infMag]; omega
  have hmag := magUnits_roundMag false hfin
  simp only [Nat.sub_zero] at hmag
  have hlog : 118 ≤ Nat.log2 n := (Nat.le_log2 (by omega)).mpr hlo
  have hq : roundQuantum n 0 = Nat.log2 n - 23 := by simp [roundQuantum]
  have hne : roundQuantum n 0 ≠ 0 := by omega
  have hcl := roundShift_close n (roundQuantum n 0)
  have hexp : roundQuantum n 0 ≤ floatExp (packFloat false (roundMag n 0)) - 1 := by
    rw [floatExp_packFloat false (by omega)]
    have h1 := le_roundShift_quantum hne
    simp only [roundMag, infMag, Nat.sub_zero] at hfin ⊢
    omega
  set q := roundQuantum n 0
  have hz : (0 : ℝ) < (2 : ℝ) ^ (-149 : ℤ) := by positivity
  have hv : sampleValue (packFloat false (roundMag n 0)) =
      ((roundShift n q * 2 ^ q : ℕ) : ℝ) * (2 : ℝ) ^ (-149 : ℤ) := by
    rw [sampleValue, units, floatSign_packFloat false (by omega), hmag]
    simp
  have hr : |((roundShift n q * 2 ^ q : ℕ) : ℝ) - n| ≤ 2 ^ q / 2 := by
    have h1 : (2 : ℝ) * ((roundShift n q * 2 ^ q : ℕ) : ℝ) ≤ 2 * n + 2 ^ q := by exact_mod_cast hcl.1
    have h2 : (2 : ℝ) * n ≤ 2 * ((roundShift n q * 2 ^ q : ℕ) : ℝ) + 2 ^ q := by exact_mod_cast hcl.2
    rw [abs_le]; constructor <;> linarith
  have hulp : (2 : ℝ) ^ q * (2 : ℝ) ^ (-149 : ℤ) ≤ sampleUlp (packFloat false (roundMag n 0)) := by
    rw [sampleUlp]; gcongr
    · norm_num
  have hq95 : (1 : ℝ) / 2 ^ 54 ≤ (2 : ℝ) ^ q * (2 : ℝ) ^ (-149 : ℤ) := by
    have : (2 : ℝ) ^ (95 : ℕ) ≤ 2 ^ q := pow_le_pow_right₀ (by norm_num) (by omega)
    calc (1 : ℝ) / 2 ^ 54 = 2 ^ (95 : ℕ) * (2 : ℝ) ^ (-149 : ℤ) := by norm_num
      _ ≤ _ := by gcongr
  rw [hv]
  have hsplit := abs_sub_le (((roundShift n q * 2 ^ q : ℕ) : ℝ) * (2 : ℝ) ^ (-149 : ℤ))
    ((n : ℝ) * (2 : ℝ) ^ (-149 : ℤ)) (winRef (2 ^ e) k)
  rw [← sub_mul, abs_mul, abs_of_pos hz] at hsplit
  have hA : |((roundShift n q * 2 ^ q : ℕ) : ℝ) - n| * (2 : ℝ) ^ (-149 : ℤ) ≤
      2 ^ q / 2 * (2 : ℝ) ^ (-149 : ℤ) := by gcongr
  have hB : (1 : ℝ) / 10 ^ 17 ≤ 1 / 2 ^ 54 / 2 := by norm_num
  rw [div_mul_eq_mul_div] at hA
  generalize (2 : ℝ) ^ q * (2 : ℝ) ^ (-149 : ℤ) = Z at hA hulp hq95
  refine hsplit.trans ((add_le_add hA hc).trans ?_)
  clear hsplit hA hc hv hr
  linarith

/-- With a tolerance as large as the scale, the unit that always answers +0.0 meets R204. -/
theorem zeroUnit_accurate (scale : ℝ) : ImdctAccurate scale fun _ _ _ => 0 := by
  refine ⟨|scale|, abs_nonneg _, fun e _ _ X hX _ n _ => ⟨?_, ?_⟩⟩
  · show isFinite (0 : Word) = true
    decide
  have hz : sampleValue 0 = 0 := by
    have : units 0 = 0 := by decide
    rw [sampleValue, this, Int.cast_zero, zero_mul]
  have hsum : magnitudeSum X = ∑ k ∈ Finset.range (2 ^ e / 2), |sampleValue (X.getD k 0)| := by
    rw [magnitudeSum, ← hX, ← List.sum_ofFn (f := fun i : Fin X.length => |sampleValue (X.getD i 0)|) |>.trans
      (Finset.sum_range fun i => |sampleValue (X.getD i 0)|).symm]
    congr 1
    apply List.ext_getElem <;> simp
  rw [hz, zero_sub, abs_neg, imdctRef, imdctSum, abs_mul, hsum]
  refine mul_le_mul_of_nonneg_left ((Finset.abs_sum_le_sum_abs _ _).trans (Finset.sum_le_sum fun k _ => ?_))
    (abs_nonneg _)
  rw [abs_mul]
  exact mul_le_of_le_one_right (abs_nonneg _) (Real.abs_cos_le_one _)

end Sys2Proof.Config
end

