-- ==== Sys2Proof/Config.lean ====
section
/-! DEFINITION. What one configuration of the VCU fixes (R7), where a host access or a draw can point, and the values the
spec leaves free: the draws (R52, R223), the window table (R224) and the transform unit (R203). -/

namespace Sys2Proof.Config

/-- `CODE_ASSIGN`: the normative rule `SORTED` (R143), or the alternative `FIRST_FIT` (93_implementation_defined.md U14). -/
inductive CodeAssign where
  | sorted
  | firstFit
  deriving DecidableEq, Repr

/-- FREE VALUE.  A real number that is not named as a rational: the scale of a configuration of which nothing else is
known. -/
opaque freeScale (n : Nat) : ℝ

/-- The name of a real scale factor, as plain data: a rational, or any real at all (R7: "a real number, fixed per
configuration"). -/
inductive Scale where
  | rational (q : ℚ)
  | free (n : Nat)
  deriving DecidableEq, Repr

/-- The real number that a scale names. -/
noncomputable def Scale.value : Scale → ℝ
  | .rational q => (q : ℝ)
  | .free n => freeScale n

@[simp] theorem Scale.value_rational (q : ℚ) : (Scale.rational q).value = (q : ℝ) := rfl

@[simp] theorem Scale.value_free (n : Nat) : (Scale.free n).value = freeScale n := rfl

/-- The implementation parameters of R7.  `IMDCT_TOL`, whose value R7 leaves open, is `Params.imdctTol` below. -/
structure Params where
  /-- `NBOOKS` -/
  nbooks : Nat
  /-- `MAXENT` -/
  maxent : Nat
  /-- `MAXDIM` -/
  maxdim : Nat
  /-- `VQCAP` -/
  vqcap : Nat
  /-- `NCHMAX` -/
  nchmax : Nat
  /-- `BS_MIN_LOG2` -/
  bsMinLog2 : Nat
  /-- `BS_MAX_LOG2` -/
  bsMaxLog2 : Nat
  /-- `PKTCAP` -/
  pktcap : Nat
  /-- `IMDCT_SCALE` -/
  imdctScale : Scale
  /-- `CODE_ASSIGN` -/
  codeAssign : CodeAssign
  /-- `NUM`, the number of the numerics record: which window table and which transform unit -/
  num : Nat
  deriving DecidableEq, Repr

/-- The reference configuration (R7, column "reference"). -/
def Params.reference : Params where
  nbooks := 4
  maxent := 64
  maxdim := 8
  vqcap := 256
  nchmax := 2
  bsMinLog2 := 6
  bsMaxLog2 := 13
  pktcap := 4096
  imdctScale := .rational 1
  codeAssign := .sorted
  num := 0

/-- The constraints of R7 on the parameters. -/
def Params.wf (p : Params) : Bool :=
  decide (1 ≤ p.nbooks) && decide (p.nbooks ≤ 256) && decide (1 ≤ p.maxent) && decide (1 ≤ p.maxdim) &&
  decide (1 ≤ p.vqcap) && decide (1 ≤ p.nchmax) && decide (p.nchmax ≤ 255) && decide (2 ≤ p.bsMinLog2) &&
  decide (p.bsMinLog2 ≤ p.bsMaxLog2) && decide (p.bsMaxLog2 ≤ 15) && decide (1 ≤ p.pktcap) &&
  decide (p.pktcap < 2 ^ 29)

/-- The row length of `SPEC`, `OVL` and `OUT`: `2^BS_MAX_LOG2 / 2` (R39, R41, R42). -/
def Params.halfRow (p : Params) : Nat := 2 ^ p.bsMaxLog2 / 2

/-- The row length of `TIME`: `2^BS_MAX_LOG2` (R40). -/
def Params.fullRow (p : Params) : Nat := 2 ^ p.bsMaxLog2

/-- One element of one of the nine address spaces, as a host access names it (R60, R64). -/
inductive Loc where
  | reg (i : Nat)
  | pkt (i : Nat)
  | lenstg (s : Nat)
  | vqstg (i : Nat)
  | spec (c k : Nat)
  | time (c k : Nat)
  | ovl (c k : Nat)
  | out (c k : Nat)
  | vec (j : Nat)
  deriving DecidableEq, Repr

/-- The index lies inside its space (R60, R65). -/
def Loc.inside (p : Params) : Loc → Bool
  | .reg i => decide (i < 16)
  | .pkt i => decide (i < p.pktcap)
  | .lenstg s => decide (s < p.maxent)
  | .vqstg i => decide (i < p.vqcap)
  | .spec c k => decide (c < p.nchmax) && decide (k < p.halfRow)
  | .time c k => decide (c < p.nchmax) && decide (k < p.fullRow)
  | .ovl c k => decide (c < p.nchmax) && decide (k < p.halfRow)
  | .out c k => decide (c < p.nchmax) && decide (k < p.halfRow)
  | .vec j => decide (j < p.maxdim)

/-- Which of one step's draws is meant, so that no two draws of a step need be equal: the read of the byte that holds
packet bit `p`; the read of one element; the NaN of one window product of `OLA`; the NaN of one overlap sum of `OLA`. -/
inductive DrawSite where
  | packetBit (p : Nat)
  | element (l : Loc)
  | windowProduct (c i : Nat)
  | overlapSum (c j : Nat)
  deriving DecidableEq, Repr

/-- FREE VALUE.  The draw a step makes at one of its sites: a never-written memory element (R52) or the choice of a NaN
(R223).  `n` is State's counter of host accesses, so every access draws afresh. -/
opaque draw (n : Nat) (site : DrawSite) : Word

/-- The scale of the reference configuration is 1 (R7). -/
@[simp] theorem Params.reference_scale : Params.reference.imdctScale.value = 1 := by simp [Params.reference]

/-- A window coefficient table with the properties R224 gives it.  The default table only shows that one exists. -/
structure WindowTable where
  coeff : Nat → Nat → Word := winWitness
  pos : WindowPositive coeff := by exact winWitness_pos
  accurate : WindowAccurate coeff := by exact winWitness_accurate
  deriving Inhabited

/-- PARAMETER.  The table of each numerics record, uninterpreted but for R224's properties. -/
opaque windowTable (num : Nat) : WindowTable

/-- `NUM.WIN(m, k)` of a configuration (R7, R12, R224). -/
def Params.win (p : Params) (m k : Nat) : Word := (windowTable p.num).coeff m k

/-- A transform unit with the property R204 gives it at a scale (R205 follows).  The default unit only shows that one
exists. -/
structure ImdctUnit (scale : Scale) where
  out : Nat → List Word → Nat → Word := fun _ _ _ => 0
  accurate : ImdctAccurate scale.value out := by exact zeroUnit_accurate scale.value
  deriving Inhabited

/-- PARAMETER.  The transform unit of each numerics record at each scale, uninterpreted but for R204's property. -/
opaque imdctUnit (num : Nat) (scale : Scale) : ImdctUnit scale

/-- The transform unit of a configuration. -/
def Params.imdctUnit (p : Params) : ImdctUnit p.imdctScale := Config.imdctUnit p.num p.imdctScale

/-- `NUM.IMDCT(e, X)` of a configuration: `2^e` samples that depend on `e` and `X` alone (R7, R203). -/
def Params.imdct (p : Params) (e : Nat) (X : List Word) : List Word := (List.range (2 ^ e)).map (p.imdctUnit.out e X)

@[simp] theorem Params.imdct_length (p : Params) (e : Nat) (X : List Word) : (p.imdct e X).length = 2 ^ e := by
  simp [Params.imdct]

/-- PARAMETER.  `IMDCT_TOL` of a configuration, the tolerance of its unit, whose value the spec leaves open (R7, R204). -/
noncomputable def Params.imdctTol (p : Params) : ℝ := p.imdctUnit.accurate.choose

/-- What the tolerance of a configuration means (R204). -/
theorem Params.imdctTol_spec (p : Params) :
    0 ≤ p.imdctTol ∧ ∀ e : Nat, 2 ≤ e → e ≤ 15 → ImdctAccurateAt p.imdctScale.value p.imdctUnit.out p.imdctTol e :=
  p.imdctUnit.accurate.choose_spec

end Sys2Proof.Config
end

