-- ==== Sys2Proof/Machine/State.lean ====
section
/-! DEFINITION. Everything the spec gives the VCU (R20): the registers of `REG`, the codebook records and the eight
memories; beside them the model's own fields, its configuration, its draw counter and the host's side of the port. -/

namespace Sys2Proof.Machine

open Sys2Proof.Config

/-- The two phases (R180). -/
inductive Phase where
  | setup
  | run
  deriving DecidableEq, Repr

/-- The outcome of a command that `STATUS.ERR` names (R261).  `unsupportedFeature` and `decodeError` are names the VCU
reserves and never raises (R266). -/
inductive Err where
  | ok
  | unexpectedEof
  | invalidCodeword
  | malformedHeader
  | incompleteHeader
  | unsupportedFeature
  | decodeError
  | illegalCommand
  | badOperand
  deriving DecidableEq, Repr

/-- `STATUS` (R22): its two fields; every other bit reads 0. -/
structure Status where
  err : Err
  phase : Phase
  deriving DecidableEq, Repr

/-- `OLA_STATE` (R34): its two fields; every other bit reads 0. -/
structure OlaState where
  ovlValid : Bool
  prevLog2 : BitVec 4
  deriving DecidableEq, Repr

/-- One entry of a code table: a triple (len, code, sym) (R35). -/
structure CodeEntry where
  len : Nat
  code : Nat
  sym : Nat
  deriving DecidableEq, Repr

/-- The record of one codebook slot, `BOOK[b]` (R35). -/
structure Book where
  /-- `READY` -/
  ready : Bool
  /-- `ENT` -/
  ent : Nat
  /-- `DIM` -/
  dim : Nat
  /-- `HASVQ` -/
  hasVq : Bool
  /-- `TAB` -/
  tab : List CodeEntry
  /-- `LMAX` -/
  lmax : Nat
  /-- `VAL` -/
  val : List Word
  deriving DecidableEq, Repr

/-- The record of a slot that has not been built.  Only `READY` = 0 is the spec's; the other fields are unread while it
holds (R35, R49). -/
def Book.unbuilt : Book := ⟨false, 0, 0, false, [], 0, []⟩

/-- A memory: the elements written since power-on, as (index, element) pairs with the indices strictly rising.  An index
that is not listed has no value of its own: a read of it is a draw (R52). -/
abbrev Memory (α : Type) := List (Nat × α)

/-- One host access (R66, R67): a read or a write of one element of one space.  A write to `CMD` issues a command. -/
inductive Access where
  | read (l : Loc)
  | write (l : Loc) (v : Word)
  deriving DecidableEq, Repr

/-- Why a step stops with a fault.  None: every command has a next state in every state (R315, U19). -/
inductive Fault
  deriving DecidableEq, Repr

/-- Why a step has no meaning. -/
inductive Refusal where
  /-- A command that has no meaning yet; raised by exec alone.  Safe. -/
  | notModelled (mnemonic : String)
  /-- A host access whose index lies outside its space; raised by the host port.  Safe: R65 says a model refuses it. -/
  | outsideSpace (l : Loc)
  deriving DecidableEq, Repr

/-- The state of the VCU. -/
structure State where
  /-- The configuration (R7).  The model's own field: no step changes it. -/
  cfg : Params
  /-- `STATUS`, register 1 (R22). -/
  status : Status
  /-- `RESULT`, register 2 (R23). -/
  result : Word
  /-- `PKT_LEN`, register 3 (R24). -/
  pktLen : Word
  /-- `PLEN`, register 4 (R25). -/
  plen : Word
  /-- `BITPOS`, register 5 (R26). -/
  bitpos : Word
  /-- `BLKCFG`, register 6 (R27). -/
  blkcfg : Word
  /-- `NCH`, register 7 (R28). -/
  nch : Word
  /-- `CB_ENTRIES`, register 8 (R29). -/
  cbEntries : Word
  /-- `CB_DIM`, register 9 (R30). -/
  cbDim : Word
  /-- `CB_LOOKUP`, register 10 (R31). -/
  cbLookup : Word
  /-- `VEC_LEN`, register 11 (R32). -/
  vecLen : Word
  /-- `OUT_LEN`, register 12 (R33). -/
  outLen : Word
  /-- `OLA_STATE`, register 13 (R34). -/
  olaState : OlaState
  /-- `BOOK[0 .. NBOOKS-1]` (R35). -/
  books : List Book
  /-- `PKT` (R36). -/
  pkt : Memory Byte
  /-- `LENSTG` (R37). -/
  lenstg : Memory Word
  /-- `VQSTG` (R38). -/
  vqstg : Memory Word
  /-- `SPEC` (R39), keyed by `cellKey`. -/
  spec : Memory Word
  /-- `TIME` (R40), keyed by `cellKey`. -/
  time : Memory Word
  /-- `OVL` (R41), keyed by `cellKey`. -/
  ovl : Memory Word
  /-- `OUT` (R42), keyed by `cellKey`. -/
  out : Memory Word
  /-- `VEC` (R43). -/
  vec : Memory Word
  /-- The model's own field: the number of host accesses made, which indexes the draws (R52, R223). -/
  draws : Nat
  /-- The model's own field: the host's accesses still to be made, in the host's order (R2, R69). -/
  pending : List Access
  /-- The model's own field: the values the host's reads returned, the latest first (R66). -/
  readLog : List Word
  deriving DecidableEq, Repr

/-- The state after power-on in the configuration `p` (R49): idle in phase `SETUP`, no access made, no memory written. -/
def State.powerOn (p : Params) : State where
  cfg := p
  status := ⟨.ok, .setup⟩
  result := 0
  pktLen := 0
  plen := 0
  bitpos := 0
  blkcfg := 0
  nch := 0
  cbEntries := 0
  cbDim := 0
  cbLookup := 0
  vecLen := 0
  outLen := 0
  olaState := ⟨false, 0⟩
  books := List.replicate p.nbooks Book.unbuilt
  pkt := []
  lenstg := []
  vqstg := []
  spec := []
  time := []
  ovl := []
  out := []
  vec := []
  draws := 0
  pending := []
  readLog := []

/-- The machine right after power-on reset, in the reference configuration (R7, R49, R300). -/
def State.reset : State := State.powerOn Params.reference

end Sys2Proof.Machine
end

