-- ==== Sys2Proof/Machine/Ops.lean ====
section
/-! DEFINITION. The named operations over memories and registers, and the one way a command ends: with success, or by
taking an error (R11, R273).  There is no return from an error (R276). -/

namespace Sys2Proof.Machine

open Sys2Proof.Config

/-- The element written at an index, if any. -/
def Memory.get {α : Type} : Memory α → Nat → Option α
  | [], _ => none
  | (k, v) :: m, a => if k = a then some v else Memory.get m a

/-- The indices are strictly rising: the canonical form, so that equal memories are equal lists. -/
def Memory.wf {α : Type} : Memory α → Bool
  | [] => true
  | [_] => true
  | (k, _) :: (k', v') :: m => decide (k < k') && Memory.wf ((k', v') :: m)

/-- Consecutive cells from an index on. -/
def cellsFrom {α : Type} : Nat → List α → Memory α
  | _, [] => []
  | a, v :: vs => (a, v) :: cellsFrom (a + 1) vs

/-- Write consecutive elements from `base` on. -/
def Memory.setRange {α : Type} (m : Memory α) (base : Nat) (vs : List α) : Memory α :=
  m.filter (fun c => decide (c.1 < base)) ++ cellsFrom base vs ++
    m.filter (fun c => decide (base + vs.length ≤ c.1))

/-- Write one element. -/
def Memory.set {α : Type} (m : Memory α) (a : Nat) (v : α) : Memory α := m.setRange a [v]

/-- The key of `M[c][k]` in a memory of two indices; no row is longer than 2^15 (R7). -/
def cellKey (c k : Nat) : Nat := c * 2 ^ 15 + k

/-- Write the words of row c from its first on, for every channel below `n`. -/
def writeRows (m : Memory Word) (n : Nat) (row : Nat → List Word) : Memory Word :=
  (List.range n).foldl (fun acc c => acc.setRange (cellKey c 0) (row c)) m

/-- Read one word of a memory: what was written there, or a draw (R52). -/
def State.wordAt (s : State) (m : Memory Word) (key : Nat) (l : Loc) : Word :=
  (m.get key).getD (draw s.draws (.element l))

/-- `LENSTG[i]` -/
def State.lenstgAt (s : State) (i : Nat) : Word := s.wordAt s.lenstg i (.lenstg i)

/-- `VQSTG[i]` -/
def State.vqstgAt (s : State) (i : Nat) : Word := s.wordAt s.vqstg i (.vqstg i)

/-- `SPEC[c][k]` -/
def State.specAt (s : State) (c k : Nat) : Word := s.wordAt s.spec (cellKey c k) (.spec c k)

/-- `TIME[c][k]` -/
def State.timeAt (s : State) (c k : Nat) : Word := s.wordAt s.time (cellKey c k) (.time c k)

/-- `OVL[c][k]` -/
def State.ovlAt (s : State) (c k : Nat) : Word := s.wordAt s.ovl (cellKey c k) (.ovl c k)

/-- `OUT[c][k]` -/
def State.outAt (s : State) (c k : Nat) : Word := s.wordAt s.out (cellKey c k) (.out c k)

/-- `VEC[j]` -/
def State.vecAt (s : State) (j : Nat) : Word := s.wordAt s.vec j (.vec j)

/-- `PKT[i]`, read at a draw site (R52). -/
def State.pktAt (s : State) (i : Nat) (site : DrawSite) : Byte :=
  (s.pkt.get i).getD ((draw s.draws site).setWidth 8)

/-- The command ended without `raise`: `STATUS.ERR <- 0` (R11). -/
def State.succeed (s : State) : State := { s with status := { s.status with err := .ok } }

/-- TAKING AN ERROR (R273): `s` is the state before the command, with the kept writes of the command's rule if it has
any; `STATUS.ERR` takes the code and nothing else happens: no mode changes, nothing is saved, no vector is fetched. -/
def State.raise (s : State) (e : Err) : State := { s with status := { s.status with err := e } }

/-- The second check of a command (R99, R181): in another phase than the one that allows it, it takes `IncompleteHeader`
and does nothing else; in the right one it goes on to `k`. -/
def State.requirePhase (s : State) (p : Phase) (k : State) : State :=
  if s.status.phase = p then k else s.raise .incompleteHeader

end Sys2Proof.Machine
end

