-- ==== Sys2Proof/Machine/Flags.lean ====
section
/-! DEFINITION. The status bits (R47): the error codes of `STATUS.ERR`, and how `STATUS` and `OLA_STATE` read as words. -/

namespace Sys2Proof.Machine

/-- The error codes (R261). -/
def Err.code : Err → Nat
  | .ok => 0
  | .unexpectedEof => 1
  | .invalidCodeword => 2
  | .malformedHeader => 3
  | .incompleteHeader => 4
  | .unsupportedFeature => 5
  | .decodeError => 6
  | .illegalCommand => 7
  | .badOperand => 8

/-- `STATUS.PHASE` as a bit (R22, R180). -/
def Phase.bit : Phase → Nat
  | .setup => 0
  | .run => 1

/-- `STATUS` as it reads: `ERR` = bits [3:0], `PHASE` = bit [4] (R22). -/
def Status.word (st : Status) : Word := BitVec.ofNat 32 (st.err.code + st.phase.bit * 2 ^ 4)

/-- `OLA_STATE` as it reads: `OVL_VALID` = bit [0], `PREV_LOG2` = bits [7:4] (R34). -/
def OlaState.word (o : OlaState) : Word :=
  BitVec.ofNat 32 ((if o.ovlValid then 1 else 0) + o.prevLog2.toNat * 2 ^ 4)

end Sys2Proof.Machine
end

