-- ==== Sys2Proof/Machine/Operands.lean ====
section
/-! DEFINITION. What a command's operands name: a block size (R11, R27), the committed channels (R28), a codebook slot
(R35). -/

namespace Sys2Proof.Machine

/-- `BLKCFG.BS0_LOG2` = bits [3:0] (R27). -/
def State.bs0Log2 (s : State) : Nat := (s.blkcfg.extractLsb' 0 4).toNat

/-- `BLKCFG.BS1_LOG2` = bits [7:4] (R27). -/
def State.bs1Log2 (s : State) : Nat := (s.blkcfg.extractLsb' 4 4).toNat

/-- The exponent of the block size a flag selects (R11, R92). -/
def State.blockLog2 (s : State) : BlockSize → Nat
  | .short => s.bs0Log2
  | .long => s.bs1Log2

/-- `N(f)` (R11). -/
def State.blockSize (s : State) (f : BlockSize) : Nat := 2 ^ s.blockLog2 f

/-- `NCH.NCH` = bits [7:0] (R28). -/
def State.channels (s : State) : Nat := (s.nch.extractLsb' 0 8).toNat

/-- The record of slot `b` when `b` is a slot and is ready (R150). -/
def State.readyBook (s : State) (b : Nat) : Option Book :=
  if b < s.cfg.nbooks then (s.books[b]?).filter (fun bk => bk.ready) else none

end Sys2Proof.Machine
end

