-- ==== Sys2Proof/Machine/BitReader.lean ====
section
/-! DEFINITION. The bit reader: `pktbit`, `readbits`, and the commands `PKT_START`, `BR_READ`, `BR_READ1`
(41_bitreader.md). -/

namespace Sys2Proof.Machine

open Sys2Proof.Config

/-- `pktbit(p)`, bit p of the packet: byte `p div 8`, bit `p mod 8` (R122). -/
def State.pktBit (s : State) (p : Nat) : Bool := (s.pktAt (p / 8) (.packetBit p)).getLsbD (p % 8)

/-- The number of bits of the current packet, `8 * PLEN` (R127). -/
def State.packetBits (s : State) : Nat := 8 * s.plen.toNat

/-- The value of the `n` packet bits from position `p` on; the i-th bit read is bit i of the value (R122). -/
def State.bitsValue (s : State) (p : Nat) : Nat → Nat
  | 0 => 0
  | n + 1 => s.bitsValue p n + (s.pktBit (p + n)).toNat * 2 ^ n

/-- Move the cursor to a bit position. -/
def State.seek (s : State) (p : Nat) : State := { s with bitpos := BitVec.ofNat 32 p }

/-- `readbits(n)`: the value and the state with the cursor advanced, or nothing when fewer than n bits remain (R122). -/
def State.readBits (s : State) (n : Nat) : Option (Nat × State) :=
  if s.packetBits < s.bitpos.toNat + n then none
  else some (s.bitsValue s.bitpos.toNat n, s.seek (s.bitpos.toNat + n))

/-- Read n bits into `RESULT` (R123); a failed read consumes nothing. -/
def State.readResult (s : State) (n : Nat) : State :=
  match s.readBits n with
  | none => s.raise .unexpectedEof
  | some (v, t) => { t with result := BitVec.ofNat 32 v }.succeed

/-- `PKT_START` (R121). -/
def execPktStart (s : State) : Host.Outcome State Fault Refusal :=
  .next (if s.cfg.pktcap < s.pktLen.toNat then s.raise .badOperand
    else { s with plen := s.pktLen, bitpos := 0 }.succeed)

/-- `BR_READ n` (R123). -/
def execBrRead (n : Nat) (s : State) : Host.Outcome State Fault Refusal :=
  .next (if 32 < n then s.raise .badOperand else s.readResult n)

/-- `BR_READ1` (R124). -/
def execBrRead1 (s : State) : Host.Outcome State Fault Refusal :=
  .next (s.readResult 1)

end Sys2Proof.Machine
end

