-- ==== Sys2Proof/Machine/Codebook.lean ====
section
/-! DEFINITION. The codebook unit: the input checks, the code assignments, the walk, and the commands `CB_BUILD`,
`CB_DECODE`, `CB_DECODE_VQ` (42_codebook.md). -/

namespace Sys2Proof.Machine

open Sys2Proof.Config

/-- A used symbol with its code length. -/
abbrev UsedSym := Nat × Nat

/-- `used_sorted(E)`: the pairs (length, symbol) of the used symbols, ascending in length and then in symbol; `lens` is
`LENSTG[0..E-1]` and every length is at most 32 (R143). -/
def usedSorted (lens : List Nat) : List UsedSym :=
  (List.range' 1 32).flatMap fun l => ((lens.zipIdx).filter fun p => p.1 == l)

/-- The Kraft sum in units of 2^-32 (R144). -/
def kraftSum (used : List UsedSym) : Nat := (used.map fun p => 2 ^ (32 - p.1)).sum

/-- The codes after one of length `l` and value `code`: each is the one before plus one, shifted left by the growth in
length (R143). -/
def assignAfter (l code : Nat) : List UsedSym → List CodeEntry
  | [] => []
  | (l', s) :: rest =>
    let c := (code + 1) * 2 ^ (l' - l)
    ⟨l', c, s⟩ :: assignAfter l' c rest

/-- `assign_codes`: the first code is 0 (R143). -/
def assignCodes : List UsedSym → List CodeEntry
  | [] => []
  | (l, s) :: rest => ⟨l, 0, s⟩ :: assignAfter l 0 rest

/-- The table under `SORTED`, or nothing when the lengths are over-subscribed (R143, R144). -/
def sortedTable (lens : List Nat) : Option (List CodeEntry) :=
  let used := usedSorted lens
  if 2 ^ 32 < kraftSum used then none else some (assignCodes used)

/-- `avail` of `FIRST_FIT`: the lowest free node at each depth, by depth 0..32 (93_implementation_defined.md U14). -/
abbrev Avail := List (Option Nat)

/-- The largest z in 1..l whose node is free (U14). -/
def Avail.deepest (avail : Avail) : Nat → Option (Nat × Nat)
  | 0 => none
  | l + 1 =>
    match avail[l + 1]? with
    | some (some r) => some (l + 1, r)
    | _ => Avail.deepest avail l

/-- The free nodes after the node r at depth z is given, extended by zeros, to a code of length l (U14). -/
def Avail.take (avail : Avail) (z r l : Nat) : Avail :=
  avail.zipIdx.map fun p =>
    if p.2 = z then none else if z < p.2 ∧ p.2 ≤ l then some (r * 2 ^ (p.2 - z) + 1) else p.1

/-- The free nodes after the first code, all zeros, of length l (U14). -/
def Avail.first (l : Nat) : Avail := (List.range 33).map fun y => if 1 ≤ y ∧ y ≤ l then some 1 else none

/-- The codes of the remaining used symbols in symbol order (U14). -/
def firstFitAfter (avail : Avail) : List UsedSym → Option (List CodeEntry)
  | [] => some []
  | (l, s) :: rest =>
    match avail.deepest l with
    | none => none
    | some (z, r) => (firstFitAfter (avail.take z r l) rest).map (⟨l, r * 2 ^ (l - z), s⟩ :: ·)

/-- The codes in symbol order, or nothing when the lengths are over-subscribed (U14). -/
def firstFit : List UsedSym → Option (List CodeEntry)
  | [] => some []
  | (l, s) :: rest => (firstFitAfter (Avail.first l) rest).map (⟨l, 0, s⟩ :: ·)

/-- The table under `FIRST_FIT`, sorted by (len, sym) (U14). -/
def firstFitTable (lens : List Nat) : Option (List CodeEntry) :=
  (firstFit (lens.zipIdx.filter fun p => p.1 != 0)).map fun tab =>
    (List.range' 1 32).flatMap fun l => tab.filter fun e => e.len == l

/-- The table of a list of code lengths under the configuration's rule (R7 `CODE_ASSIGN`, R143, U14). -/
def codeTable : CodeAssign → List Nat → Option (List CodeEntry)
  | .sorted => sortedTable
  | .firstFit => firstFitTable

/-- `check_inputs(E, D, K)` but for the code lengths (R142). -/
def sizesLegal (p : Params) (e d k : Nat) : Bool :=
  decide (e ≤ p.maxent) && decide (k < 2) &&
  (k == 0 || (decide (0 < d) && decide (d ≤ p.maxdim) && decide (e * d ≤ p.vqcap)))

/-- `LENSTG[0..E-1]`, each word read once and whole (R141). -/
def State.stagedLengths (s : State) (e : Nat) : List Nat := (List.range e).map fun i => (s.lenstgAt i).toNat

/-- `VQSTG[0..n-1]`, each word read once (R141). -/
def State.stagedValues (s : State) (n : Nat) : List Word := (List.range n).map s.vqstgAt

/-- The largest length of a table, 0 when it is empty (R35). -/
def maxLen (tab : List CodeEntry) : Nat := tab.foldr (fun e m => max e.len m) 0

/-- The record `CB_BUILD` makes of the staging registers and memories, or nothing for `MalformedHeader` (R141). -/
def State.buildBook (s : State) : Option Book :=
  let e := s.cbEntries.toNat
  let d := s.cbDim.toNat
  let k := s.cbLookup.toNat
  if sizesLegal s.cfg e d k then
    let lens := s.stagedLengths e
    if lens.all fun l => decide (l ≤ 32) then
      (codeTable s.cfg.codeAssign lens).map fun tab =>
        ⟨true, e, d, k == 1, tab, maxLen tab, if k = 1 then s.stagedValues (e * d) else []⟩
    else none
  else none

/-- `CB_BUILD b` (R141): all or nothing (R147). -/
def execCbBuild (b : Nat) (s : State) : Host.Outcome State Fault Refusal :=
  .next (s.requirePhase .setup
    (if s.cfg.nbooks ≤ b then s.raise .badOperand
     else match s.buildBook with
       | none => s.raise .malformedHeader
       | some bk => { s with books := s.books.set b bk }.succeed))

/-- The symbol of the entry with this length and code, if there is one (R150). -/
def findSym (tab : List CodeEntry) (l code : Nat) : Option Nat :=
  (tab.find? fun e => e.len == l && e.code == code).map fun e => e.sym

/-- How a walk ends; each carries the cursor it leaves (R150, R151). -/
inductive WalkEnd where
  | leaf (sym pos : Nat)
  | packetEnd (pos : Nat)
  | noLeaf (pos : Nat)
  deriving DecidableEq, Repr

/-- `walk(b)` from the middle: `l` bits are read, `acc` is their value, first bit most significant, and `fuel` more bits
may be read (R150).  A bit read is consumed, whatever happens next (R125, R151). -/
def State.walkFrom (s : State) (tab : List CodeEntry) : (fuel l acc pos : Nat) → WalkEnd
  | 0, _, _, pos => .noLeaf pos
  | fuel + 1, l, acc, pos =>
    if s.packetBits < pos + 1 then .packetEnd pos
    else
      let acc' := 2 * acc + (s.pktBit pos).toNat
      match findSym tab (l + 1) acc' with
      | some sym => .leaf sym (pos + 1)
      | none => s.walkFrom tab fuel (l + 1) acc' (pos + 1)

/-- `walk(b)` (R150). -/
def State.walk (s : State) (bk : Book) : WalkEnd := s.walkFrom bk.tab bk.lmax 0 0 s.bitpos.toNat

/-- Decode one symbol with a codebook and go on to `k` with the symbol and the state whose cursor has moved; an error of
the walk keeps the bits it consumed and nothing else (R150, R151, R273). -/
def State.decodeWith (s : State) (bk : Book) (k : Nat → State → State) : State :=
  match s.walk bk with
  | .leaf sym pos => k sym (s.seek pos)
  | .packetEnd pos => (s.seek pos).raise .unexpectedEof
  | .noLeaf pos => (s.seek pos).raise .invalidCodeword

/-- `CB_DECODE b` (R150). -/
def execCbDecode (b : Nat) (s : State) : Host.Outcome State Fault Refusal :=
  .next (s.requirePhase .run
    (match s.readyBook b with
     | none => s.raise .badOperand
     | some bk => s.decodeWith bk fun sym t => { t with result := BitVec.ofNat 32 sym }.succeed))

/-- The vector of a symbol, `VAL[sym * DIM .. sym * DIM + DIM - 1]` (R35, R152). -/
def Book.vector (bk : Book) (sym : Nat) : List Word := (bk.val.drop (sym * bk.dim)).take bk.dim

/-- `CB_DECODE_VQ b` (R152). -/
def execCbDecodeVq (b : Nat) (s : State) : Host.Outcome State Fault Refusal :=
  .next (s.requirePhase .run
    (match s.readyBook b with
     | none => s.raise .badOperand
     | some bk =>
       if bk.hasVq then
         s.decodeWith bk fun sym t =>
           { t with
             result := BitVec.ofNat 32 sym, vecLen := BitVec.ofNat 32 bk.dim,
             vec := t.vec.setRange 0 (bk.vector sym) }.succeed
       else s.raise .badOperand))

end Sys2Proof.Machine
end

