-- ==== Sys2Proof/Machine/Control.lean ====
section
/-! DEFINITION. The control commands `NOP`, `RESET`, `COMMIT` (43_control_phase.md). -/

namespace Sys2Proof.Machine

/-- `NOP` (R185): the command ends without `raise`. -/
def execNop (s : State) : Host.Outcome State Fault Refusal := .next s.succeed

/-- `RESET` (R182): every register to 0, phase `SETUP`, every slot not ready; the memories keep their contents. -/
def execReset (s : State) : Host.Outcome State Fault Refusal :=
  .next { s with
    status := ⟨.ok, .setup⟩, result := 0, pktLen := 0, plen := 0, bitpos := 0, blkcfg := 0, nch := 0,
    cbEntries := 0, cbDim := 0, cbLookup := 0, vecLen := 0, outLen := 0, olaState := ⟨false, 0⟩,
    books := s.books.map fun bk => { bk with ready := false } }

/-- The block sizes and the channel count are a legal configuration (R183). -/
def State.configLegal (s : State) : Bool :=
  decide (s.cfg.bsMinLog2 ≤ s.bs0Log2) && decide (s.bs1Log2 ≤ s.cfg.bsMaxLog2) && decide (s.bs0Log2 ≤ s.bs1Log2) &&
  decide (1 ≤ s.channels) && decide (s.channels ≤ s.cfg.nchmax)

/-- `COMMIT` (R183). -/
def execCommit (s : State) : Host.Outcome State Fault Refusal :=
  .next (s.requirePhase .setup
    (if s.configLegal then { s with status := { s.status with phase := .run } }.succeed
     else s.raise .malformedHeader))

end Sys2Proof.Machine
end

