-- ==== Sys2Proof/Machine/Imdct.lean ====
section
/-! DEFINITION. The inverse MDCT command `IMDCT` (44_imdct.md). -/

namespace Sys2Proof.Machine

open Sys2Proof.Config

/-- The frequency vector of channel c at exponent e: `SPEC[c][0 .. 2^e/2 - 1]`, each word read once (R201). -/
def State.spectrum (s : State) (c e : Nat) : List Word := (List.range (2 ^ e / 2)).map (s.specAt c)

/-- `IMDCT c, f` (R201). -/
def execImdct (c : Nat) (f : BlockSize) (s : State) : Host.Outcome State Fault Refusal :=
  .next (s.requirePhase .run
    (if s.channels ≤ c then s.raise .badOperand
     else
      let e := s.blockLog2 f
      { s with time := s.time.setRange (cellKey c 0) (s.cfg.imdct e (s.spectrum c e)) }.succeed))

end Sys2Proof.Machine
end

