-- ==== Sys2Proof/Machine/Ola.lean ====
section
/-! DEFINITION. The window and overlap-add commands `OLA` and `OLA_RESET` (45_overlap_add.md). -/

namespace Sys2Proof.Machine

open Sys2Proof.Config

/-- `wnd(N, P, Q, i, y)`: the windowed sample at index i, with the configuration's table; `d` names the NaN a product may give (R226, R227). -/
def windowed (p : Params) (N P Q i : Nat) (y d : Word) : Word :=
  let l := min N P
  let r := min N Q
  let ls := N / 4 - l / 4
  let le := N / 4 + l / 4
  let rs := 3 * N / 4 - r / 4
  let re := 3 * N / 4 + r / 4
  if i < ls then 0
  else if i < le then fmul y (p.win l (i - ls)) d
  else if i < rs then y
  else if i < re then fmul y (p.win r (r / 2 - 1 - (i - rs))) d
  else 0

/-- `P` of an `OLA` whose block size is N: the previous block size, or N when there is no tail (R225). -/
def State.prevSize (s : State) (N : Nat) : Nat :=
  if s.olaState.ovlValid then 2 ^ s.olaState.prevLog2.toNat else N

/-- `Wd[c][i]`: the windowed current block of channel c; `TIME[c][i]` is read once (R225). -/
def State.windowedAt (s : State) (N P Q c i : Nat) : Word :=
  windowed s.cfg N P Q i (s.timeAt c i) (draw s.draws (.windowProduct c i))

/-- The sum of tail word j of channel c and windowed sample i of it. -/
def State.overlapSum (s : State) (N P Q c j i : Nat) : Word :=
  fadd (s.ovlAt c j) (s.windowedAt N P Q c i) (draw s.draws (.overlapSum c j))

/-- `mix(N, P, c, j)` (R228, R229). -/
def State.mixAt (s : State) (N P Q c j : Nat) : Word :=
  if P ≤ N then
    let d := (N - P) / 4
    if j < P / 2 then s.overlapSum N P Q c j (j + d) else s.windowedAt N P Q c (j + d)
  else
    let d := (P - N) / 4
    if j < d then s.ovlAt c j else s.overlapSum N P Q c j (j - d)

/-- The output length: `P/4 + N/4` after a first block, 0 for it (R230, R232). -/
def State.olaLen (s : State) (N : Nat) : Nat :=
  if s.olaState.ovlValid then s.prevSize N / 4 + N / 4 else 0

/-- `OUT[c][0 .. LEN-1]` of an `OLA` (R225, R228, R229). -/
def State.outRow (s : State) (N Q c : Nat) : List Word :=
  (List.range (s.olaLen N)).map (s.mixAt N (s.prevSize N) Q c)

/-- The new tail of channel c, the second half of the windowed block (R231). -/
def State.tailRow (s : State) (N Q c : Nat) : List Word :=
  (List.range (N / 2)).map fun k => s.windowedAt N (s.prevSize N) Q c (N / 2 + k)

/-- `OUT` after an `OLA`; without a tail it is not written (R225, R232, R233). -/
def State.outAfter (s : State) (N Q : Nat) : Memory Word :=
  if s.olaState.ovlValid then writeRows s.out s.channels (s.outRow N Q) else s.out

/-- `OVL` after an `OLA` (R231). -/
def State.ovlAfter (s : State) (N Q : Nat) : Memory Word := writeRows s.ovl s.channels (s.tailRow N Q)

/-- `OLA f, nf` (R225): every read sees the state before the command. -/
def execOla (f nf : BlockSize) (s : State) : Host.Outcome State Fault Refusal :=
  .next (s.requirePhase .run
    (let N := s.blockSize f
     let Q := s.blockSize nf
     { s with
       out := s.outAfter N Q, ovl := s.ovlAfter N Q,
       outLen := BitVec.ofNat 32 (s.olaLen N), result := BitVec.ofNat 32 (s.olaLen N),
       olaState := ⟨true, BitVec.ofNat 4 (s.blockLog2 f)⟩ }.succeed))

/-- `OLA_RESET` (R235). -/
def execOlaReset (s : State) : Host.Outcome State Fault Refusal :=
  .next (s.requirePhase .run { s with olaState := ⟨false, 0⟩, outLen := 0 }.succeed)

end Sys2Proof.Machine
end

