-- ==== Sys2Proof/Machine/Dispatch.lean ====
section
/-! DEFINITION. One arm per command, each a direct call of its meaning. -/

namespace Sys2Proof.Machine

def exec (i : Instr) (s : State) : Host.Outcome State Fault Refusal :=
  match i with
  | .nop => Sys2Proof.Machine.execNop s
  | .reset => Sys2Proof.Machine.execReset s
  | .commit => Sys2Proof.Machine.execCommit s
  | .pktStart => Sys2Proof.Machine.execPktStart s
  | .brRead n => Sys2Proof.Machine.execBrRead n s
  | .brRead1 => Sys2Proof.Machine.execBrRead1 s
  | .cbBuild b => Sys2Proof.Machine.execCbBuild b s
  | .cbDecode b => Sys2Proof.Machine.execCbDecode b s
  | .cbDecodeVq b => Sys2Proof.Machine.execCbDecodeVq b s
  | .imdct c f => Sys2Proof.Machine.execImdct c f s
  | .ola f nf => Sys2Proof.Machine.execOla f nf s
  | .olaReset => Sys2Proof.Machine.execOlaReset s

end Sys2Proof.Machine
end

