-- ==== Sys2Proof/Machine/HostPort.lean ====
section
/-! DEFINITION. The host's port: `MemRead`, `MemWrite`, and the write to `CMD` that runs a command (20_memory.md). -/

namespace Sys2Proof.Machine

open Sys2Proof.Config

/-- What a host read of register i returns; 0 for `CMD` and the reserved numbers (R20, R44, R66). -/
def State.regAt (s : State) : Nat → Word
  | 1 => s.status.word
  | 2 => s.result
  | 3 => s.pktLen
  | 4 => s.plen
  | 5 => s.bitpos
  | 6 => s.blkcfg
  | 7 => s.nch
  | 8 => s.cbEntries
  | 9 => s.cbDim
  | 10 => s.cbLookup
  | 11 => s.vecLen
  | 12 => s.outLen
  | 13 => s.olaState.word
  | _ => 0

/-- What a host read of an element returns; a byte of `PKT` in the low bits of a word (R66). -/
def State.locAt (s : State) : Loc → Word
  | .reg i => s.regAt i
  | .pkt i => (s.pktAt i (.element (.pkt i))).setWidth 32
  | .lenstg i => s.lenstgAt i
  | .vqstg i => s.vqstgAt i
  | .spec c k => s.specAt c k
  | .time c k => s.timeAt c k
  | .ovl c k => s.ovlAt c k
  | .out c k => s.outAt c k
  | .vec j => s.vecAt j

/-- `MemRead` (R66): the host gets the value; no state of the VCU changes. -/
def hostRead (l : Loc) (s : State) : State := { s with readLog := s.locAt l :: s.readLog }

/-- What `BLKCFG` and `NCH` keep of a written word: bits [7:0] (R67). -/
def low8 (v : Word) : Word := (v.extractLsb' 0 8).setWidth 32

/-- A host write of a register other than `CMD` (R67): four store, two store in `SETUP` only, the rest ignore it. -/
def writeReg (i : Nat) (v : Word) (s : State) : State :=
  match i with
  | 3 => { s with pktLen := v }
  | 6 => if s.status.phase = .setup then { s with blkcfg := low8 v } else s
  | 7 => if s.status.phase = .setup then { s with nch := low8 v } else s
  | 8 => { s with cbEntries := v }
  | 9 => { s with cbDim := v }
  | 10 => { s with cbLookup := v }
  | _ => s

/-- A host write that runs no command (R67); a write to `PKT` moves bits [7:0]. -/
def hostWrite (l : Loc) (v : Word) (s : State) : State :=
  match l with
  | .reg i => writeReg i v s
  | .pkt i => { s with pkt := s.pkt.set i (v.setWidth 8) }
  | .lenstg i => { s with lenstg := s.lenstg.set i v }
  | .vqstg i => { s with vqstg := s.vqstg.set i v }
  | .spec c k => { s with spec := s.spec.set (cellKey c k) v }
  | .time c k => { s with time := s.time.set (cellKey c k) v }
  | .ovl _ _ => s
  | .out _ _ => s
  | .vec _ => s

/-- A write of the word w to `CMD` (R68, R99): an illegal word takes `IllegalCommand` and does nothing else; a command
runs whole. -/
def runCommand (w : Word) (s : State) : Host.Outcome State Fault Refusal :=
  match decode w with
  | .illegal _ => .next (s.raise .illegalCommand)
  | .command i => exec i s

/-- One host access (R66 to R68); one outside its space is refused (R65). -/
def performAccess (a : Access) (s : State) : Host.Outcome State Fault Refusal :=
  match a with
  | .read l => if l.inside s.cfg then .next (hostRead l s) else .refused (.outsideSpace l)
  | .write (.reg 0) w => runCommand w s
  | .write l v => if l.inside s.cfg then .next (hostWrite l v s) else .refused (.outsideSpace l)

/-- The state in which the first pending access is made: it is no longer pending, and the draws are fresh. -/
def State.beginAccess (s : State) (rest : List Access) : State :=
  { s with pending := rest, draws := s.draws + 1 }

/-- The next step: the first pending access, or nothing at all while the host makes none (R68, R300). -/
def nextAccess (s : State) : Host.Outcome State Fault Refusal :=
  match s.pending with
  | [] => .next s
  | a :: rest => performAccess a (s.beginAccess rest)

/-- Put a write of a command word before the host's pending accesses. -/
def issueCommand (s : State) (w : Word) : State := { s with pending := .write (.reg 0) w :: s.pending }

end Sys2Proof.Machine
end

