-- ==== Sys2Proof/Machine/Step.lean ====
section
/-! DEFINITION. One step of the machine: one host access, in the host's order (R68, R69). -/

namespace Sys2Proof.Machine

/-- One step. -/
def step (s : State) : Host.Outcome State Fault Refusal := nextAccess s

/-- `s` with the command word `w` (`nbits` bits, the rest 0) as the host's very next access, so that `step` runs it. -/
def State.withFetchWord (s : State) (nbits w : Nat) : State := issueCommand s (BitVec.ofNat 32 (w % 2 ^ nbits))

end Sys2Proof.Machine
end

