-- ==== Sys2Proof/Safety.lean ====
section
/-! DEFINITION. What claims about the VCU are stated in terms of: which command a phase allows (R181), prefix codes (R35,
R144), the bits a codeword is made of (R150, R154), and the invariant of every reachable state. -/

namespace Sys2Proof.Machine

open Sys2Proof.Config

/-- The table of R181: the command is allowed in the phase. -/
def allowedIn : Instr → Phase → Bool
  | .nop, _ => true
  | .reset, _ => true
  | .pktStart, _ => true
  | .brRead _, _ => true
  | .brRead1, _ => true
  | .cbBuild _, ph => decide (ph = .setup)
  | .commit, ph => decide (ph = .setup)
  | .cbDecode _, ph => decide (ph = .run)
  | .cbDecodeVq _, ph => decide (ph = .run)
  | .imdct _ _, ph => decide (ph = .run)
  | .ola _ _, ph => decide (ph = .run)
  | .olaReset, ph => decide (ph = .run)

/-- The first bits of b's code, as many as a's code has, are a's code. -/
def CodePrefix (a b : CodeEntry) : Prop := a.len ≤ b.len ∧ b.code / 2 ^ (b.len - a.len) = a.code

/-- No code of the table is a prefix of another's (R35). -/
def PrefixCode (tab : List CodeEntry) : Prop := tab.Pairwise fun a b => ¬ CodePrefix a b ∧ ¬ CodePrefix b a

/-- The order of a code table: ascending length, then ascending symbol (R35, R143). -/
def TableOrder (a b : CodeEntry) : Prop := a.len < b.len ∨ (a.len = b.len ∧ a.sym < b.sym)

/-- `lmax` is the largest length of the table, 0 when it is empty (R35). -/
def IsLargestLen (tab : List CodeEntry) (lmax : Nat) : Prop :=
  (tab = [] → lmax = 0) ∧ (∀ e ∈ tab, e.len ≤ lmax) ∧ (tab ≠ [] → ∃ e ∈ tab, e.len = lmax)

/-- What R35 says of the fields of a ready record, but for the prefix code. -/
structure BookInv (p : Params) (bk : Book) : Prop where
  ent : bk.ent ≤ p.maxent
  vq : bk.hasVq = true → 1 ≤ bk.dim ∧ bk.dim ≤ p.maxdim ∧ bk.val.length = bk.ent * bk.dim
  scalar : bk.hasVq = false → bk.val = []
  entries : ∀ e ∈ bk.tab, 1 ≤ e.len ∧ e.len ≤ 32 ∧ e.code < 2 ^ e.len ∧ e.sym < bk.ent
  order : bk.tab.Pairwise TableOrder
  lmax : IsLargestLen bk.tab bk.lmax

/-- The `n` packet bits from position `p` on as a code, the first bit the most significant (R150). -/
def State.codeAt (s : State) (p : Nat) : Nat → Nat
  | 0 => 0
  | n + 1 => 2 * s.codeAt p n + (s.pktBit (p + n)).toNat

/-- No entry of the table is the code of the first l packet bits from the cursor on, for any l up to n. -/
def State.NoCodeWithin (s : State) (bk : Book) (n : Nat) : Prop :=
  ∀ l, 1 ≤ l → l ≤ n → ∀ e ∈ bk.tab, ¬ (e.len = l ∧ e.code = s.codeAt s.bitpos.toNat l)

/-- The packet goes on from the cursor with the whole code of the entry, most significant bit first (R154). -/
def State.CodeNext (s : State) (e : CodeEntry) : Prop :=
  s.bitpos.toNat + e.len ≤ 8 * s.plen.toNat ∧
    ∀ j, j < e.len → s.pktBit (s.bitpos.toNat + j) = e.code.testBit (e.len - 1 - j)

/-- The code length staged for symbol y (R141). -/
def State.stagedLen (s : State) (y : Nat) : Nat := (s.lenstgAt y).toNat

/-- The staging registers and memories are malformed: a cause of R142, or over-subscribed lengths (R144). -/
def State.StagingMalformed (s : State) : Prop :=
  s.cfg.maxent < s.cbEntries.toNat ∨ 2 ≤ s.cbLookup.toNat ∨
  (s.cbLookup.toNat = 1 ∧ s.cbDim.toNat = 0) ∨
  (s.cbLookup.toNat = 1 ∧ s.cfg.maxdim < s.cbDim.toNat) ∨
  (s.cbLookup.toNat = 1 ∧ s.cfg.vqcap < s.cbEntries.toNat * s.cbDim.toNat) ∨
  (∃ y, y < s.cbEntries.toNat ∧ 32 < s.stagedLen y) ∨
  ((∀ y, y < s.cbEntries.toNat → s.stagedLen y ≤ 32) ∧
    2 ^ 32 < ∑ y ∈ Finset.range s.cbEntries.toNat,
      if s.stagedLen y = 0 then 0 else 2 ^ (32 - s.stagedLen y))

/-- `tab` is the code table of the staged lengths under `SORTED` (R143): one entry for each used symbol, in the table's
order; the first code is 0, and each next code is the one before plus one, shifted left by the growth in length. -/
structure State.SortedTableOf (s : State) (tab : List CodeEntry) : Prop where
  used : ∀ l y, (∃ c, (⟨l, c, y⟩ : CodeEntry) ∈ tab) ↔ y < s.cbEntries.toNat ∧ l ≠ 0 ∧ s.stagedLen y = l
  order : tab.Pairwise TableOrder
  first : ∀ e, tab[0]? = some e → e.code = 0
  next : ∀ i e e', tab[i]? = some e → tab[i + 1]? = some e' → e'.code = (e.code + 1) * 2 ^ (e'.len - e.len)

/-- Slot b holds the ready record bk (R35). -/
def State.Holds (s : State) (b : Nat) (bk : Book) : Prop :=
  b < s.cfg.nbooks ∧ s.books[b]? = some bk ∧ bk.ready = true

/-- Every element a memory lists lies inside its space (R60). -/
def keysInside {α : Type} (m : Memory α) (n : Nat) : Prop := ∀ c ∈ m, c.1 < n

/-- Every element a memory of two indices lists lies in a row of a channel (R60). -/
def rowsInside {α : Type} (m : Memory α) (channels row : Nat) : Prop :=
  ∀ c ∈ m, ∃ ch k, ch < channels ∧ k < row ∧ c.1 = cellKey ch k

/-- The invariant of the VCU: what holds at reset and is kept by every step. -/
structure State.Inv (s : State) : Prop where
  /-- The parameters are legal (R7). -/
  cfg : s.cfg.wf = true
  /-- `STATUS.ERR` never holds a reserved code (R261, R266). -/
  err : s.status.err ≠ .unsupportedFeature ∧ s.status.err ≠ .decodeError
  /-- R25 -/
  plen : s.plen.toNat ≤ s.cfg.pktcap
  /-- R26 -/
  bitpos : s.bitpos.toNat ≤ 8 * s.plen.toNat
  /-- Bits [31:8] of `BLKCFG` and `NCH` read 0 (R27, R28). -/
  blkcfg : s.blkcfg.toNat < 256
  nch : s.nch.toNat < 256
  /-- Throughout `RUN` the configuration is legal (R184). -/
  runConfig : s.status.phase = .run →
    s.cfg.bsMinLog2 ≤ s.bs0Log2 ∧ s.bs0Log2 ≤ s.bs1Log2 ∧ s.bs1Log2 ≤ s.cfg.bsMaxLog2 ∧
      1 ≤ s.channels ∧ s.channels ≤ s.cfg.nchmax
  /-- In `SETUP` there is no tail and no output (R184). -/
  setupIdle : s.status.phase = .setup → s.olaState = ⟨false, 0⟩ ∧ s.outLen = 0
  /-- R34 -/
  tail : (s.olaState.ovlValid = true →
      s.olaState.prevLog2.toNat = s.bs0Log2 ∨ s.olaState.prevLog2.toNat = s.bs1Log2) ∧
    (s.olaState.ovlValid = false → s.olaState.prevLog2 = 0)
  /-- R32, R43 -/
  vecLen : s.vecLen.toNat ≤ s.cfg.maxdim
  /-- R33, R230 -/
  outLen : s.outLen.toNat ≤ s.cfg.halfRow
  /-- One record per slot (R35). -/
  slots : s.books.length = s.cfg.nbooks
  /-- R35 -/
  books : ∀ bk ∈ s.books, bk.ready = true → BookInv s.cfg bk
  /-- Every memory keeps its canonical form and lists only elements of its space (R60). -/
  memWf : s.pkt.wf = true ∧ s.lenstg.wf = true ∧ s.vqstg.wf = true ∧ s.spec.wf = true ∧ s.time.wf = true ∧
    s.ovl.wf = true ∧ s.out.wf = true ∧ s.vec.wf = true
  memInside : keysInside s.pkt s.cfg.pktcap ∧ keysInside s.lenstg s.cfg.maxent ∧ keysInside s.vqstg s.cfg.vqcap ∧
    rowsInside s.spec s.cfg.nchmax s.cfg.halfRow ∧ rowsInside s.time s.cfg.nchmax s.cfg.fullRow ∧
    rowsInside s.ovl s.cfg.nchmax s.cfg.halfRow ∧ rowsInside s.out s.cfg.nchmax s.cfg.halfRow ∧
    keysInside s.vec s.cfg.maxdim

/-- Every ready record holds a prefix code (R35, R144). -/
def State.PrefixInv (s : State) : Prop := ∀ bk ∈ s.books, bk.ready = true → PrefixCode bk.tab

end Sys2Proof.Machine
end

