-- ==== Sys2Proof/Certificates/Slice0/Obligations.lean ====
section
/-! DEFINITION. The statements about the VCU, from the numbered rules of the spec.  Free values (a never-written memory
element, the choice of a NaN) stand in them as the draws of Config.lean, so each statement holds for every value of them. -/

open Sys2Proof Sys2Proof.Machine Sys2Proof.Config

/-! ## The command word (30_encoding.md) -/

/-- R90 to R93: the word of a well-formed command decodes to that command, with every operand at every value its field
admits. -/
def Obligations.DecodeUndoesEncode : Prop :=
  ∀ i : Instr, i.wf = true → decode (encode i) = .command i

/-- R90 to R93: a word has at most one meaning and the decoder drops no bit of it. -/
def Obligations.EncodeUndoesDecode : Prop :=
  ∀ (w : Word) (i : Instr), decode w = .command i → i.wf = true ∧ encode i = w

/-- R93: a word encodes a command exactly when `w & mask = match` for the command's row; every other word is illegal. -/
def Obligations.OpcodeMapDecidesDecoding : Prop :=
  (∀ r ∈ opcodeMap, ∀ w : Word, w &&& r.mask = r.pattern ↔ ∃ i, decode w = .command i ∧ i.mnemonic = r.mnemonic) ∧
  ∀ w : Word, (∀ r ∈ opcodeMap, w &&& r.mask ≠ r.pattern) ↔ ∃ why, decode w = .illegal why

/-- R93: words written out from the opcode map, one at least of every format, decode to the commands they stand for. -/
def Obligations.WrittenOutWordsDecode : Prop :=
  decode 0x00000000 = .command .nop ∧ decode 0x00000001 = .command .reset ∧
  decode 0x00000010 = .command .pktStart ∧ decode 0x00200011 = .command (.brRead 32) ∧
  decode 0x0000C821 = .command (.cbDecode 200) ∧ decode 0x00000222 = .command (.cbDecodeVq 2) ∧
  decode 0x00010130 = .command (.imdct 1 .long) ∧ decode 0x00010040 = .command (.ola .long .short) ∧
  decode 0x00020040 = .command (.ola .short .long) ∧ decode 0x00000041 = .command .olaReset

/-- R94: a write of an illegal word to `CMD` changes nothing except `STATUS.ERR <- 7`. -/
def Obligations.IllegalWordChangesOnlyErr : Prop :=
  ∀ (s : State) (w : Word), (∀ r ∈ opcodeMap, w &&& r.mask ≠ r.pattern) →
    runCommand w s = .next { s with status := ⟨.illegalCommand, s.status.phase⟩ } ∧ Err.illegalCommand.code = 7

/-! ## The step and the host's port (20_memory.md) -/

/-- A pending write to `CMD` runs its word as one step (R21, R68): a word that decodes to a command runs exactly that
command, any other takes `IllegalCommand`.  Around it the step removes the access from the host's list and advances the
draw counter, the model's own fields (log entries 2 and 5). -/
def Obligations.StepRunsTheDecodedCommand : Prop :=
  ∀ (s s' : State) (w : Word) (rest : List Access), s.pending = .write (.reg 0) w :: rest →
    s' = { s with pending := rest, draws := s.draws + 1 } →
    step s = runCommand w s' ∧ (∀ i, decode w = .command i → step s = exec i s') ∧
    ∀ why, decode w = .illegal why → step s = .next { s' with status := ⟨.illegalCommand, s.status.phase⟩ }

/-- The fetch word of the host's interface is the host's very next access: the step after it runs the command it decodes
to (the model's own interface; log entry 3). -/
def Obligations.FetchWordRunsNext : Prop :=
  ∀ (s : State) (w : Nat) (i : Instr), decodeTableWord 32 w = some i →
    step (s.withFetchWord 32 w) = exec i { s with draws := s.draws + 1 }

/-- Between host accesses the VCU is idle (R48, R68, R300): with no access pending a step changes nothing (the list of
pending accesses is the model's; log entry 2). -/
def Obligations.IdleStepChangesNothing : Prop :=
  ∀ s : State, s.pending = [] → step s = .next s

/-- R66: a host read of an element inside its space returns the element, and no state of the VCU changes; the model's own
fields take the access, its draw and the value returned (log entries 2, 4 and 5).  That a
byte of `PKT` comes zero-extended in a 32-bit value is the model's convention (log entry 9). -/
def Obligations.HostReadReturnsTheElement : Prop :=
  ∀ (s : State) (l : Loc) (rest : List Access), s.pending = .read l :: rest → l.inside s.cfg = true →
    ∃ v : Word, step s = .next { s with pending := rest, draws := s.draws + 1, readLog := v :: s.readLog } ∧
      match l with
      | .reg i => v = s.regAt i ∧ (i = 0 ∨ i = 14 ∨ i = 15 → v = 0)
      | .pkt i => ∀ b, s.pkt.get i = some b → v.toNat = b.toNat
      | .lenstg i => ∀ x, s.lenstg.get i = some x → v = x
      | .vqstg i => ∀ x, s.vqstg.get i = some x → v = x
      | .spec c k => ∀ x, s.spec.get (cellKey c k) = some x → v = x
      | .time c k => ∀ x, s.time.get (cellKey c k) = some x → v = x
      | .ovl c k => ∀ x, s.ovl.get (cellKey c k) = some x → v = x
      | .out c k => ∀ x, s.out.get (cellKey c k) = some x → v = x
      | .vec j => ∀ x, s.vec.get j = some x → v = x

/-- The register numbers and the fields of `STATUS` and `OLA_STATE` as the host reads them (R20, R22, R34, R44), with the
number of every error name (R261). -/
def Obligations.RegistersReadAsNumbered : Prop :=
  (∀ s : State,
    (s.regAt 1).toNat = s.status.err.code + 16 * (if s.status.phase = .run then 1 else 0) ∧
    s.regAt 2 = s.result ∧ s.regAt 3 = s.pktLen ∧ s.regAt 4 = s.plen ∧ s.regAt 5 = s.bitpos ∧
    s.regAt 6 = s.blkcfg ∧ s.regAt 7 = s.nch ∧ s.regAt 8 = s.cbEntries ∧ s.regAt 9 = s.cbDim ∧
    s.regAt 10 = s.cbLookup ∧ s.regAt 11 = s.vecLen ∧ s.regAt 12 = s.outLen ∧
    (s.regAt 13).toNat = (if s.olaState.ovlValid then 1 else 0) + 16 * s.olaState.prevLog2.toNat ∧
    s.regAt 0 = 0 ∧ s.regAt 14 = 0 ∧ s.regAt 15 = 0) ∧
  Err.ok.code = 0 ∧ Err.unexpectedEof.code = 1 ∧ Err.invalidCodeword.code = 2 ∧ Err.malformedHeader.code = 3 ∧
  Err.incompleteHeader.code = 4 ∧ Err.unsupportedFeature.code = 5 ∧ Err.decodeError.code = 6 ∧
  Err.illegalCommand.code = 7 ∧ Err.badOperand.code = 8

/-- R67, the register cases but `CMD`: four registers store the word, two store bits [7:0] in `SETUP` alone, and a write
to any other register changes nothing (but for the model's own fields; log entries 2 and 5). -/
def Obligations.HostRegisterWrites : Prop :=
  ∀ (s : State) (i : Nat) (v : Word) (rest : List Access), s.pending = .write (.reg i) v :: rest →
    i ≠ 0 → i < 16 →
    ∃ t : State, step s = .next t ∧
      (i = 3 → t = { s with pending := rest, draws := s.draws + 1, pktLen := v }) ∧
      (i = 8 → t = { s with pending := rest, draws := s.draws + 1, cbEntries := v }) ∧
      (i = 9 → t = { s with pending := rest, draws := s.draws + 1, cbDim := v }) ∧
      (i = 10 → t = { s with pending := rest, draws := s.draws + 1, cbLookup := v }) ∧
      (i = 6 → s.status.phase = .setup →
        t = { s with pending := rest, draws := s.draws + 1, blkcfg := BitVec.ofNat 32 (v.toNat % 2 ^ 8) }) ∧
      (i = 7 → s.status.phase = .setup →
        t = { s with pending := rest, draws := s.draws + 1, nch := BitVec.ofNat 32 (v.toNat % 2 ^ 8) }) ∧
      (i = 6 ∨ i = 7 → s.status.phase = .run → t = { s with pending := rest, draws := s.draws + 1 }) ∧
      (i = 1 ∨ i = 2 ∨ i = 4 ∨ i = 5 ∨ i = 11 ∨ i = 12 ∨ i = 13 ∨ i = 14 ∨ i = 15 →
        t = { s with pending := rest, draws := s.draws + 1 })

/-- R67, the memory cases: a write to `PKT`, `LENSTG`, `VQSTG`, `SPEC` or `TIME` stores the element at its index, changes
no other element and nothing else; a write to `OVL`, `OUT` or `VEC` changes nothing (but for the model's own fields; log
entries 2 and 5).  That `PKT` stores the low 8 bits of a 32-bit value is the model's convention (log entry 9). -/
def Obligations.HostMemoryWrites : Prop :=
  ∀ (s : State) (l : Loc) (v : Word) (rest : List Access), s.pending = .write l v :: rest → l.inside s.cfg = true →
    match l with
    | .reg _ => True
    | .pkt i => ∃ m, step s = .next { s with pending := rest, draws := s.draws + 1, pkt := m } ∧
        m.get i = some (v.setWidth 8) ∧ ∀ a, a ≠ i → m.get a = s.pkt.get a
    | .lenstg i => ∃ m, step s = .next { s with pending := rest, draws := s.draws + 1, lenstg := m } ∧
        m.get i = some v ∧ ∀ a, a ≠ i → m.get a = s.lenstg.get a
    | .vqstg i => ∃ m, step s = .next { s with pending := rest, draws := s.draws + 1, vqstg := m } ∧
        m.get i = some v ∧ ∀ a, a ≠ i → m.get a = s.vqstg.get a
    | .spec c k => ∃ m, step s = .next { s with pending := rest, draws := s.draws + 1, spec := m } ∧
        m.get (cellKey c k) = some v ∧ ∀ a, a ≠ cellKey c k → m.get a = s.spec.get a
    | .time c k => ∃ m, step s = .next { s with pending := rest, draws := s.draws + 1, time := m } ∧
        m.get (cellKey c k) = some v ∧ ∀ a, a ≠ cellKey c k → m.get a = s.time.get a
    | .ovl _ _ => step s = .next { s with pending := rest, draws := s.draws + 1 }
    | .out _ _ => step s = .next { s with pending := rest, draws := s.draws + 1 }
    | .vec _ => step s = .next { s with pending := rest, draws := s.draws + 1 }

/-- R65: an access whose index lies outside its space has no step; the model refuses it by name (log entry 13). -/
def Obligations.OutsideAccessIsRefused : Prop :=
  ∀ (s : State) (l : Loc) (v : Word) (rest : List Access), l.inside s.cfg = false →
    (s.pending = .read l :: rest → step s = .refused (.outsideSpace l)) ∧
    (s.pending = .write l v :: rest → step s = .refused (.outsideSpace l))

/-! ## Reset, phases and control commands (43_control_phase.md) -/

/-- R49: after power-on in any configuration every register reads 0, the phase is `SETUP`, no slot is ready and no memory
element is written. -/
def Obligations.PowerOnValues : Prop :=
  ∀ p : Params,
    (∀ i, (State.powerOn p).regAt i = 0) ∧ (State.powerOn p).status = ⟨.ok, .setup⟩ ∧
    (State.powerOn p).olaState = ⟨false, 0⟩ ∧ (State.powerOn p).books.length = p.nbooks ∧
    (∀ bk ∈ (State.powerOn p).books, bk.ready = false) ∧
    (∀ a, (State.powerOn p).pkt.get a = none) ∧ (∀ a, (State.powerOn p).lenstg.get a = none) ∧
    (∀ a, (State.powerOn p).vqstg.get a = none) ∧ (∀ a, (State.powerOn p).spec.get a = none) ∧
    (∀ a, (State.powerOn p).time.get a = none) ∧ (∀ a, (State.powerOn p).ovl.get a = none) ∧
    (∀ a, (State.powerOn p).out.get a = none) ∧ (∀ a, (State.powerOn p).vec.get a = none)

/-- R185: `NOP` clears `STATUS.ERR` and changes nothing else, in both phases. -/
def Obligations.NopOnlyClearsErr : Prop :=
  decode 0x00000000 = .command .nop ∧
  ∀ s : State, exec .nop s = .next { s with status := ⟨.ok, s.status.phase⟩ }

/-- R182: `RESET` writes every register, clears every `READY`, and keeps every memory, in both phases.
That a record's other fields stay is the model's choice where R49 leaves them unspecified (log entry 8). -/
def Obligations.ResetDiscardsTheStream : Prop :=
  decode 0x00000001 = .command .reset ∧
  ∀ s : State, ∃ bs : List Book,
    exec .reset s = .next { s with
      status := ⟨.ok, .setup⟩, result := 0, pktLen := 0, plen := 0, bitpos := 0, blkcfg := 0, nch := 0,
      cbEntries := 0, cbDim := 0, cbLookup := 0, vecLen := 0, outLen := 0, olaState := ⟨false, 0⟩, books := bs } ∧
    bs.length = s.books.length ∧
    ∀ (b : Nat) (old : Book), s.books[b]? = some old → bs[b]? = some { old with ready := false }

/-- R183: `COMMIT` in `SETUP` enters `RUN` exactly when the block sizes and the channel count are legal, and otherwise
takes `MalformedHeader` and changes nothing else; in `RUN` it takes `IncompleteHeader`. -/
def Obligations.CommitChecksTheConfiguration : Prop :=
  decode 0x00000002 = .command .commit ∧
  ∀ (s : State) (e0 e1 n : Nat),
    e0 = s.blkcfg.toNat % 2 ^ 4 → e1 = s.blkcfg.toNat / 2 ^ 4 % 2 ^ 4 → n = s.nch.toNat % 2 ^ 8 →
    (s.status.phase = .run → exec .commit s = .next { s with status := ⟨.incompleteHeader, .run⟩ }) ∧
    (s.status.phase = .setup →
      (e0 < s.cfg.bsMinLog2 ∨ s.cfg.bsMaxLog2 < e1 ∨ e1 < e0) ∨ (n = 0 ∨ s.cfg.nchmax < n) →
      exec .commit s = .next { s with status := ⟨.malformedHeader, .setup⟩ }) ∧
    (s.status.phase = .setup →
      s.cfg.bsMinLog2 ≤ e0 → e1 ≤ s.cfg.bsMaxLog2 → e0 ≤ e1 → n ≠ 0 → n ≤ s.cfg.nchmax →
      exec .commit s = .next { s with status := ⟨.ok, .run⟩ })

/-- R181: a command in a phase that does not allow it takes `IncompleteHeader` and changes nothing else; one that the
phase allows never takes it. -/
def Obligations.PhaseTableDecidesIncompleteHeader : Prop :=
  ∀ (i : Instr) (s : State),
    (allowedIn i s.status.phase = false →
      exec i s = .next { s with status := ⟨.incompleteHeader, s.status.phase⟩ }) ∧
    (allowedIn i s.status.phase = true → ∃ t : State, exec i s = .next t ∧ t.status.err ≠ .incompleteHeader)

/-- The only transitions of the phase are `SETUP` to `RUN` by a successful `COMMIT`, and to `SETUP` by `RESET` (R180). -/
def Obligations.OnlyCommitAndResetChangeThePhase : Prop :=
  ∀ (i : Instr) (s t : State), exec i s = .next t → t.status.phase ≠ s.status.phase →
    (i = .commit ∧ s.status.phase = .setup ∧ t.status = ⟨.ok, .run⟩) ∨ (i = .reset ∧ t.status = ⟨.ok, .setup⟩)

/-- Throughout `RUN` the block sizes, the channel count and every codebook record are constant (R184, R148): no step that
stays in `RUN` changes them, whatever the host's access. -/
def Obligations.RunFreezesConfigurationAndBooks : Prop :=
  ∀ s t : State, s.status.phase = .run → step s = .next t → t.status.phase = .run →
    t.blkcfg = s.blkcfg ∧ t.nch = s.nch ∧ t.books = s.books

/-- The invariant holds after power-on in every legal configuration, the reference one among them (R7, R49). -/
def Obligations.PowerOnMeetsInvariant : Prop :=
  (∀ p : Params, p.wf = true → (State.powerOn p).Inv ∧ (State.powerOn p).PrefixInv) ∧
  State.reset.Inv ∧ State.reset.PrefixInv

/-- The invariant of the VCU is kept by every step (R7, R25 to R28, R32 to R35, R184, R261). -/
def Obligations.StepKeepsInvariant : Prop :=
  ∀ s t : State, s.Inv → step s = .next t → t.Inv

/-- Every ready codebook holds a prefix code, and every step keeps it so (R35, R144): under `SORTED`, and under the
alternative rule `FIRST_FIT` too (log entry 15). -/
def Obligations.StepKeepsPrefixCodes : Prop :=
  ∀ s t : State, s.Inv → s.PrefixInv → step s = .next t → t.PrefixInv

/-! ## Errors (60_exceptions.md) -/

/-- R315: every write to `CMD` in every state has an outcome, a next state; its `STATUS.ERR` is 0 to 4, 7 or 8, never a
reserved code (R260, R261, R266). -/
def Obligations.EveryCommandWordCompletes : Prop :=
  ∀ (w : Word) (s : State), ∃ t : State, runCommand w s = .next t ∧
    (t.status.err.code ≤ 4 ∨ t.status.err.code = 7 ∨ t.status.err.code = 8)

/-- R273, R274: a command that ends with an error changes `STATUS.ERR` and nothing else, except that a failed `CB_DECODE`
or `CB_DECODE_VQ` keeps the cursor where the walk left it. -/
def Obligations.ErrorsArePrecise : Prop :=
  ∀ (i : Instr) (s t : State), exec i s = .next t → t.status.err ≠ .ok →
    t = { s with status := ⟨t.status.err, s.status.phase⟩, bitpos := t.bitpos } ∧
    (t.bitpos ≠ s.bitpos → ∃ b, i = .cbDecode b ∨ i = .cbDecodeVq b)

/-- R73: the bit reader and codebook commands do not touch `SPEC`, `TIME`, `OVL`, `OUT`, `OUT_LEN` or `OLA_STATE`; `IMDCT`,
`OLA` and `OLA_RESET` do not touch the packet, the cursor or the codebooks; and no command writes the staging registers
and memories, but for `RESET`'s clearing of the registers. -/
def Obligations.UnitsDoNotTouchEachOther : Prop :=
  ∀ (i : Instr) (s t : State), exec i s = .next t →
    ((∃ n b, i ∈ [.pktStart, .brRead n, .brRead1, .cbBuild b, .cbDecode b, .cbDecodeVq b]) →
      t.spec = s.spec ∧ t.time = s.time ∧ t.ovl = s.ovl ∧ t.out = s.out ∧ t.outLen = s.outLen ∧
        t.olaState = s.olaState) ∧
    ((∃ c f g, i ∈ [.imdct c f, .ola f g, .olaReset]) →
      t.plen = s.plen ∧ t.bitpos = s.bitpos ∧ t.books = s.books ∧ t.vec = s.vec ∧ t.vecLen = s.vecLen) ∧
    (t.pkt = s.pkt ∧ t.lenstg = s.lenstg ∧ t.vqstg = s.vqstg ∧ t.spec = s.spec ∧ t.cfg = s.cfg ∧ t.draws = s.draws ∧
      t.pending = s.pending ∧ t.readLog = s.readLog) ∧
    (i ≠ .reset → t.pktLen = s.pktLen ∧ t.cbEntries = s.cbEntries ∧ t.cbDim = s.cbDim ∧ t.cbLookup = s.cbLookup ∧
      t.blkcfg = s.blkcfg ∧ t.nch = s.nch)

/-! ## The bit reader (41_bitreader.md) -/

/-- Bit p of the packet is bit `p mod 8` of byte `p div 8`, least significant first (R75, R122). -/
def Obligations.PacketBitIsTheBytesBit : Prop :=
  ∀ (s : State) (p : Nat) (b : Byte), s.pkt.get (p / 8) = some b →
    (s.pktBit p).toNat = b.toNat / 2 ^ (p % 8) % 2

/-- R121: `PKT_START` latches the packet's length and rewinds the cursor, or takes `BadOperand` when the length is above
`PKTCAP`, in both phases. -/
def Obligations.PktStartLatchesTheLength : Prop :=
  decode 0x00000010 = .command .pktStart ∧
  ∀ s : State,
    (s.pktLen.toNat ≤ s.cfg.pktcap →
      exec .pktStart s = .next { s with status := ⟨.ok, s.status.phase⟩, plen := s.pktLen, bitpos := 0 }) ∧
    (s.cfg.pktcap < s.pktLen.toNat →
      exec .pktStart s = .next { s with status := ⟨.badOperand, s.status.phase⟩ })

/-- R122, R123: `BR_READ n` takes `BadOperand` for n above 32; else takes `UnexpectedEof` when fewer than n bits remain; else
returns the next n bits, the i-th bit read as bit i of `RESULT`, and advances the cursor by n; in both phases. -/
def Obligations.BrReadReturnsTheNextBits : Prop :=
  (∀ n, n < 64 → decode (BitVec.ofNat 32 (0x00000011 + n * 2 ^ 16)) = .command (.brRead n)) ∧
  ∀ (s : State) (n : Nat),
    (32 < n → exec (.brRead n) s = .next { s with status := ⟨.badOperand, s.status.phase⟩ }) ∧
    (n ≤ 32 → 8 * s.plen.toNat < s.bitpos.toNat + n →
      exec (.brRead n) s = .next { s with status := ⟨.unexpectedEof, s.status.phase⟩ }) ∧
    (n ≤ 32 → s.bitpos.toNat + n ≤ 8 * s.plen.toNat → 8 * s.plen.toNat < 2 ^ 32 →
      ∃ r p : Word,
        exec (.brRead n) s = .next { s with status := ⟨.ok, s.status.phase⟩, result := r, bitpos := p } ∧
        p.toNat = s.bitpos.toNat + n ∧
        ∀ j, j < 32 → r.getLsbD j = (decide (j < n) && s.pktBit (s.bitpos.toNat + j)))

/-- R124: `BR_READ1` has the effect of `BR_READ 1` on every state; it returns the next bit, or takes `UnexpectedEof` at the
end of the packet. -/
def Obligations.BrRead1IsBrReadOfOne : Prop :=
  decode 0x00000012 = .command .brRead1 ∧
  ∀ s : State, exec .brRead1 s = exec (.brRead 1) s ∧
    (8 * s.plen.toNat < s.bitpos.toNat + 1 →
      exec .brRead1 s = .next { s with status := ⟨.unexpectedEof, s.status.phase⟩ }) ∧
    (s.bitpos.toNat + 1 ≤ 8 * s.plen.toNat → 8 * s.plen.toNat < 2 ^ 32 →
      ∃ r p : Word,
        exec .brRead1 s = .next { s with status := ⟨.ok, s.status.phase⟩, result := r, bitpos := p } ∧
        p.toNat = s.bitpos.toNat + 1 ∧ r.toNat = (s.pktBit s.bitpos.toNat).toNat)

/-- Within a packet the cursor never moves backward and never passes the end of the packet (R26, R128): of all commands only
`PKT_START` and `RESET` set it back. -/
def Obligations.CursorOnlyAdvances : Prop :=
  ∀ (i : Instr) (s t : State), s.Inv → i ≠ .pktStart → i ≠ .reset → exec i s = .next t →
    t.plen = s.plen ∧ s.bitpos.toNat ≤ t.bitpos.toNat ∧ t.bitpos.toNat ≤ 8 * t.plen.toNat

/-! ## Building a codebook (42_codebook.md) -/

/-- R142, R147: when `CB_BUILD b` fails: `IncompleteHeader` in `RUN`, then `BadOperand` for a slot out of range, under either
code assignment; then, under `SORTED`, `MalformedHeader` for malformed staging; each leaves every record as it was, and
everything else.  For lengths never written it rests on each word being read once (log entry 6). -/
def Obligations.CbBuildRejectsBadStaging : Prop :=
  ∀ (s : State) (b : Nat),
    (s.status.phase = .run →
      exec (.cbBuild b) s = .next { s with status := ⟨.incompleteHeader, .run⟩ }) ∧
    (s.status.phase = .setup → s.cfg.nbooks ≤ b →
      exec (.cbBuild b) s = .next { s with status := ⟨.badOperand, .setup⟩ }) ∧
    (s.cfg.codeAssign = .sorted → s.status.phase = .setup → b < s.cfg.nbooks → s.StagingMalformed →
      exec (.cbBuild b) s = .next { s with status := ⟨.malformedHeader, .setup⟩ })

/-- R143, R146: with well-formed staging `CB_BUILD b` replaces record b, and nothing else but `STATUS.ERR`, by the record of
the staged lengths: the table of the rule `SORTED`, its largest length, and the value table when there is one.
For staging words never written it rests on each word being read once (log entry 6). -/
def Obligations.CbBuildMakesTheSortedRecord : Prop :=
  (∀ b, b < 256 → decode (BitVec.ofNat 32 (0x00000020 + b * 2 ^ 8)) = .command (.cbBuild b)) ∧
  ∀ (s : State) (b : Nat), s.cfg.codeAssign = .sorted → s.status.phase = .setup → b < s.cfg.nbooks →
    ¬ s.StagingMalformed →
    ∃ bk : Book, exec (.cbBuild b) s =
        .next { s with status := ⟨.ok, .setup⟩, books := s.books.set b bk } ∧
      bk.ready = true ∧ bk.ent = s.cbEntries.toNat ∧ bk.dim = s.cbDim.toNat ∧
      (bk.hasVq = true ↔ s.cbLookup.toNat = 1) ∧
      s.SortedTableOf bk.tab ∧ IsLargestLen bk.tab bk.lmax ∧
      (s.cbLookup.toNat = 1 → bk.val.length = s.cbEntries.toNat * s.cbDim.toNat ∧
        ∀ i, i < s.cbEntries.toNat * s.cbDim.toNat → bk.val[i]? = some (s.vqstgAt i)) ∧
      (s.cbLookup.toNat = 0 → bk.val = [])

/-- R144: over-subscribed lengths have no table under `SORTED`; the table of any others holds one entry for each used
symbol, in the table's order, and is a prefix code whose codes fit their lengths and stand at the sum of the code space
before them. -/
def Obligations.SortedTableIsAPrefixCode : Prop :=
  ∀ lens : List Nat, (∀ l ∈ lens, l ≤ 32) →
    (2 ^ 32 < ((lens.filter fun l => l != 0).map fun l => 2 ^ (32 - l)).sum → sortedTable lens = none) ∧
    (((lens.filter fun l => l != 0).map fun l => 2 ^ (32 - l)).sum ≤ 2 ^ 32 →
      ∃ tab, sortedTable lens = some tab ∧
        (∀ l y, (∃ c, (⟨l, c, y⟩ : CodeEntry) ∈ tab) ↔ l ≠ 0 ∧ lens[y]? = some l) ∧
        tab.Pairwise TableOrder ∧ (∀ e ∈ tab, e.code < 2 ^ e.len) ∧ PrefixCode tab ∧
        ∀ (i : Nat) (e : CodeEntry), tab[i]? = some e →
          e.code * 2 ^ (32 - e.len) = ((tab.take i).map fun x => 2 ^ (32 - x.len)).sum)

/-- The two code assignments agree whenever the nonzero lengths never decrease as the symbol index grows (90_conflicts.md
C1, 93_implementation_defined.md U14; log entry 15). -/
def Obligations.FirstFitAgreesOnRisingLengths : Prop :=
  ∀ lens : List Nat, (∀ l ∈ lens, l ≤ 32) → (lens.filter fun l => l != 0).Pairwise (fun l l' => l ≤ l') →
    firstFitTable lens = sortedTable lens

/-- `CB_BUILD b` under the alternative rule `FIRST_FIT` (93_implementation_defined.md U14; log entry 15): it fails on the
same staging as under `SORTED`, and otherwise makes a record whose table holds one entry for each used symbol in the same
order, with codes that form a prefix code.  For staging words never written it rests on each word being read once (log
entry 6). -/
def Obligations.FirstFitBuildsAPrefixCode : Prop :=
  ∀ (s : State) (b : Nat), s.cfg.codeAssign = .firstFit → s.status.phase = .setup → b < s.cfg.nbooks →
    (s.StagingMalformed → exec (.cbBuild b) s = .next { s with status := ⟨.malformedHeader, .setup⟩ }) ∧
    (¬ s.StagingMalformed →
      ∃ bk : Book, exec (.cbBuild b) s =
          .next { s with status := ⟨.ok, .setup⟩, books := s.books.set b bk } ∧
        bk.ready = true ∧ bk.ent = s.cbEntries.toNat ∧ bk.dim = s.cbDim.toNat ∧
        (bk.hasVq = true ↔ s.cbLookup.toNat = 1) ∧
        (∀ l y, (∃ c, (⟨l, c, y⟩ : CodeEntry) ∈ bk.tab) ↔ y < s.cbEntries.toNat ∧ l ≠ 0 ∧ s.stagedLen y = l) ∧
        bk.tab.Pairwise TableOrder ∧ PrefixCode bk.tab ∧ (∀ e ∈ bk.tab, e.code < 2 ^ e.len) ∧
        IsLargestLen bk.tab bk.lmax ∧
        (s.cbLookup.toNat = 1 → bk.val.length = s.cbEntries.toNat * s.cbDim.toNat ∧
          ∀ i, i < s.cbEntries.toNat * s.cbDim.toNat → bk.val[i]? = some (s.vqstgAt i)) ∧
        (s.cbLookup.toNat = 0 → bk.val = []))

/-- R155, the build: `CB_BUILD` is a function of the staging registers and memories alone (and of the draws of staging
words never written, each read once; log entry 6): from two states that agree on them it ends in the same way and makes
the same record. -/
def Obligations.CbBuildDependsOnStagingAlone : Prop :=
  ∀ (s t s' t' : State) (b : Nat), s.cfg = t.cfg → s.status.phase = t.status.phase → s.cbEntries = t.cbEntries →
    s.cbDim = t.cbDim → s.cbLookup = t.cbLookup → s.lenstg = t.lenstg → s.vqstg = t.vqstg → s.draws = t.draws →
    s.books.length = t.books.length →
    exec (.cbBuild b) s = .next s' → exec (.cbBuild b) t = .next t' →
    s'.status = t'.status ∧ (s'.status.err = .ok → s'.books[b]? = t'.books[b]?)

/-! ## Decoding symbols (42_codebook.md) -/

/-- R154: if the record is ready and holds a prefix code, and the packet goes on with the code of an entry, then
`CB_DECODE` returns the entry's symbol and advances the cursor by the code's length, and changes nothing else. -/
def Obligations.CbDecodeRoundTrip : Prop :=
  (∀ b, b < 256 → decode (BitVec.ofNat 32 (0x00000021 + b * 2 ^ 8)) = .command (.cbDecode b)) ∧
  ∀ (s : State) (b : Nat) (bk : Book) (e : CodeEntry), s.status.phase = .run → s.Holds b bk → BookInv s.cfg bk →
    PrefixCode bk.tab → e ∈ bk.tab → s.CodeNext e → 8 * s.plen.toNat < 2 ^ 32 →
    ∃ p : Word,
      exec (.cbDecode b) s = .next { s with
        status := ⟨.ok, .run⟩, result := BitVec.ofNat 32 e.sym, bitpos := p } ∧
      p.toNat = s.bitpos.toNat + e.len

/-- R152: under the same conditions, with a value table, `CB_DECODE_VQ` also copies the symbol's vector to `VEC`, sets
`VEC_LEN`, and leaves the words of `VEC` past the dimension. -/
def Obligations.CbDecodeVqReturnsTheVector : Prop :=
  (∀ b, b < 256 → decode (BitVec.ofNat 32 (0x00000022 + b * 2 ^ 8)) = .command (.cbDecodeVq b)) ∧
  ∀ (s : State) (b : Nat) (bk : Book) (e : CodeEntry), s.status.phase = .run → s.Holds b bk → BookInv s.cfg bk →
    PrefixCode bk.tab → bk.hasVq = true → e ∈ bk.tab → s.CodeNext e → 8 * s.plen.toNat < 2 ^ 32 →
    ∃ (p : Word) (v : Memory Word),
      exec (.cbDecodeVq b) s = .next { s with
        status := ⟨.ok, .run⟩, result := BitVec.ofNat 32 e.sym, bitpos := p,
        vecLen := BitVec.ofNat 32 bk.dim, vec := v } ∧
      p.toNat = s.bitpos.toNat + e.len ∧
      (∀ j, j < bk.dim → ∃ x, bk.val[e.sym * bk.dim + j]? = some x ∧ v.get j = some x) ∧
      ∀ j, bk.dim ≤ j → v.get j = s.vec.get j

/-- When a decode fails before it reads a bit (R150, R152, R269): `IncompleteHeader` in `SETUP`; `BadOperand` for a slot out
of range or not ready, and for `CB_DECODE_VQ` of a record without a value table; nothing else changes. -/
def Obligations.DecodeOperandErrors : Prop :=
  ∀ (s : State) (b : Nat),
    (s.status.phase = .setup →
      exec (.cbDecode b) s = .next { s with status := ⟨.incompleteHeader, .setup⟩ } ∧
      exec (.cbDecodeVq b) s = .next { s with status := ⟨.incompleteHeader, .setup⟩ }) ∧
    (s.status.phase = .run → (∀ bk, ¬ s.Holds b bk) →
      exec (.cbDecode b) s = .next { s with status := ⟨.badOperand, .run⟩ } ∧
      exec (.cbDecodeVq b) s = .next { s with status := ⟨.badOperand, .run⟩ }) ∧
    ∀ bk, s.status.phase = .run → s.Holds b bk → bk.hasVq = false →
      exec (.cbDecodeVq b) s = .next { s with status := ⟨.badOperand, .run⟩ }

/-- R151: `InvalidCodeword` comes after exactly `LMAX` bits with no match, `UnexpectedEof` when the packet ends first; the
bits read stay consumed and nothing else changes; `LMAX` is at most 32. -/
def Obligations.FailedWalkKeepsTheCursor : Prop :=
  ∀ (s : State) (b : Nat) (bk : Book), s.status.phase = .run → s.Holds b bk →
    s.bitpos.toNat ≤ 8 * s.plen.toNat → 8 * s.plen.toNat < 2 ^ 32 →
    ∀ i : Instr, i = .cbDecode b ∨ (i = .cbDecodeVq b ∧ bk.hasVq = true) →
    (s.bitpos.toNat + bk.lmax ≤ 8 * s.plen.toNat → s.NoCodeWithin bk bk.lmax →
      ∃ p : Word, exec i s = .next { s with status := ⟨.invalidCodeword, .run⟩, bitpos := p } ∧
        p.toNat = s.bitpos.toNat + bk.lmax) ∧
    (8 * s.plen.toNat < s.bitpos.toNat + bk.lmax → s.NoCodeWithin bk (8 * s.plen.toNat - s.bitpos.toNat) →
      ∃ p : Word, exec i s = .next { s with status := ⟨.unexpectedEof, .run⟩, bitpos := p } ∧
        p.toNat = 8 * s.plen.toNat) ∧
    (BookInv s.cfg bk → bk.lmax ≤ 32)

/-- With a complete code every bit string reaches a leaf (R145, R263): a record whose codes are a prefix code and whose
lengths fill the code space, by whatever rule they were assigned, never makes `InvalidCodeword`, with either decode
command. -/
def Obligations.CompleteCodeHasNoDeadEnd : Prop :=
  ∀ (s t : State) (b : Nat) (bk : Book) (i : Instr), s.Holds b bk → BookInv s.cfg bk → PrefixCode bk.tab →
    (bk.tab.map fun e => 2 ^ (32 - e.len)).sum = 2 ^ 32 → i = .cbDecode b ∨ i = .cbDecodeVq b →
    exec i s = .next t → t.status.err ≠ .invalidCodeword

/-- R155, the walk: a decode, by either command, is a function of the record, the packet and the cursor alone (and of the
draws of packet bytes never written): from two states that agree on them it ends in the same way, with the same cursor,
symbol and vector. -/
def Obligations.DecodeDependsOnBookAndPacketAlone : Prop :=
  ∀ (s t s' t' : State) (b : Nat) (i : Instr), i = .cbDecode b ∨ i = .cbDecodeVq b →
    s.cfg.nbooks = t.cfg.nbooks → s.status.phase = t.status.phase →
    s.books[b]? = t.books[b]? → s.pkt = t.pkt → s.plen = t.plen → s.bitpos = t.bitpos → s.draws = t.draws →
    exec i s = .next s' → exec i t = .next t' →
    s'.status = t'.status ∧ s'.bitpos = t'.bitpos ∧ (s'.status.err = .ok → s'.result = t'.result) ∧
    (i = .cbDecodeVq b → s'.status.err = .ok → s'.vecLen = t'.vecLen ∧
      ((∀ bk, s.Holds b bk → BookInv s.cfg bk) →
        ∀ j, j < s'.vecLen.toNat → ∃ x, s'.vec.get j = some x ∧ t'.vec.get j = some x))

/-! ## The inverse MDCT (44_imdct.md) -/

/-- R201: `IMDCT c, f` takes `BadOperand` when c is not a committed channel; else it writes the transform of
`SPEC[c][0 .. N/2-1]` to `TIME[c][0 .. N-1]` and changes nothing else. -/
def Obligations.ImdctWritesTheTransform : Prop :=
  (∀ c, c < 256 → decode (BitVec.ofNat 32 (0x00000030 + c * 2 ^ 8)) = .command (.imdct c .short) ∧
    decode (BitVec.ofNat 32 (0x00010030 + c * 2 ^ 8)) = .command (.imdct c .long)) ∧
  ∀ (s : State) (c : Nat) (f : BlockSize) (e : Nat),
    e = (match f with
      | .short => s.blkcfg.toNat % 2 ^ 4
      | .long => s.blkcfg.toNat / 2 ^ 4 % 2 ^ 4) →
    (s.status.phase = .setup →
      exec (.imdct c f) s = .next { s with status := ⟨.incompleteHeader, .setup⟩ }) ∧
    (s.status.phase = .run → s.nch.toNat % 2 ^ 8 ≤ c →
      exec (.imdct c f) s = .next { s with status := ⟨.badOperand, .run⟩ }) ∧
    (s.status.phase = .run → c < s.nch.toNat % 2 ^ 8 →
      ∃ m : Memory Word, exec (.imdct c f) s = .next { s with status := ⟨.ok, .run⟩, time := m } ∧
        (s.cfg.imdct e ((List.range (2 ^ e / 2)).map (s.specAt c))).length = 2 ^ e ∧
        (∀ n, n < 2 ^ e →
          m.get (cellKey c n) = (s.cfg.imdct e ((List.range (2 ^ e / 2)).map (s.specAt c)))[n]?) ∧
        ∀ a, a < cellKey c 0 ∨ cellKey c 0 + 2 ^ e ≤ a → m.get a = s.time.get a)

/-- R204: for a vector in range every sample that `IMDCT` writes is finite and within the tolerance of the reference
transform at the scale of the configuration (R7, R202); the scale of the reference configuration is 1.  That one tolerance
serves every exponent from 2 to 15 is the model's choice (log entry 11). -/
def Obligations.ImdctIsAccurate : Prop :=
  Params.reference.imdctScale.value = 1 ∧ (∀ p : Params, 0 ≤ p.imdctTol) ∧
  ∀ (s : State) (c : Nat) (f : BlockSize), s.status.phase = .run → c < s.channels →
    2 ≤ s.blockLog2 f → ImdctInRange s.cfg.imdctScale.value (s.spectrum c (s.blockLog2 f)) →
    ∃ t : State, exec (.imdct c f) s = .next t ∧ ∀ n, n < s.blockSize f →
      ∃ y, t.time.get (cellKey c n) = some y ∧ isFinite y = true ∧
        |sampleValue y - imdctRef s.cfg.imdctScale.value (s.blockLog2 f) (s.spectrum c (s.blockLog2 f)) n| ≤
          s.cfg.imdctTol * magnitudeSum (s.spectrum c (s.blockLog2 f))

/-- R205: zero in, zero out. -/
def Obligations.ImdctOfSilenceIsSilent : Prop :=
  ∀ (s : State) (c : Nat) (f : BlockSize), s.status.phase = .run → c < s.channels → 2 ≤ s.blockLog2 f →
    (∀ k, k < s.blockSize f / 2 → isZero (s.specAt c k) = true) →
    ∃ t : State, exec (.imdct c f) s = .next t ∧ ∀ n, n < s.blockSize f →
      ∃ y, t.time.get (cellKey c n) = some y ∧ isZero y = true

/-- R207: the reference transform's two symmetries, and it is linear in its input. -/
def Obligations.ReferenceTransformSymmetries : Prop :=
  ∀ (scale : ℝ) (e : Nat), 1 ≤ e →
    (∀ (x : Nat → ℝ) (n : Nat), n < 2 ^ e / 2 →
      imdctSum scale e x (2 ^ e / 2 - 1 - n) = -imdctSum scale e x n ∧
      imdctSum scale e x (2 ^ e - 1 - n) = imdctSum scale e x (2 ^ e / 2 + n)) ∧
    ∀ (x y : Nat → ℝ) (a b : ℝ) (n : Nat),
      imdctSum scale e (fun k => a * x k + b * y k) n = a * imdctSum scale e x n + b * imdctSum scale e y n

/-! ## Window and overlap-add (45_overlap_add.md) -/

/-- R224: the reference slope lies between 0 and 1, rises, and its squares and the reversed slope's sum to 1; the
coefficients of every configuration's table lie above 0 and at most at 1.0, and each is within one unit in the last place of the
reference or one word away from a correctly rounded coefficient, the looser reading that log entry 10 chooses. -/
def Obligations.WindowTableIsAccurate : Prop :=
  ∀ (p : Params) (e m k : Nat), 2 ≤ e → e ≤ 15 → m = 2 ^ e → k < m / 2 →
    (0 < winRef m k ∧ winRef m k < 1) ∧
    (k + 1 < m / 2 → winRef m k < winRef m (k + 1)) ∧
    winRef m k ^ 2 + winRef m (m / 2 - 1 - k) ^ 2 = 1 ∧
    0 < (p.win m k).toNat ∧ (p.win m k).toNat ≤ 0x3F800000 ∧ WithinOneUlp (p.win m k) (winRef m k)

/-- R226, R227: the shape of the window: +0.0, a rising slope of size `min N P`, the sample itself, a falling slope of size
`min N Q` read backward, +0.0. -/
def Obligations.WindowShape : Prop :=
  ∀ (p : Params) (N P Q i : Nat) (y d : Word), i < N →
    let l := min N P
    let r := min N Q
    let ls := N / 4 - l / 4
    let le := N / 4 + l / 4
    let rs := 3 * N / 4 - r / 4
    let re := 3 * N / 4 + r / 4
    (4 ∣ N → 4 ∣ P → 4 ∣ Q → ls ≤ le ∧ le ≤ rs ∧ rs ≤ re ∧ re ≤ N ∧ le = ls + l / 2 ∧ re = rs + r / 2) ∧
    (i < ls → windowed p N P Q i y d = 0) ∧
    (ls ≤ i → i < le → windowed p N P Q i y d = fmul y (p.win l (i - ls)) d) ∧
    (le ≤ i → i < rs → windowed p N P Q i y d = y) ∧
    (le ≤ i → rs ≤ i → i < re → windowed p N P Q i y d = fmul y (p.win r (r / 2 - 1 - (i - rs))) d) ∧
    (le ≤ i → rs ≤ i → re ≤ i → windowed p N P Q i y d = 0)

/-- R231, R232: an `OLA` with no tail emits nothing and keeps the second half of the windowed block of every committed
channel as the tail; it changes no other element and nothing else. -/
def Obligations.FirstOlaEmitsNothing : Prop :=
  ∀ (s : State) (f nf : BlockSize) (N Q : Nat), s.status.phase = .run → s.olaState.ovlValid = false →
    N = s.blockSize f → Q = s.blockSize nf →
    ∃ v : Memory Word,
      exec (.ola f nf) s = .next { s with
        status := ⟨.ok, .run⟩, result := 0, outLen := 0, ovl := v,
        olaState := ⟨true, BitVec.ofNat 4 (s.blockLog2 f)⟩ } ∧
      (∀ c k, c < s.channels → k < N / 2 → v.get (cellKey c k) =
        some (windowed s.cfg N N Q (N / 2 + k) (s.timeAt c (N / 2 + k)) (draw s.draws (.windowProduct c (N / 2 + k))))) ∧
      ∀ c k, k < 2 ^ 15 → ¬ (c < s.channels ∧ k < N / 2) → v.get (cellKey c k) = s.ovl.get (cellKey c k)

/-- R225, R228 to R231, R233: an `OLA` with a tail emits `P/4 + N/4` samples on every committed channel, each the overlap sum
or the copy that R228 (N at least P) or R229 (N below P) names, from the tail before the command; it then keeps the second
half of the windowed block; it changes no other element and nothing else.  In `SETUP` it takes `IncompleteHeader`. -/
def Obligations.OlaOverlapsAndKeepsTheTail : Prop :=
  (decode 0x00000040 = .command (.ola .short .short) ∧ decode 0x00010040 = .command (.ola .long .short) ∧
    decode 0x00020040 = .command (.ola .short .long) ∧ decode 0x00030040 = .command (.ola .long .long)) ∧
  ∀ (s : State) (f nf : BlockSize) (N P Q LEN : Nat) (wd : Nat → Nat → Word) (sum : Nat → Nat → Nat → Word),
    N = s.blockSize f → Q = s.blockSize nf → P = 2 ^ s.olaState.prevLog2.toNat → LEN = P / 4 + N / 4 →
    (∀ c i, wd c i = windowed s.cfg N P Q i (s.timeAt c i) (draw s.draws (.windowProduct c i))) →
    (∀ c j i, sum c j i = fadd (s.ovlAt c j) (wd c i) (draw s.draws (.overlapSum c j))) →
    (s.status.phase = .setup →
      exec (.ola f nf) s = .next { s with status := ⟨.incompleteHeader, .setup⟩ }) ∧
    (s.status.phase = .run → s.olaState.ovlValid = true →
      ∃ o v : Memory Word,
        exec (.ola f nf) s = .next { s with
          status := ⟨.ok, .run⟩, result := BitVec.ofNat 32 LEN, outLen := BitVec.ofNat 32 LEN, out := o, ovl := v,
          olaState := ⟨true, BitVec.ofNat 4 (s.blockLog2 f)⟩ } ∧
        (∀ c j, c < s.channels → j < LEN → P ≤ N → j < P / 2 →
          o.get (cellKey c j) = some (sum c j (j + (N - P) / 4))) ∧
        (∀ c j, c < s.channels → j < LEN → P ≤ N → P / 2 ≤ j →
          o.get (cellKey c j) = some (wd c (j + (N - P) / 4))) ∧
        (∀ c j, c < s.channels → j < LEN → N < P → j < (P - N) / 4 →
          o.get (cellKey c j) = some (s.ovlAt c j)) ∧
        (∀ c j, c < s.channels → j < LEN → N < P → (P - N) / 4 ≤ j →
          o.get (cellKey c j) = some (sum c j (j - (P - N) / 4))) ∧
        (∀ c k, k < 2 ^ 15 → ¬ (c < s.channels ∧ k < LEN) → o.get (cellKey c k) = s.out.get (cellKey c k)) ∧
        (∀ c k, c < s.channels → k < N / 2 → v.get (cellKey c k) = some (wd c (N / 2 + k))) ∧
        ∀ c k, k < 2 ^ 15 → ¬ (c < s.channels ∧ k < N / 2) → v.get (cellKey c k) = s.ovl.get (cellKey c k))

/-- For a short block the next block's size has no effect (R238). -/
def Obligations.ShortOlaIgnoresNextSize : Prop :=
  ∀ s : State, s.bs0Log2 ≤ s.bs1Log2 → exec (.ola .short .short) s = exec (.ola .short .long) s

/-- R240: if every sample and every tail word that an `OLA` reads is numerically zero, so is every output and every new tail
word. -/
def Obligations.OlaOfSilenceIsSilent : Prop :=
  ∀ (s : State) (f nf : BlockSize), s.status.phase = .run →
    (∀ c i, c < s.channels → i < s.blockSize f → isZero (s.timeAt c i) = true) →
    (s.olaState.ovlValid = true → ∀ c j, c < s.channels → j < 2 ^ s.olaState.prevLog2.toNat / 2 →
      isZero (s.ovlAt c j) = true) →
    ∃ t : State, exec (.ola f nf) s = .next t ∧
      (∀ c j, c < s.channels → j < t.outLen.toNat → ∃ y, t.out.get (cellKey c j) = some y ∧ isZero y = true) ∧
      ∀ c k, c < s.channels → k < s.blockSize f / 2 → ∃ y, t.ovl.get (cellKey c k) = some y ∧ isZero y = true

/-- R239: within an `OLA` channels are independent: what it writes to one channel depends on no other channel's words. -/
def Obligations.OlaChannelsAreIndependent : Prop :=
  ∀ (s t s' t' : State) (f nf : BlockSize) (c : Nat), c < s.channels →
    s.status.phase = .run → t.status.phase = .run → s.cfg.num = t.cfg.num → s.blkcfg = t.blkcfg → s.nch = t.nch →
    s.olaState = t.olaState → s.draws = t.draws → (∀ i, i < s.blockSize f → s.timeAt c i = t.timeAt c i) →
    (s.olaState.ovlValid = true → ∀ j, j < 2 ^ s.olaState.prevLog2.toNat / 2 → s.ovlAt c j = t.ovlAt c j) →
    exec (.ola f nf) s = .next s' → exec (.ola f nf) t = .next t' →
    s'.outLen = t'.outLen ∧
    (∀ j, j < s'.outLen.toNat → s'.out.get (cellKey c j) = t'.out.get (cellKey c j)) ∧
    ∀ k, k < s.blockSize f / 2 → s'.ovl.get (cellKey c k) = t'.ovl.get (cellKey c k)

/-- R235: `OLA_RESET` forgets the tail and the output's length, and keeps everything else; in `SETUP` it takes
`IncompleteHeader`. -/
def Obligations.OlaResetForgetsTheTail : Prop :=
  decode 0x00000041 = .command .olaReset ∧
  ∀ s : State,
    (s.status.phase = .setup → exec .olaReset s = .next { s with status := ⟨.incompleteHeader, .setup⟩ }) ∧
    (s.status.phase = .run → exec .olaReset s =
      .next { s with status := ⟨.ok, .run⟩, olaState := ⟨false, 0⟩, outLen := 0 })

/-! ## Sample arithmetic (45_overlap_add.md) -/

/-- R221: for finite samples `fadd` is the exact sum rounded once to the nearest binary32 number, ties to even; past the
rounding threshold it is an infinity of the sum's sign; a sum of zero is -0.0 only when both samples are negative. -/
def Obligations.FaddIsTheRoundedSum : Prop :=
  ∀ a b d : Word, isFinite a = true → isFinite b = true →
    (units a + units b = 0 →
      fadd a b d = if floatSign a = true ∧ floatSign b = true then 0x80000000 else 0x00000000) ∧
    (units a + units b ≠ 0 → floatSign (fadd a b d) = decide (units a + units b < 0)) ∧
    (isFinite (fadd a b d) = true → ∀ y : Word, isFinite y = true →
      |units (fadd a b d) - (units a + units b)| ≤ |units y - (units a + units b)| ∧
      (units y ≠ units (fadd a b d) →
        |units (fadd a b d) - (units a + units b)| = |units y - (units a + units b)| →
        (fadd a b d).toNat % 2 = 0)) ∧
    (isFinite (fadd a b d) = false →
      isInf (fadd a b d) = true ∧ (2 ^ 25 - 1) * 2 ^ 252 ≤ |units a + units b|) ∧
    ((2 ^ 25 - 1) * 2 ^ 252 ≤ |units a + units b| → isFinite (fadd a b d) = false)

/-- R222: for finite samples `fmul` is the exact product rounded once to the nearest binary32 number, ties to even; past
the rounding threshold it is an infinity; its sign is the exclusive-or of the operand signs, a zero's too. -/
def Obligations.FmulIsTheRoundedProduct : Prop :=
  ∀ a b d : Word, isFinite a = true → isFinite b = true →
    floatSign (fmul a b d) = (floatSign a != floatSign b) ∧
    (isZero a = true ∨ isZero b = true → isZero (fmul a b d) = true) ∧
    (isFinite (fmul a b d) = true → ∀ y : Word, isFinite y = true →
      |units (fmul a b d) * 2 ^ 149 - units a * units b| ≤ |units y * 2 ^ 149 - units a * units b| ∧
      (units y ≠ units (fmul a b d) →
        |units (fmul a b d) * 2 ^ 149 - units a * units b| = |units y * 2 ^ 149 - units a * units b| →
        (fmul a b d).toNat % 2 = 0)) ∧
    (isFinite (fmul a b d) = false →
      isInf (fmul a b d) = true ∧ (2 ^ 25 - 1) * 2 ^ 401 ≤ |units a * units b|) ∧
    ((2 ^ 25 - 1) * 2 ^ 401 ≤ |units a * units b| → isFinite (fmul a b d) = false)

/-- `fmul(x, 1.0)` = x bit for bit for every x that is not a NaN (R222). -/
def Obligations.FmulByOneIsIdentity : Prop :=
  ∀ x d : Word, isNaN x = false → fmul x 0x3F800000 d = x

/-- Infinities in sums and products (R221, R222): an infinity and a finite sample, or two infinities of one sign, add to the
infinity; an infinity and a sample that is neither a zero nor a NaN multiply to an infinity of the product's sign. -/
def Obligations.InfinitiesPropagate : Prop :=
  ∀ a b d : Word, isInf a = true → isNaN b = false →
    (isFinite b = true ∨ floatSign b = floatSign a → fadd a b d = a ∧ fadd b a d = a) ∧
    (isZero b = false →
      isInf (fmul a b d) = true ∧ floatSign (fmul a b d) = (floatSign a != floatSign b) ∧
      isInf (fmul b a d) = true ∧ floatSign (fmul b a d) = (floatSign a != floatSign b))

/-- R223: a NaN operand or an invalid operation gives a NaN, and any NaN may be the one; a result that is no NaN does not
depend on the draw. -/
def Obligations.NanResultsAreDraws : Prop :=
  ∀ a b : Word,
    ((isNaN a = true ∨ isNaN b = true ∨ (isInf a = true ∧ isInf b = true ∧ floatSign a ≠ floatSign b)) →
      (∀ d, isNaN (fadd a b d) = true) ∧ ∀ v, isNaN v = true → ∃ d, fadd a b d = v) ∧
    ((isNaN a = true ∨ isNaN b = true ∨ (isInf a = true ∧ isZero b = true) ∨ (isZero a = true ∧ isInf b = true)) →
      (∀ d, isNaN (fmul a b d) = true) ∧ ∀ v, isNaN v = true → ∃ d, fmul a b d = v) ∧
    (∀ d d', isNaN (fadd a b d) = false → fadd a b d' = fadd a b d) ∧
    (∀ d d', isNaN (fmul a b d) = false → fmul a b d' = fmul a b d)
end

