-- ==== Sys2Proof/Laws/State.lean ====
section
/-! SUPPORT. One lemma per field per update of the state, and what the shared ends of a command do. -/

namespace Sys2Proof.Machine

open Sys2Proof.Config

variable (s : State)

/-! ## The command ended without `raise` -/

@[simp] theorem State.succeed_status : (s.succeed).status = ⟨.ok, s.status.phase⟩ := rfl
@[simp] theorem State.succeed_cfg : (s.succeed).cfg = s.cfg := rfl
@[simp] theorem State.succeed_result : (s.succeed).result = s.result := rfl
@[simp] theorem State.succeed_pktLen : (s.succeed).pktLen = s.pktLen := rfl
@[simp] theorem State.succeed_plen : (s.succeed).plen = s.plen := rfl
@[simp] theorem State.succeed_bitpos : (s.succeed).bitpos = s.bitpos := rfl
@[simp] theorem State.succeed_blkcfg : (s.succeed).blkcfg = s.blkcfg := rfl
@[simp] theorem State.succeed_nch : (s.succeed).nch = s.nch := rfl
@[simp] theorem State.succeed_cbEntries : (s.succeed).cbEntries = s.cbEntries := rfl
@[simp] theorem State.succeed_cbDim : (s.succeed).cbDim = s.cbDim := rfl
@[simp] theorem State.succeed_cbLookup : (s.succeed).cbLookup = s.cbLookup := rfl
@[simp] theorem State.succeed_vecLen : (s.succeed).vecLen = s.vecLen := rfl
@[simp] theorem State.succeed_outLen : (s.succeed).outLen = s.outLen := rfl
@[simp] theorem State.succeed_olaState : (s.succeed).olaState = s.olaState := rfl
@[simp] theorem State.succeed_books : (s.succeed).books = s.books := rfl
@[simp] theorem State.succeed_pkt : (s.succeed).pkt = s.pkt := rfl
@[simp] theorem State.succeed_lenstg : (s.succeed).lenstg = s.lenstg := rfl
@[simp] theorem State.succeed_vqstg : (s.succeed).vqstg = s.vqstg := rfl
@[simp] theorem State.succeed_spec : (s.succeed).spec = s.spec := rfl
@[simp] theorem State.succeed_time : (s.succeed).time = s.time := rfl
@[simp] theorem State.succeed_ovl : (s.succeed).ovl = s.ovl := rfl
@[simp] theorem State.succeed_out : (s.succeed).out = s.out := rfl
@[simp] theorem State.succeed_vec : (s.succeed).vec = s.vec := rfl
@[simp] theorem State.succeed_draws : (s.succeed).draws = s.draws := rfl
@[simp] theorem State.succeed_pending : (s.succeed).pending = s.pending := rfl
@[simp] theorem State.succeed_readLog : (s.succeed).readLog = s.readLog := rfl

/-! ## Taking an error -/

@[simp] theorem State.raise_status (e : Err) : (s.raise e).status = ⟨e, s.status.phase⟩ := rfl
@[simp] theorem State.raise_cfg (e : Err) : (s.raise e).cfg = s.cfg := rfl
@[simp] theorem State.raise_result (e : Err) : (s.raise e).result = s.result := rfl
@[simp] theorem State.raise_pktLen (e : Err) : (s.raise e).pktLen = s.pktLen := rfl
@[simp] theorem State.raise_plen (e : Err) : (s.raise e).plen = s.plen := rfl
@[simp] theorem State.raise_bitpos (e : Err) : (s.raise e).bitpos = s.bitpos := rfl
@[simp] theorem State.raise_blkcfg (e : Err) : (s.raise e).blkcfg = s.blkcfg := rfl
@[simp] theorem State.raise_nch (e : Err) : (s.raise e).nch = s.nch := rfl
@[simp] theorem State.raise_cbEntries (e : Err) : (s.raise e).cbEntries = s.cbEntries := rfl
@[simp] theorem State.raise_cbDim (e : Err) : (s.raise e).cbDim = s.cbDim := rfl
@[simp] theorem State.raise_cbLookup (e : Err) : (s.raise e).cbLookup = s.cbLookup := rfl
@[simp] theorem State.raise_vecLen (e : Err) : (s.raise e).vecLen = s.vecLen := rfl
@[simp] theorem State.raise_outLen (e : Err) : (s.raise e).outLen = s.outLen := rfl
@[simp] theorem State.raise_olaState (e : Err) : (s.raise e).olaState = s.olaState := rfl
@[simp] theorem State.raise_books (e : Err) : (s.raise e).books = s.books := rfl
@[simp] theorem State.raise_pkt (e : Err) : (s.raise e).pkt = s.pkt := rfl
@[simp] theorem State.raise_lenstg (e : Err) : (s.raise e).lenstg = s.lenstg := rfl
@[simp] theorem State.raise_vqstg (e : Err) : (s.raise e).vqstg = s.vqstg := rfl
@[simp] theorem State.raise_spec (e : Err) : (s.raise e).spec = s.spec := rfl
@[simp] theorem State.raise_time (e : Err) : (s.raise e).time = s.time := rfl
@[simp] theorem State.raise_ovl (e : Err) : (s.raise e).ovl = s.ovl := rfl
@[simp] theorem State.raise_out (e : Err) : (s.raise e).out = s.out := rfl
@[simp] theorem State.raise_vec (e : Err) : (s.raise e).vec = s.vec := rfl
@[simp] theorem State.raise_draws (e : Err) : (s.raise e).draws = s.draws := rfl
@[simp] theorem State.raise_pending (e : Err) : (s.raise e).pending = s.pending := rfl
@[simp] theorem State.raise_readLog (e : Err) : (s.raise e).readLog = s.readLog := rfl

/-! ## Moving the cursor -/

@[simp] theorem State.seek_status (p : Nat) : (s.seek p).status = s.status := rfl
@[simp] theorem State.seek_cfg (p : Nat) : (s.seek p).cfg = s.cfg := rfl
@[simp] theorem State.seek_result (p : Nat) : (s.seek p).result = s.result := rfl
@[simp] theorem State.seek_pktLen (p : Nat) : (s.seek p).pktLen = s.pktLen := rfl
@[simp] theorem State.seek_plen (p : Nat) : (s.seek p).plen = s.plen := rfl
@[simp] theorem State.seek_bitpos (p : Nat) : (s.seek p).bitpos = BitVec.ofNat 32 p := rfl
@[simp] theorem State.seek_blkcfg (p : Nat) : (s.seek p).blkcfg = s.blkcfg := rfl
@[simp] theorem State.seek_nch (p : Nat) : (s.seek p).nch = s.nch := rfl
@[simp] theorem State.seek_cbEntries (p : Nat) : (s.seek p).cbEntries = s.cbEntries := rfl
@[simp] theorem State.seek_cbDim (p : Nat) : (s.seek p).cbDim = s.cbDim := rfl
@[simp] theorem State.seek_cbLookup (p : Nat) : (s.seek p).cbLookup = s.cbLookup := rfl
@[simp] theorem State.seek_vecLen (p : Nat) : (s.seek p).vecLen = s.vecLen := rfl
@[simp] theorem State.seek_outLen (p : Nat) : (s.seek p).outLen = s.outLen := rfl
@[simp] theorem State.seek_olaState (p : Nat) : (s.seek p).olaState = s.olaState := rfl
@[simp] theorem State.seek_books (p : Nat) : (s.seek p).books = s.books := rfl
@[simp] theorem State.seek_pkt (p : Nat) : (s.seek p).pkt = s.pkt := rfl
@[simp] theorem State.seek_lenstg (p : Nat) : (s.seek p).lenstg = s.lenstg := rfl
@[simp] theorem State.seek_vqstg (p : Nat) : (s.seek p).vqstg = s.vqstg := rfl
@[simp] theorem State.seek_spec (p : Nat) : (s.seek p).spec = s.spec := rfl
@[simp] theorem State.seek_time (p : Nat) : (s.seek p).time = s.time := rfl
@[simp] theorem State.seek_ovl (p : Nat) : (s.seek p).ovl = s.ovl := rfl
@[simp] theorem State.seek_out (p : Nat) : (s.seek p).out = s.out := rfl
@[simp] theorem State.seek_vec (p : Nat) : (s.seek p).vec = s.vec := rfl
@[simp] theorem State.seek_draws (p : Nat) : (s.seek p).draws = s.draws := rfl
@[simp] theorem State.seek_pending (p : Nat) : (s.seek p).pending = s.pending := rfl
@[simp] theorem State.seek_readLog (p : Nat) : (s.seek p).readLog = s.readLog := rfl

/-! ## Beginning a host access -/

@[simp] theorem State.beginAccess_status (rest : List Access) : (s.beginAccess rest).status = s.status := rfl
@[simp] theorem State.beginAccess_cfg (rest : List Access) : (s.beginAccess rest).cfg = s.cfg := rfl
@[simp] theorem State.beginAccess_result (rest : List Access) : (s.beginAccess rest).result = s.result := rfl
@[simp] theorem State.beginAccess_pktLen (rest : List Access) : (s.beginAccess rest).pktLen = s.pktLen := rfl
@[simp] theorem State.beginAccess_plen (rest : List Access) : (s.beginAccess rest).plen = s.plen := rfl
@[simp] theorem State.beginAccess_bitpos (rest : List Access) : (s.beginAccess rest).bitpos = s.bitpos := rfl
@[simp] theorem State.beginAccess_blkcfg (rest : List Access) : (s.beginAccess rest).blkcfg = s.blkcfg := rfl
@[simp] theorem State.beginAccess_nch (rest : List Access) : (s.beginAccess rest).nch = s.nch := rfl
@[simp] theorem State.beginAccess_cbEntries (rest : List Access) : (s.beginAccess rest).cbEntries = s.cbEntries := rfl
@[simp] theorem State.beginAccess_cbDim (rest : List Access) : (s.beginAccess rest).cbDim = s.cbDim := rfl
@[simp] theorem State.beginAccess_cbLookup (rest : List Access) : (s.beginAccess rest).cbLookup = s.cbLookup := rfl
@[simp] theorem State.beginAccess_vecLen (rest : List Access) : (s.beginAccess rest).vecLen = s.vecLen := rfl
@[simp] theorem State.beginAccess_outLen (rest : List Access) : (s.beginAccess rest).outLen = s.outLen := rfl
@[simp] theorem State.beginAccess_olaState (rest : List Access) : (s.beginAccess rest).olaState = s.olaState := rfl
@[simp] theorem State.beginAccess_books (rest : List Access) : (s.beginAccess rest).books = s.books := rfl
@[simp] theorem State.beginAccess_pkt (rest : List Access) : (s.beginAccess rest).pkt = s.pkt := rfl
@[simp] theorem State.beginAccess_lenstg (rest : List Access) : (s.beginAccess rest).lenstg = s.lenstg := rfl
@[simp] theorem State.beginAccess_vqstg (rest : List Access) : (s.beginAccess rest).vqstg = s.vqstg := rfl
@[simp] theorem State.beginAccess_spec (rest : List Access) : (s.beginAccess rest).spec = s.spec := rfl
@[simp] theorem State.beginAccess_time (rest : List Access) : (s.beginAccess rest).time = s.time := rfl
@[simp] theorem State.beginAccess_ovl (rest : List Access) : (s.beginAccess rest).ovl = s.ovl := rfl
@[simp] theorem State.beginAccess_out (rest : List Access) : (s.beginAccess rest).out = s.out := rfl
@[simp] theorem State.beginAccess_vec (rest : List Access) : (s.beginAccess rest).vec = s.vec := rfl
@[simp] theorem State.beginAccess_draws (rest : List Access) : (s.beginAccess rest).draws = s.draws + 1 := rfl
@[simp] theorem State.beginAccess_pending (rest : List Access) : (s.beginAccess rest).pending = rest := rfl
@[simp] theorem State.beginAccess_readLog (rest : List Access) : (s.beginAccess rest).readLog = s.readLog := rfl

/-! ## A host read -/

@[simp] theorem State.hostRead_status (l : Loc) : (hostRead l s).status = s.status := rfl
@[simp] theorem State.hostRead_cfg (l : Loc) : (hostRead l s).cfg = s.cfg := rfl
@[simp] theorem State.hostRead_result (l : Loc) : (hostRead l s).result = s.result := rfl
@[simp] theorem State.hostRead_pktLen (l : Loc) : (hostRead l s).pktLen = s.pktLen := rfl
@[simp] theorem State.hostRead_plen (l : Loc) : (hostRead l s).plen = s.plen := rfl
@[simp] theorem State.hostRead_bitpos (l : Loc) : (hostRead l s).bitpos = s.bitpos := rfl
@[simp] theorem State.hostRead_blkcfg (l : Loc) : (hostRead l s).blkcfg = s.blkcfg := rfl
@[simp] theorem State.hostRead_nch (l : Loc) : (hostRead l s).nch = s.nch := rfl
@[simp] theorem State.hostRead_cbEntries (l : Loc) : (hostRead l s).cbEntries = s.cbEntries := rfl
@[simp] theorem State.hostRead_cbDim (l : Loc) : (hostRead l s).cbDim = s.cbDim := rfl
@[simp] theorem State.hostRead_cbLookup (l : Loc) : (hostRead l s).cbLookup = s.cbLookup := rfl
@[simp] theorem State.hostRead_vecLen (l : Loc) : (hostRead l s).vecLen = s.vecLen := rfl
@[simp] theorem State.hostRead_outLen (l : Loc) : (hostRead l s).outLen = s.outLen := rfl
@[simp] theorem State.hostRead_olaState (l : Loc) : (hostRead l s).olaState = s.olaState := rfl
@[simp] theorem State.hostRead_books (l : Loc) : (hostRead l s).books = s.books := rfl
@[simp] theorem State.hostRead_pkt (l : Loc) : (hostRead l s).pkt = s.pkt := rfl
@[simp] theorem State.hostRead_lenstg (l : Loc) : (hostRead l s).lenstg = s.lenstg := rfl
@[simp] theorem State.hostRead_vqstg (l : Loc) : (hostRead l s).vqstg = s.vqstg := rfl
@[simp] theorem State.hostRead_spec (l : Loc) : (hostRead l s).spec = s.spec := rfl
@[simp] theorem State.hostRead_time (l : Loc) : (hostRead l s).time = s.time := rfl
@[simp] theorem State.hostRead_ovl (l : Loc) : (hostRead l s).ovl = s.ovl := rfl
@[simp] theorem State.hostRead_out (l : Loc) : (hostRead l s).out = s.out := rfl
@[simp] theorem State.hostRead_vec (l : Loc) : (hostRead l s).vec = s.vec := rfl
@[simp] theorem State.hostRead_draws (l : Loc) : (hostRead l s).draws = s.draws := rfl
@[simp] theorem State.hostRead_pending (l : Loc) : (hostRead l s).pending = s.pending := rfl
@[simp] theorem State.hostRead_readLog (l : Loc) : (hostRead l s).readLog = s.locAt l :: s.readLog := rfl

/-! ## The phase check -/

theorem State.requirePhase_of_eq {p : Phase} (h : s.status.phase = p) (k : State) : s.requirePhase p k = k := by
  rw [State.requirePhase, if_pos h]

theorem State.requirePhase_of_ne {p : Phase} (h : s.status.phase ≠ p) (k : State) :
    s.requirePhase p k = s.raise .incompleteHeader := by
  rw [State.requirePhase, if_neg h]

/-- A command behind the phase check either goes on, in the right phase, or takes `IncompleteHeader`. -/
theorem State.requirePhase_cases (p : Phase) (k : State) :
    (s.status.phase = p ∧ s.requirePhase p k = k) ∨
      (s.status.phase ≠ p ∧ s.requirePhase p k = s.raise .incompleteHeader) := by
  by_cases h : s.status.phase = p
  · exact .inl ⟨h, s.requirePhase_of_eq h k⟩
  · exact .inr ⟨h, s.requirePhase_of_ne h k⟩

/-! ## Reads of memory elements -/

/-- A word that was written reads as it was written. -/
theorem State.wordAt_of_get {m : Memory Word} {key : Nat} {v : Word} (h : m.get key = some v) (l : Loc) :
    s.wordAt m key l = v := by
  simp [State.wordAt, h]

/-- A word that was not written is a draw. -/
theorem State.wordAt_of_get_none {m : Memory Word} {key : Nat} (h : m.get key = none) (l : Loc) :
    s.wordAt m key l = draw s.draws (.element l) := by
  simp [State.wordAt, h]

/-- A byte that was written reads as it was written. -/
theorem State.pktAt_of_get {i : Nat} {b : Byte} (h : s.pkt.get i = some b) (site : DrawSite) :
    s.pktAt i site = b := by
  simp [State.pktAt, h]

/-! ## The codebook slots -/

/-- A ready book is the record of a slot. -/
theorem State.readyBook_eq_some {b : Nat} {bk : Book} :
    s.readyBook b = some bk ↔ b < s.cfg.nbooks ∧ s.books[b]? = some bk ∧ bk.ready = true := by
  rw [State.readyBook]
  split
  · rename_i h
    cases hb : s.books[b]? with
    | none => simp
    | some x =>
      by_cases hr : x.ready = true
      · simp only [Option.filter_some, hr, if_true, Option.some.injEq]
        constructor
        · rintro rfl; exact ⟨h, rfl, hr⟩
        · exact fun h2 => h2.2.1
      · simp only [Option.filter_some, hr, Bool.false_eq_true, if_false, reduceCtorEq, false_iff]
        rintro ⟨-, h2, h3⟩
        obtain rfl := Option.some.inj h2
        exact hr h3
  · rename_i h
    simp [h]

end Sys2Proof.Machine
end

