-- ==== Sys2Proof/Laws/BitReader.lean ====
section
/-! SUPPORT. What `readbits` answers (R122), and that moving the cursor changes no packet bit. -/

namespace Sys2Proof.Machine

variable (s : State)

@[simp] theorem State.pktBit_seek (p q : Nat) : (s.seek p).pktBit q = s.pktBit q := rfl

@[simp] theorem State.packetBits_seek (p : Nat) : (s.seek p).packetBits = s.packetBits := rfl

theorem State.bitsValue_lt (p n : Nat) : s.bitsValue p n < 2 ^ n := by
  induction n with
  | zero => simp [State.bitsValue]
  | succ n ih =>
    rw [State.bitsValue, Nat.pow_succ]
    cases s.pktBit (p + n) <;> simp <;> omega

/-- Bit j of the value of n bits read is the j-th bit read (R122). -/
theorem State.testBit_bitsValue (p n j : Nat) :
    (s.bitsValue p n).testBit j = (decide (j < n) && s.pktBit (p + j)) := by
  induction n with
  | zero => simp [State.bitsValue]
  | succ n ih =>
    rw [State.bitsValue, Nat.add_comm, Nat.mul_comm, Nat.testBit_two_pow_mul_add _ (s.bitsValue_lt p n), ih]
    by_cases h : j < n
    · simp [h, Nat.lt_succ_of_lt h]
    · rw [if_neg h]
      obtain ⟨d, rfl⟩ : ∃ d, j = n + d := ⟨j - n, by omega⟩
      rw [Nat.add_sub_cancel_left]
      cases d with
      | zero => cases s.pktBit (p + n) <;> simp
      | succ d =>
        have h1 : ¬ n + (d + 1) < n + 1 := by omega
        cases s.pktBit (p + n) <;> simp [h1, Nat.testBit_succ]

/-- `readbits` fails exactly when fewer than n bits remain (R122). -/
theorem State.readBits_eq_none {n : Nat} : s.readBits n = none ↔ s.packetBits < s.bitpos.toNat + n := by
  rw [State.readBits]; split <;> simp_all

/-- What a successful `readbits` answers (R122). -/
theorem State.readBits_of_le {n : Nat} (h : s.bitpos.toNat + n ≤ s.packetBits) :
    s.readBits n = some (s.bitsValue s.bitpos.toNat n, s.seek (s.bitpos.toNat + n)) := by
  rw [State.readBits, if_neg (by omega)]

end Sys2Proof.Machine
end

