-- ==== Sys2Proof/Laws/Codebook.lean ====
section
/-! SUPPORT. What the walk, the decode of a symbol and the build of a record can do (R141 to R151), each said once. -/

namespace Sys2Proof.Machine

open Sys2Proof.Config

variable (s : State)

/-- A symbol found is that of an entry with the length and the code looked for. -/
theorem findSym_eq_some {tab : List CodeEntry} {l c y : Nat} (h : findSym tab l c = some y) :
    ∃ e ∈ tab, e.len = l ∧ e.code = c ∧ e.sym = y := by
  rw [findSym, Option.map_eq_some_iff] at h
  obtain ⟨e, he, rfl⟩ := h
  have h1 := List.find?_some he
  simp only [Bool.and_eq_true, beq_iff_eq] at h1
  exact ⟨e, List.mem_of_find?_eq_some he, h1.1, h1.2, rfl⟩

/-- No symbol is found exactly when no entry has the length and the code. -/
theorem findSym_eq_none {tab : List CodeEntry} {l c : Nat} :
    findSym tab l c = none ↔ ∀ e ∈ tab, ¬ (e.len = l ∧ e.code = c) := by
  simp [findSym, List.find?_eq_none]

theorem State.codeAt_lt (p n : Nat) : s.codeAt p n < 2 ^ n := by
  induction n with
  | zero => simp [State.codeAt]
  | succ n ih => rw [State.codeAt, Nat.pow_succ]; cases s.pktBit (p + n) <;> simp <;> omega

/-- Everything the walk can do from the cursor p with l bits read (R150, R151). -/
theorem State.walkFrom_cases (tab : List CodeEntry) (p fuel l : Nat) (hl : p + l ≤ s.packetBits ∨ l = 0) :
    (∃ n y, n < fuel ∧ p + (l + n + 1) ≤ s.packetBits ∧
        s.walkFrom tab fuel l (s.codeAt p l) (p + l) = .leaf y (p + (l + n + 1)) ∧
        findSym tab (l + n + 1) (s.codeAt p (l + n + 1)) = some y ∧
        ∀ m, m < n → findSym tab (l + m + 1) (s.codeAt p (l + m + 1)) = none) ∨
    (∃ n, n < fuel ∧ s.packetBits < p + (l + n + 1) ∧ (p + (l + n) ≤ s.packetBits ∨ l + n = 0) ∧
        s.walkFrom tab fuel l (s.codeAt p l) (p + l) = .packetEnd (p + (l + n)) ∧
        ∀ m, m < n → findSym tab (l + m + 1) (s.codeAt p (l + m + 1)) = none) ∨
    ((p + (l + fuel) ≤ s.packetBits ∨ l + fuel = 0) ∧
        s.walkFrom tab fuel l (s.codeAt p l) (p + l) = .noLeaf (p + (l + fuel)) ∧
        ∀ m, m < fuel → findSym tab (l + m + 1) (s.codeAt p (l + m + 1)) = none) := by
  induction fuel generalizing l with
  | zero => exact .inr (.inr ⟨by simpa using hl, by simp [State.walkFrom], by simp⟩)
  | succ fuel ih =>
    by_cases hend : s.packetBits < p + l + 1
    · refine .inr (.inl ⟨0, by omega, by omega, by simpa using hl, ?_, by simp⟩)
      rw [State.walkFrom, if_pos hend]; rfl
    · have hacc : 2 * s.codeAt p l + (s.pktBit (p + l)).toNat = s.codeAt p (l + 1) := rfl
      cases hf : findSym tab (l + 1) (s.codeAt p (l + 1)) with
      | some y =>
        refine .inl ⟨0, y, by omega, by omega, ?_, hf, by simp⟩
        simp only [State.walkFrom, if_neg hend, hacc, hf]; rfl
      | none =>
        have hw : s.walkFrom tab (fuel + 1) l (s.codeAt p l) (p + l) =
            s.walkFrom tab fuel (l + 1) (s.codeAt p (l + 1)) (p + (l + 1)) := by
          simp only [State.walkFrom, if_neg hend, hacc, hf]; rfl
        have hstep : ∀ n, (∀ m, m < n → findSym tab (l + 1 + m + 1) (s.codeAt p (l + 1 + m + 1)) = none) →
            ∀ m, m < n + 1 → findSym tab (l + m + 1) (s.codeAt p (l + m + 1)) = none := by
          intro n hn m hm
          cases m with
          | zero => exact hf
          | succ m =>
            have := hn m (by omega)
            rwa [show l + 1 + m + 1 = l + (m + 1) + 1 by omega] at this
        rw [hw]
        rcases ih (l + 1) (by omega) with ⟨n, y, h1, h2, h3, h4, h5⟩ | ⟨n, h1, h2, h3, h4, h5⟩ | ⟨h1, h2, h3⟩
        · refine .inl ⟨n + 1, y, by omega, by omega, ?_, ?_, hstep n h5⟩
          · rw [h3]; congr 1; omega
          · rwa [show l + (n + 1) + 1 = l + 1 + n + 1 by omega]
        · refine .inr (.inl ⟨n + 1, by omega, by omega, by omega, ?_, hstep n h5⟩)
          rw [h4]; congr 1; omega
        · refine .inr (.inr ⟨by omega, ?_, hstep fuel h3⟩)
          rw [h2]; congr 1; omega

/-- Everything `walk` can do (R150, R151): the shortest prefix that is a code names its symbol, or the packet ends inside
the code, or `LMAX` bits are read and no prefix is a code. -/
theorem State.walk_cases (bk : Book) :
    (∃ n y, 1 ≤ n ∧ n ≤ bk.lmax ∧ s.bitpos.toNat + n ≤ s.packetBits ∧ s.walk bk = .leaf y (s.bitpos.toNat + n) ∧
        findSym bk.tab n (s.codeAt s.bitpos.toNat n) = some y ∧ s.NoCodeWithin bk (n - 1)) ∨
    (∃ n, n < bk.lmax ∧ s.packetBits < s.bitpos.toNat + n + 1 ∧ (s.bitpos.toNat + n ≤ s.packetBits ∨ n = 0) ∧
        s.walk bk = .packetEnd (s.bitpos.toNat + n) ∧ s.NoCodeWithin bk n) ∨
    ((s.bitpos.toNat + bk.lmax ≤ s.packetBits ∨ bk.lmax = 0) ∧
        s.walk bk = .noLeaf (s.bitpos.toNat + bk.lmax) ∧ s.NoCodeWithin bk bk.lmax) := by
  have hno : ∀ n, (∀ m, m < n → findSym bk.tab (0 + m + 1) (s.codeAt s.bitpos.toNat (0 + m + 1)) = none) →
      s.NoCodeWithin bk n := by
    intro n h l h1 h2
    have := h (l - 1) (by omega)
    rw [show 0 + (l - 1) + 1 = l by omega] at this
    exact findSym_eq_none.mp this
  rcases s.walkFrom_cases bk.tab s.bitpos.toNat bk.lmax 0 (.inr rfl) with
    ⟨n, y, h1, h2, h3, h4, h5⟩ | ⟨n, h1, h2, h3, h4, h5⟩ | ⟨h1, h2, h3⟩
  · refine .inl ⟨n + 1, y, by omega, by omega, by omega, ?_, ?_, hno n h5⟩
    · rw [State.walk]; simpa [State.codeAt] using h3
    · simpa using h4
  · refine .inr (.inl ⟨n, h1, by omega, by simpa using h3, ?_, hno n h5⟩)
    rw [State.walk]; simpa [State.codeAt] using h4
  · refine .inr (.inr ⟨by simpa using h1, ?_, hno _ h3⟩)
    rw [State.walk]; simpa [State.codeAt] using h2

/-- Everything the decode of a symbol can do: the walk's three ends, each with the cursor where the walk left it. -/
theorem State.decodeWith_cases (bk : Book) (k : Nat → State → State) :
    (∃ y p, s.walk bk = .leaf y p ∧ s.decodeWith bk k = k y (s.seek p)) ∨
    (∃ p, s.walk bk = .packetEnd p ∧ s.decodeWith bk k = (s.seek p).raise .unexpectedEof) ∨
    (∃ p, s.walk bk = .noLeaf p ∧ s.decodeWith bk k = (s.seek p).raise .invalidCodeword) := by
  cases h : s.walk bk with
  | leaf y p => exact .inl ⟨y, p, rfl, by rw [State.decodeWith, h]⟩
  | packetEnd p => exact .inr (.inl ⟨p, rfl, by rw [State.decodeWith, h]⟩)
  | noLeaf p => exact .inr (.inr ⟨p, rfl, by rw [State.decodeWith, h]⟩)

/-- The record `CB_BUILD` makes, and the checks that passed (R141, R142). -/
theorem State.buildBook_eq_some {bk : Book} :
    s.buildBook = some bk ↔
      sizesLegal s.cfg s.cbEntries.toNat s.cbDim.toNat s.cbLookup.toNat = true ∧
      (∀ l ∈ s.stagedLengths s.cbEntries.toNat, l ≤ 32) ∧
      ∃ tab, codeTable s.cfg.codeAssign (s.stagedLengths s.cbEntries.toNat) = some tab ∧
        bk = ⟨true, s.cbEntries.toNat, s.cbDim.toNat, s.cbLookup.toNat == 1, tab, maxLen tab,
          if s.cbLookup.toNat = 1 then s.stagedValues (s.cbEntries.toNat * s.cbDim.toNat) else []⟩ := by
  rw [State.buildBook]
  by_cases h1 : sizesLegal s.cfg s.cbEntries.toNat s.cbDim.toNat s.cbLookup.toNat = true
  · by_cases h2 : ∀ l ∈ s.stagedLengths s.cbEntries.toNat, l ≤ 32
    · have h2' : ((s.stagedLengths s.cbEntries.toNat).all fun l => decide (l ≤ 32)) = true := by simpa using h2
      simp only [h1, h2', if_true, true_and, Option.map_eq_some_iff]
      constructor
      · rintro ⟨tab, h, rfl⟩; exact ⟨fun _ h => h2 _ h, tab, h, rfl⟩
      · rintro ⟨-, tab, h, rfl⟩; exact ⟨tab, h, rfl⟩
    · have h2' : ¬ ((s.stagedLengths s.cbEntries.toNat).all fun l => decide (l ≤ 32)) = true := by simpa using h2
      simp only [h1, h2', if_true, if_false, reduceCtorEq, true_and, false_iff]
      exact fun h => h2 h.1
  · simp [h1]

/-- The sizes that `check_inputs` accepts (R142). -/
theorem sizesLegal_iff (p : Params) (e d k : Nat) :
    sizesLegal p e d k = true ↔
      e ≤ p.maxent ∧ k < 2 ∧ (k = 1 → 0 < d ∧ d ≤ p.maxdim ∧ e * d ≤ p.vqcap) := by
  simp only [sizesLegal, Bool.and_eq_true, Bool.or_eq_true, decide_eq_true_eq, beq_iff_eq, and_assoc]
  constructor
  · rintro ⟨h1, h2, h3⟩; exact ⟨h1, h2, fun hk => by simpa [hk] using h3⟩
  · rintro ⟨h1, h2, h3⟩
    refine ⟨h1, h2, ?_⟩
    rcases Nat.eq_zero_or_pos k with h | h
    · exact .inl h
    · exact .inr (h3 (by omega))

/-- The used symbols in the order of the table (R143). -/
theorem mem_usedSorted {lens : List Nat} {l y : Nat} :
    (l, y) ∈ usedSorted lens ↔ 1 ≤ l ∧ l ≤ 32 ∧ lens[y]? = some l := by
  simp only [usedSorted, List.mem_flatMap, List.mem_filter, List.mem_range'_1, beq_iff_eq]
  constructor
  · rintro ⟨a, ha, hm, rfl⟩
    exact ⟨ha.1, by omega, by simpa using List.mem_zipIdx_iff_getElem?.mp hm⟩
  · rintro ⟨h1, h2, h3⟩
    exact ⟨l, ⟨h1, by omega⟩, List.mem_zipIdx_iff_getElem?.mpr (by simpa using h3), rfl⟩

@[simp] theorem State.stagedLengths_getElem? (e y : Nat) :
    (s.stagedLengths e)[y]? = if y < e then some (s.lenstgAt y).toNat else none := by
  rw [State.stagedLengths, List.getElem?_map]
  by_cases h : y < e <;> simp [h]

@[simp] theorem State.stagedValues_length (n : Nat) : (s.stagedValues n).length = n := by simp [State.stagedValues]

end Sys2Proof.Machine
end

