-- ==== Sys2Proof/Laws/Decode.lean ====
section
/-! SUPPORT. The fields of a word built from its fields, and of any word (R90). -/

namespace Sys2Proof

theorem opField_eq (w : Word) : opField w = w.toNat % 2 ^ 8 := by
  simp [opField, BitVec.extractLsb'_toNat]

theorem aField_eq (w : Word) : aField w = w.toNat / 2 ^ 8 % 2 ^ 8 := by
  simp [aField, BitVec.extractLsb'_toNat, Nat.shiftRight_eq_div_pow]

theorem bField_eq (w : Word) : bField w = w.toNat / 2 ^ 16 % 2 ^ 6 := by
  simp [bField, BitVec.extractLsb'_toNat, Nat.shiftRight_eq_div_pow]

theorem zField_eq (w : Word) : zField w = w.toNat / 2 ^ 22 % 2 ^ 10 := by
  simp [zField, BitVec.extractLsb'_toNat, Nat.shiftRight_eq_div_pow]

theorem opField_lt (w : Word) : opField w < 2 ^ 8 := BitVec.isLt _

theorem aField_lt (w : Word) : aField w < 2 ^ 8 := BitVec.isLt _

theorem bField_lt (w : Word) : bField w < 2 ^ 6 := BitVec.isLt _

theorem zField_lt (w : Word) : zField w < 2 ^ 10 := BitVec.isLt _

theorem wordOf_toNat {op a b : Nat} (ho : op < 2 ^ 8) (ha : a < 2 ^ 8) (hb : b < 2 ^ 6) :
    (wordOf op a b).toNat = op + a * 2 ^ 8 + b * 2 ^ 16 := by
  rw [wordOf, BitVec.toNat_ofNat]; omega

@[simp] theorem opField_wordOf {op a b : Nat} (ho : op < 2 ^ 8) (ha : a < 2 ^ 8) (hb : b < 2 ^ 6) :
    opField (wordOf op a b) = op := by
  rw [opField_eq, wordOf_toNat ho ha hb]; omega

@[simp] theorem aField_wordOf {op a b : Nat} (ho : op < 2 ^ 8) (ha : a < 2 ^ 8) (hb : b < 2 ^ 6) :
    aField (wordOf op a b) = a := by
  rw [aField_eq, wordOf_toNat ho ha hb]; omega

@[simp] theorem bField_wordOf {op a b : Nat} (ho : op < 2 ^ 8) (ha : a < 2 ^ 8) (hb : b < 2 ^ 6) :
    bField (wordOf op a b) = b := by
  rw [bField_eq, wordOf_toNat ho ha hb]; omega

@[simp] theorem zField_wordOf {op a b : Nat} (ho : op < 2 ^ 8) (ha : a < 2 ^ 8) (hb : b < 2 ^ 6) :
    zField (wordOf op a b) = 0 := by
  rw [zField_eq, wordOf_toNat ho ha hb]; omega

/-- A word whose `Z` field is 0 is its other three fields put together. -/
theorem wordOf_fields {w : Word} (h : zField w = 0) : wordOf (opField w) (aField w) (bField w) = w := by
  apply BitVec.eq_of_toNat_eq
  have hw := w.isLt
  rw [wordOf_toNat (opField_lt w) (aField_lt w) (bField_lt w), opField_eq, aField_eq, bField_eq]
  rw [zField_eq] at h; omega

theorem flagSize_eq_short {n : Nat} : flagSize n = .short ↔ n % 2 = 0 := by
  unfold flagSize; split <;> simp_all

theorem flagSize_eq_long {n : Nat} : flagSize n = .long ↔ n % 2 = 1 := by
  unfold flagSize; split <;> simp_all

/-- The command that a word decodes to needs `Z` = 0. -/
theorem zField_of_decode {w : Word} {i : Instr} (h : decode w = .command i) : zField w = 0 := by
  by_contra hz
  rw [decode, if_neg hz] at h
  cases h

end Sys2Proof
end

