-- ==== Sys2Proof/Laws/Memory.lean ====
section
/-! SUPPORT. Every memory operation keeps the canonical form, and reads after writes (R67, R69). -/

namespace Sys2Proof.Machine

variable {α : Type}

@[simp] theorem Memory.get_nil (a : Nat) : Memory.get ([] : Memory α) a = none := rfl

@[simp] theorem Memory.get_cons (k : Nat) (v : α) (m : Memory α) (a : Nat) :
    Memory.get ((k, v) :: m) a = if k = a then some v else Memory.get m a := rfl

theorem Memory.get_append (m m' : Memory α) (a : Nat) :
    Memory.get (m ++ m') a = (Memory.get m a).or (Memory.get m' a) := by
  induction m with
  | nil => simp
  | cons c m ih => obtain ⟨k, v⟩ := c; by_cases h : k = a <;> simp [h, ih]

theorem Memory.get_filter (m : Memory α) (p : Nat → Bool) (a : Nat) :
    Memory.get (m.filter fun c => p c.1) a = if p a then Memory.get m a else none := by
  induction m with
  | nil => simp
  | cons c m ih =>
    obtain ⟨k, v⟩ := c
    by_cases hk : k = a
    · subst hk; cases hp : p k <;> simp [hp, ih]
    · cases hp : p k <;> simp [hp, hk, ih]

theorem get_cellsFrom (vs : List α) (base a : Nat) :
    Memory.get (cellsFrom base vs) a = if base ≤ a then vs[a - base]? else none := by
  induction vs generalizing base with
  | nil => simp [cellsFrom]
  | cons v vs ih =>
    rw [cellsFrom, Memory.get_cons, ih]
    rcases Nat.lt_trichotomy a base with h | rfl | h
    · rw [if_neg (by omega), if_neg (by omega), if_neg (by omega)]
    · simp
    · obtain ⟨d, rfl⟩ : ∃ d, a = base + 1 + d := ⟨a - (base + 1), by omega⟩
      rw [if_neg (by omega), if_pos (by omega), if_pos (by omega)]
      have e1 : base + 1 + d - (base + 1) = d := by omega
      have e2 : base + 1 + d - base = d + 1 := by omega
      rw [e1, e2]; simp

/-- A read after a write of consecutive elements: the element written inside the range, the old one outside it. -/
theorem Memory.get_setRange (m : Memory α) (base : Nat) (vs : List α) (a : Nat) :
    (m.setRange base vs).get a =
      if base ≤ a ∧ a < base + vs.length then vs[a - base]? else m.get a := by
  have h1 := Memory.get_filter m (fun k => decide (k < base)) a
  have h2 := Memory.get_filter m (fun k => decide (base + vs.length ≤ k)) a
  rw [Memory.setRange, Memory.get_append, Memory.get_append, get_cellsFrom, h1, h2]
  by_cases hb : base ≤ a
  · by_cases hl : a < base + vs.length
    · have : ∃ v, vs[a - base]? = some v := ⟨_, List.getElem?_eq_getElem (by omega)⟩
      obtain ⟨v, hv⟩ := this
      simp [hb, hl, hv, Nat.not_lt.mpr hb]
    · have : vs[a - base]? = none := List.getElem?_eq_none (by omega)
      simp [hb, hl, this, Nat.not_lt.mpr hb, Nat.not_lt.mp hl]
  · have : ¬ base + vs.length ≤ a := by omega
    simp [hb, this, Nat.not_le.mp hb]

theorem Memory.get_setRange_inside (m : Memory α) {base i : Nat} {vs : List α} (h : i < vs.length) :
    (m.setRange base vs).get (base + i) = some vs[i] := by
  rw [Memory.get_setRange, if_pos (by omega), Nat.add_sub_cancel_left, List.getElem?_eq_getElem h]

theorem Memory.get_setRange_outside (m : Memory α) {base a : Nat} {vs : List α}
    (h : a < base ∨ base + vs.length ≤ a) : (m.setRange base vs).get a = m.get a := by
  rw [Memory.get_setRange, if_neg (by omega)]

theorem Memory.get_set (m : Memory α) (a b : Nat) (v : α) :
    (m.set a v).get b = if a = b then some v else m.get b := by
  rw [Memory.set, Memory.get_setRange]
  by_cases h : a = b
  · subst h; simp
  · rw [if_neg (by simp; omega), if_neg h]

@[simp] theorem Memory.get_set_same (m : Memory α) (a : Nat) (v : α) : (m.set a v).get a = some v := by
  rw [Memory.get_set, if_pos rfl]

theorem Memory.get_set_other (m : Memory α) {a b : Nat} (v : α) (h : a ≠ b) : (m.set a v).get b = m.get b := by
  rw [Memory.get_set, if_neg h]

/-- The canonical form says that the indices rise along the list. -/
theorem Memory.wf_iff_pairwise (m : Memory α) : m.wf = true ↔ m.Pairwise fun c d => c.1 < d.1 := by
  induction m with
  | nil => simp [Memory.wf]
  | cons c m ih =>
    obtain ⟨k, v⟩ := c
    cases m with
    | nil => simp [Memory.wf]
    | cons d m =>
      obtain ⟨k', v'⟩ := d
      rw [Memory.wf, Bool.and_eq_true, ih, decide_eq_true_iff, List.pairwise_cons (a := (k, v))]
      constructor
      · rintro ⟨hk, hp⟩
        refine ⟨fun e he => ?_, hp⟩
        rcases List.mem_cons.mp he with rfl | he
        · exact hk
        · exact hk.trans ((List.pairwise_cons.mp hp).1 e he)
      · rintro ⟨ha, hp⟩
        exact ⟨ha (k', v') (by simp), hp⟩

theorem mem_cellsFrom {c : Nat × α} {base : Nat} {vs : List α} (h : c ∈ cellsFrom base vs) :
    base ≤ c.1 ∧ c.1 < base + vs.length := by
  induction vs generalizing base with
  | nil => simp [cellsFrom] at h
  | cons v vs ih =>
    rcases List.mem_cons.mp h with rfl | h
    · simp
    · have := ih h; simp; omega

theorem cellsFrom_pairwise (vs : List α) (base : Nat) : (cellsFrom base vs).Pairwise fun c d => c.1 < d.1 := by
  induction vs generalizing base with
  | nil => simp [cellsFrom]
  | cons v vs ih =>
    rw [cellsFrom, List.pairwise_cons]
    exact ⟨fun d hd => by have := mem_cellsFrom hd; simp; omega, ih _⟩

/-- Writing consecutive elements keeps the canonical form. -/
theorem Memory.wf_setRange {m : Memory α} (h : m.wf = true) (base : Nat) (vs : List α) :
    (m.setRange base vs).wf = true := by
  rw [Memory.wf_iff_pairwise] at h ⊢
  rw [Memory.setRange, List.pairwise_append, List.pairwise_append]
  refine ⟨⟨h.filter _, cellsFrom_pairwise vs base, fun c hc d hd => ?_⟩, h.filter _, fun c hc d hd => ?_⟩
  · have h1 := (List.mem_filter.mp hc).2
    have h2 := mem_cellsFrom hd
    simp at h1; omega
  · have h2 := (List.mem_filter.mp hd).2
    simp only [decide_eq_true_eq] at h2
    rcases List.mem_append.mp hc with hc | hc
    · have h1 := (List.mem_filter.mp hc).2
      simp at h1; omega
    · have h1 := mem_cellsFrom hc; omega

/-- Writing one element keeps the canonical form. -/
theorem Memory.wf_set {m : Memory α} (h : m.wf = true) (a : Nat) (v : α) : (m.set a v).wf = true :=
  Memory.wf_setRange h a [v]

/-- Writing rows keeps the canonical form. -/
theorem wf_writeRows {m : Memory Word} (h : m.wf = true) (n : Nat) (row : Nat → List Word) :
    (writeRows m n row).wf = true := by
  rw [writeRows]
  induction n with
  | zero => simpa using h
  | succ n ih => rw [List.range_succ, List.foldl_append]; exact Memory.wf_setRange ih _ _

/-- The cells of a memory after a write: the old ones and those of the range. -/
theorem Memory.mem_setRange {c : Nat × α} {m : Memory α} {base : Nat} {vs : List α} (h : c ∈ m.setRange base vs) :
    c ∈ m ∨ (base ≤ c.1 ∧ c.1 < base + vs.length) := by
  rw [Memory.setRange] at h
  rcases List.mem_append.mp h with h | h
  · rcases List.mem_append.mp h with h | h
    · exact .inl (List.mem_filter.mp h).1
    · exact .inr (mem_cellsFrom h)
  · exact .inl (List.mem_filter.mp h).1

@[simp] theorem writeRows_zero (m : Memory Word) (row : Nat → List Word) : writeRows m 0 row = m := rfl

theorem writeRows_succ (m : Memory Word) (n : Nat) (row : Nat → List Word) :
    writeRows m (n + 1) row = (writeRows m n row).setRange (cellKey n 0) (row n) := by
  rw [writeRows, writeRows, List.range_succ, List.foldl_append]; rfl

/-- Two keys of rows no longer than 2^15 are equal only for the same channel and index. -/
theorem cellKey_inj {c k c' k' : Nat} (hk : k < 2 ^ 15) (hk' : k' < 2 ^ 15) :
    cellKey c k = cellKey c' k' ↔ c = c' ∧ k = k' := by
  simp only [cellKey]; omega

theorem cellKey_add (c k : Nat) : cellKey c k = cellKey c 0 + k := by simp [cellKey]

/-- A read of row c after rows of at most 2^15 words were written for the channels below n. -/
theorem get_writeRows (m : Memory Word) (n : Nat) (row : Nat → List Word)
    (hrow : ∀ c < n, (row c).length ≤ 2 ^ 15) (c k : Nat) (hk : k < 2 ^ 15) :
    (writeRows m n row).get (cellKey c k) =
      if c < n ∧ k < (row c).length then (row c)[k]? else m.get (cellKey c k) := by
  induction n with
  | zero => simp
  | succ n ih =>
    have hn := hrow n (by omega)
    rw [writeRows_succ, Memory.get_setRange, ih fun c hc => hrow c (by omega)]
    by_cases hc : c = n
    · subst hc
      have e : cellKey c k - cellKey c 0 = k := by rw [cellKey_add]; omega
      by_cases hkl : k < (row c).length
      · rw [if_pos (by rw [cellKey_add c k]; omega), if_pos (by omega), e]
      · rw [if_neg (by rw [cellKey_add c k]; omega), if_neg (by omega), if_neg (by omega)]
    · rw [if_neg (by simp only [cellKey]; omega)]
      by_cases h2 : c < n ∧ k < (row c).length
      · rw [if_pos h2, if_pos (by omega)]
      · rw [if_neg h2, if_neg (by omega)]

end Sys2Proof.Machine
end

