-- ==== Sys2Proof/Laws/Ola.lean ====
section
/-! SUPPORT. What the overlap-add operations do: the sizes, and the two memories after an `OLA`. -/

namespace Sys2Proof.Machine

variable (s : State)

theorem State.blockLog2_lt (f : BlockSize) : s.blockLog2 f < 16 := by
  cases f
  · exact (s.blkcfg.extractLsb' 0 4).isLt
  · exact (s.blkcfg.extractLsb' 4 4).isLt

theorem State.blockSize_le (f : BlockSize) : s.blockSize f ≤ 2 ^ 15 :=
  Nat.pow_le_pow_right (by decide) (Nat.le_of_lt_succ (s.blockLog2_lt f))

theorem State.prevSize_of_tail (h : s.olaState.ovlValid = true) (N : Nat) :
    s.prevSize N = 2 ^ s.olaState.prevLog2.toNat := by simp [State.prevSize, h]

theorem State.prevSize_of_no_tail (h : s.olaState.ovlValid = false) (N : Nat) : s.prevSize N = N := by
  simp [State.prevSize, h]

theorem State.olaLen_of_tail (h : s.olaState.ovlValid = true) (N : Nat) :
    s.olaLen N = 2 ^ s.olaState.prevLog2.toNat / 4 + N / 4 := by simp [State.olaLen, State.prevSize, h]

theorem State.olaLen_of_no_tail (h : s.olaState.ovlValid = false) (N : Nat) : s.olaLen N = 0 := by
  simp [State.olaLen, h]

theorem State.olaLen_le {N : Nat} (hN : N ≤ 2 ^ 15) : s.olaLen N ≤ 2 ^ 14 := by
  unfold State.olaLen State.prevSize
  split
  · have : 2 ^ s.olaState.prevLog2.toNat ≤ 2 ^ 15 :=
      Nat.pow_le_pow_right (by decide) (Nat.le_of_lt_succ s.olaState.prevLog2.isLt)
    omega
  · omega

@[simp] theorem State.outRow_length (N Q c : Nat) : (s.outRow N Q c).length = s.olaLen N := by
  simp [State.outRow]

@[simp] theorem State.tailRow_length (N Q c : Nat) : (s.tailRow N Q c).length = N / 2 := by
  simp [State.tailRow]

/-- A read of the tail memory after an `OLA` (R231). -/
theorem State.get_ovlAfter {N : Nat} (hN : N ≤ 2 ^ 15) (Q c k : Nat) (hk : k < 2 ^ 15) :
    (s.ovlAfter N Q).get (cellKey c k) =
      if c < s.channels ∧ k < N / 2 then some (s.windowedAt N (s.prevSize N) Q c (N / 2 + k))
      else s.ovl.get (cellKey c k) := by
  rw [State.ovlAfter, get_writeRows _ _ _ (fun c _ => by rw [State.tailRow_length]; omega) c k hk,
    State.tailRow_length]
  split
  · next h => simp [State.tailRow, h.2]
  · rfl

/-- A read of the output memory after an `OLA` (R225, R232, R233). -/
theorem State.get_outAfter {N : Nat} (hN : N ≤ 2 ^ 15) (Q c k : Nat) (hk : k < 2 ^ 15) :
    (s.outAfter N Q).get (cellKey c k) =
      if c < s.channels ∧ k < s.olaLen N then some (s.mixAt N (s.prevSize N) Q c k)
      else s.out.get (cellKey c k) := by
  have hl := s.olaLen_le hN
  rw [State.outAfter]
  split
  · rw [get_writeRows _ _ _ (fun c _ => by rw [State.outRow_length]; omega) c k hk, State.outRow_length]
    split
    · next h => simp [State.outRow, h.2]
    · rfl
  · next h => rw [s.olaLen_of_no_tail (by simpa using h)]; simp

end Sys2Proof.Machine
end

