-- ==== Sys2Proof/Laws/PerInstr.lean ====
section
/-! SUPPORT. One statement about every command as syntax: the fields of its encoded word (R90, R91, R93). -/

namespace Sys2Proof.Laws.EncodeFields

open Sys2Proof

/-- `OP` of a command (R93). -/
def opcode : Instr → Nat
  | .nop => 0x00
  | .reset => 0x01
  | .commit => 0x02
  | .pktStart => 0x10
  | .brRead _ => 0x11
  | .brRead1 => 0x12
  | .cbBuild _ => 0x20
  | .cbDecode _ => 0x21
  | .cbDecodeVq _ => 0x22
  | .imdct _ _ => 0x30
  | .ola _ _ => 0x40
  | .olaReset => 0x41

/-- The word of a well-formed command has the command's opcode in `OP` and 0 in `Z`. -/
def Statement (i : Instr) : Prop := i.wf = true → opField (encode i) = opcode i ∧ zField (encode i) = 0

theorem nop : Statement .nop := by unfold Statement; decide

theorem reset : Statement .reset := by unfold Statement; decide

theorem commit : Statement .commit := by unfold Statement; decide

theorem pktStart : Statement .pktStart := by unfold Statement; decide

theorem brRead (n : Nat) : Statement (.brRead n) := fun h =>
  have hn : n < 2 ^ 6 := by simpa [Instr.wf] using h
  ⟨opField_wordOf (by decide) (by decide) hn, zField_wordOf (by decide) (by decide) hn⟩

theorem brRead1 : Statement .brRead1 := by unfold Statement; decide

theorem cbBuild (b : Nat) : Statement (.cbBuild b) := fun h =>
  have hb : b < 2 ^ 8 := by simpa [Instr.wf] using h
  ⟨opField_wordOf (by decide) hb (by decide), zField_wordOf (by decide) hb (by decide)⟩

theorem cbDecode (b : Nat) : Statement (.cbDecode b) := fun h =>
  have hb : b < 2 ^ 8 := by simpa [Instr.wf] using h
  ⟨opField_wordOf (by decide) hb (by decide), zField_wordOf (by decide) hb (by decide)⟩

theorem cbDecodeVq (b : Nat) : Statement (.cbDecodeVq b) := fun h =>
  have hb : b < 2 ^ 8 := by simpa [Instr.wf] using h
  ⟨opField_wordOf (by decide) hb (by decide), zField_wordOf (by decide) hb (by decide)⟩

theorem imdct (c : Nat) (f : BlockSize) : Statement (.imdct c f) := fun h =>
  have hc : c < 2 ^ 8 := by simpa [Instr.wf] using h
  have hf : sizeBit f < 2 ^ 6 := by cases f <;> decide
  ⟨opField_wordOf (by decide) hc hf, zField_wordOf (by decide) hc hf⟩

theorem ola (f nf : BlockSize) : Statement (.ola f nf) := by
  cases f <;> cases nf <;> unfold Statement <;> decide

theorem olaReset : Statement .olaReset := by unfold Statement; decide

end Sys2Proof.Laws.EncodeFields
end

