-- ==== Sys2Proof/Machine/Sequence.lean ====
section
/-! DEFINITION. The host's side of the pseudo-commands (R98): the access sequences that `READ_BIT`, `LOAD_PACKET` and
`LOAD_BOOK` stand for. -/

namespace Sys2Proof.Machine

open Sys2Proof.Config

/-- The host access that issues a command (R97). -/
def issue (i : Instr) : Access := .write (.reg 0) (encode i)

/-- `READ_BIT` (R98). -/
def readBit : List Access := [issue .brRead1]

/-- Writes of consecutive elements, from index `a` on. -/
def writesFrom (at' : Nat → Loc) : Nat → List Word → List Access
  | _, [] => []
  | a, v :: vs => .write (at' a) v :: writesFrom at' (a + 1) vs

/-- `LOAD_PACKET <bytes>` (R98). -/
def loadPacket (bytes : List Byte) : List Access :=
  writesFrom .pkt 0 (bytes.map fun b => b.setWidth 32) ++
    [.write (.reg 3) (BitVec.ofNat 32 bytes.length), issue .pktStart]

/-- `LOAD_BOOK <b>, <lengths>[, <D>, <values>]` (R98). -/
def loadBook (b : Nat) (lengths : List Word) (table : Option (Nat × List Word)) : List Access :=
  let sizes (d : Nat) : List Access :=
    [.write (.reg 8) (BitVec.ofNat 32 lengths.length), .write (.reg 9) (BitVec.ofNat 32 d)]
  writesFrom .lenstg 0 lengths ++
    (match table with
     | none => sizes 0 ++ [.write (.reg 10) 0]
     | some (d, values) => sizes d ++ [.write (.reg 10) 1] ++ writesFrom .vqstg 0 values) ++
    [issue (.cbBuild b)]

end Sys2Proof.Machine
end

