-- ==== Sys2Proof/Tests/Slice0.lean ====
section
/-! SUPPORT. Tests: ill-formed commands, words written out from the opcode map, single steps with the results the spec's
vectors print (95_test_vectors.md), and for each obligation a state and operands that meet its hypotheses together. -/

namespace Sys2Proof.Tests

open Sys2Proof Sys2Proof.Machine Sys2Proof.Config

/-! ## Helpers -/

/-- A value read off the next state of an outcome, if there is one. -/
def seen {α : Type} (o : Host.Outcome State Fault Refusal) (f : State → α) : Option α :=
  match o with
  | .next t => some (f t)
  | .fault _ => none
  | .refused _ => none

/-- A memory that holds the values from index 0 on. -/
def mem {α : Type} (vs : List α) : Memory α := cellsFrom 0 vs

/-- A packet of these bytes with the cursor at `p`. -/
def packet (bytes : List Byte) (p : Word) (s : State) : State :=
  { s with pkt := mem bytes, plen := BitVec.ofNat 32 bytes.length, bitpos := p }

/-- Block sizes 64 and 256, one channel, phase `RUN` (V12). -/
def running : State := { State.reset with status := ⟨.ok, .run⟩, blkcfg := 0x86, nch := 1 }

/-- A configuration whose smallest block size is 4. -/
def smallBlocks : Params := { Params.reference with bsMinLog2 := 2 }

/-- Block sizes 4 and 8, one channel, phase `RUN`. -/
def tiny : State := { State.powerOn smallBlocks with status := ⟨.ok, .run⟩, blkcfg := 0x32, nch := 1 }

/-- The staged codebook of V6. -/
def staged6 : State :=
  { State.reset with cbEntries := 8, lenstg := mem [2, 4, 4, 4, 4, 2, 3, 3] }

/-- The record of V6 (R141's example). -/
def book6 : Book :=
  ⟨true, 8, 0, false,
    [⟨2, 0b00, 0⟩, ⟨2, 0b01, 5⟩, ⟨3, 0b100, 6⟩, ⟨3, 0b101, 7⟩, ⟨4, 0b1100, 1⟩, ⟨4, 0b1101, 2⟩, ⟨4, 0b1110, 3⟩,
      ⟨4, 0b1111, 4⟩], 4, []⟩

/-- The record of V8. -/
def book8 : Book := ⟨true, 3, 0, false, [⟨1, 0, 0⟩, ⟨3, 0b100, 2⟩], 3, []⟩

/-- The record of V10. -/
def book10 : Book :=
  ⟨true, 4, 2, true, [⟨1, 0, 0⟩, ⟨2, 0b10, 1⟩, ⟨3, 0b110, 2⟩, ⟨3, 0b111, 3⟩], 3,
    [0x00000000, 0x3F800000, 0xBF800000, 0x3F000000, 0x40000000, 0x40000000, 0xBF000000, 0xBF000000]⟩

/-- The record of an empty codebook (V9). -/
def bookEmpty : Book := ⟨true, 0, 0, false, [], 0, []⟩

/-- Slots 0 to 3: V8's record, V6's, V10's, and none. -/
def decoding : State := { running with books := [book8, book6, book10, Book.unbuilt] }

/-! ## Well-formedness: one ill-formed term for each check -/

theorem test_wf_bit_count : (Instr.brRead 64).wf = false := by decide

theorem test_wf_slot :
    (Instr.cbBuild 256).wf = false ∧ (Instr.cbDecode 256).wf = false ∧ (Instr.cbDecodeVq 256).wf = false := by decide

theorem test_wf_channel : (Instr.imdct 256 .short).wf = false := by decide

/-! ## Decoding: words written out bit by bit from R90 to R93, fields `Z`, `B`, `A`, `OP` from the left -/

theorem test_decode_control :
    decode 0b0000000000_000000_00000000_00000000 = .command .nop ∧
    decode 0b0000000000_000000_00000000_00000001 = .command .reset ∧
    decode 0b0000000000_000000_00000000_00000010 = .command .commit := by decide

theorem test_decode_bit_reader :
    decode 0b0000000000_000000_00000000_00010000 = .command .pktStart ∧
    decode 0b0000000000_100001_00000000_00010001 = .command (.brRead 33) ∧
    decode 0b0000000000_000000_00000000_00010010 = .command .brRead1 := by decide

theorem test_decode_codebook :
    decode 0b0000000000_000000_00001001_00100000 = .command (.cbBuild 9) ∧
    decode 0b0000000000_000000_11001000_00100001 = .command (.cbDecode 200) ∧
    decode 0b0000000000_000000_00000010_00100010 = .command (.cbDecodeVq 2) := by decide

theorem test_decode_imdct :
    decode 0b0000000000_000000_00000001_00110000 = .command (.imdct 1 .short) ∧
    decode 0b0000000000_000001_11111111_00110000 = .command (.imdct 255 .long) := by decide

theorem test_decode_ola :
    decode 0b0000000000_000000_00000000_01000000 = .command (.ola .short .short) ∧
    decode 0b0000000000_000001_00000000_01000000 = .command (.ola .long .short) ∧
    decode 0b0000000000_000010_00000000_01000000 = .command (.ola .short .long) ∧
    decode 0b0000000000_000011_00000000_01000000 = .command (.ola .long .long) ∧
    decode 0b0000000000_000000_00000000_01000001 = .command .olaReset := by decide

/-- The illegal words of V5. -/
theorem test_decode_illegal :
    decode 0x00400011 = .illegal .zNotZero ∧ decode 0x00000112 = .illegal .mustBeZero ∧
    decode 0x000000FF = .illegal .unknownOpcode ∧ decode 0x00020030 = .illegal .mustBeZero ∧
    decode 0x00040040 = .illegal .mustBeZero ∧ decode 0x00010010 = .illegal .mustBeZero ∧
    decode 0x80000000 = .illegal .zNotZero ∧ decode 0x00000003 = .illegal .unknownOpcode := by decide

/-! ## Single steps -/

/-- R185's example: `STATUS` 0x12 becomes 0x10. -/
theorem test_nop :
    seen (exec .nop { running with status := ⟨.invalidCodeword, .run⟩ }) (fun t => t.regAt 1) = some 0x10 := by decide

/-- R182's example. -/
theorem test_reset :
    seen (exec .reset { decoding with olaState := ⟨true, 8⟩ })
      (fun t => (t.regAt 1, t.regAt 13, t.books.map fun bk => bk.ready)) =
        some (0, 0, [false, false, false, false]) := by decide

/-- V13: 0x86 and one channel commit. -/
theorem test_commit :
    seen (exec .commit { State.reset with blkcfg := 0x86, nch := 1 }) (fun t => t.regAt 1) = some 0x10 := by decide

/-- V13: short above long; an exponent of 14; three channels. -/
theorem test_commit_malformed :
    seen (exec .commit { State.reset with blkcfg := 0x68, nch := 1 }) (fun t => t.regAt 1) = some 0x03 ∧
    seen (exec .commit { State.reset with blkcfg := 0xE6, nch := 1 }) (fun t => t.regAt 1) = some 0x03 ∧
    seen (exec .commit { State.reset with blkcfg := 0x86, nch := 3 }) (fun t => t.regAt 1) = some 0x03 := by decide

/-- V5: a packet of `PKTCAP` + 1 bytes. -/
theorem test_pkt_start_too_long :
    seen (exec .pktStart { State.reset with pktLen := 4097, bitpos := 5 }) (fun t => (t.status.err.code, t.plen, t.bitpos)) =
      some (8, 0, 5) := by decide

/-- R121's example. -/
theorem test_pkt_start :
    seen (exec .pktStart { State.reset with pktLen := 3, bitpos := 5 }) (fun t => (t.status.err.code, t.plen, t.bitpos)) =
      some (0, 3, 0) := by decide

/-- V1: a read across a byte boundary. -/
theorem test_br_read :
    seen (exec (.brRead 7) (packet [0xB5, 0x01] 3 State.reset)) (fun t => (t.result, t.bitpos)) = some (54, 10) := by
  decide

/-- V2: a whole word. -/
theorem test_br_read_word :
    seen (exec (.brRead 32) (packet [0x78, 0x56, 0x34, 0x12] 0 State.reset)) (fun t => (t.result, t.bitpos)) =
      some (0x12345678, 32) := by decide

/-- R124's example. -/
theorem test_br_read1 :
    seen (exec .brRead1 (packet [0xB5] 2 State.reset)) (fun t => (t.result, t.bitpos)) = some (1, 3) := by decide

/-- V4: the end of the packet. -/
theorem test_br_read1_end :
    seen (exec .brRead1 (packet [0xB5] 8 State.reset)) (fun t => (t.regAt 1, t.bitpos)) = some (0x01, 8) := by decide

/-- V6. -/
theorem test_cb_build :
    seen (exec (.cbBuild 1) staged6) (fun t => (t.status.err.code, t.books[1]?)) = some (0, some book6) := by decide

/-- V11, the `FIRST_FIT` counterpart of V6: 00, 10, 110, 111, 0100 to 0111 in the table's order. -/
theorem test_cb_build_first_fit :
    seen (exec (.cbBuild 1) { staged6 with cfg := { Params.reference with codeAssign := .firstFit } })
      (fun t => (t.books[1]?).map fun bk => bk.tab.map fun e => (e.sym, e.code)) =
        some (some [(0, 0b00), (5, 0b10), (6, 0b110), (7, 0b111), (1, 0b0100), (2, 0b0101), (3, 0b0110),
          (4, 0b0111)]) := by decide

/-- V7, the fourth symbol. -/
theorem test_cb_decode :
    seen (exec (.cbDecode 1) (packet [0x98, 0xF9, 0x02] 7 decoding)) (fun t => (t.result, t.bitpos)) = some (1, 11) := by
  decide

/-- V8: 1, 1, 0 reaches no leaf, and 1, 0 is cut off by the end of the packet. -/
theorem test_cb_decode_errors :
    seen (exec (.cbDecode 0) (packet [0x03] 0 decoding)) (fun t => (t.status.err.code, t.bitpos)) = some (2, 3) ∧
    seen (exec (.cbDecode 0) (packet [0x40] 6 decoding)) (fun t => (t.status.err.code, t.bitpos)) = some (1, 8) := by
  decide

/-- V10, the first symbol. -/
theorem test_cb_decode_vq :
    seen (exec (.cbDecodeVq 2) (packet [0x0D] 0 decoding))
      (fun t => (t.result, t.vec.get 0, t.vec.get 1, t.vecLen, t.bitpos)) =
        some (1, some 0xBF800000, some 0x3F000000, 2, 2) := by decide

/-- V10: a scalar codebook has no vectors. -/
theorem test_cb_decode_vq_scalar :
    seen (exec (.cbDecodeVq 1) (packet [0x0D] 0 decoding)) (fun t => (t.status.err.code, t.bitpos)) = some (8, 0) := by
  decide

/-- V12: channel 1 of a stream with one channel. -/
theorem test_imdct_channel :
    seen (exec (.imdct 1 .short) running) (fun t => t.status.err.code) = some 8 := by decide

/-- R201: the transform of a frequency vector the host wrote is a success and leaves `RESULT`. -/
theorem test_imdct :
    seen (exec (.imdct 0 .short) { tiny with spec := mem [0, 0], result := 9 }) (fun t => (t.regAt 1, t.result)) =
      some (0x10, 9) := by decide

/-- V14 (a): the reference transform of a single 1.0, at the reference configuration's scale, in the closed form that the
vector prints. -/
theorem test_imdct_reference (n : Nat) :
    imdctRef Params.reference.imdctScale.value 6 (0x3F800000 :: List.replicate 31 0) n =
      Real.cos (Real.pi * (2 * n + 33) / 128) := by
  have one : sampleValue 0x3F800000 = 1 := by
    rw [sampleValue, show units 0x3F800000 = 2 ^ 149 by decide]; norm_num
  have zero : sampleValue 0 = 0 := by rw [sampleValue, show units 0 = 0 by decide]; simp
  rw [imdctRef, imdctSum, Params.reference_scale, Finset.sum_eq_single_of_mem 0 (by simp)]
  · rw [show List.getD (0x3F800000 :: List.replicate 31 (0 : Word)) 0 0 = 0x3F800000 from rfl, one]
    norm_num
    congr 1; ring
  · intro k _ hk
    obtain ⟨j, rfl⟩ := Nat.exists_eq_succ_of_ne_zero hk
    have h : (List.replicate 31 (0 : Word)).getD j 0 = 0 := by
      rw [List.getD_eq_getElem?_getD, List.getElem?_replicate]; split <;> rfl
    rw [List.getD_cons_succ, h, zero, zero_mul]

/-- R228, R230: block 8 after block 4; sample 2 is copied from index 3 of the flat region (d = 1, `LEN` = 3). -/
theorem test_ola_long_after_short :
    seen (exec (.ola .long .long)
      { tiny with time := mem [0, 0, 0, 0x42A00000, 0, 0, 0, 0], ovl := mem [0, 0], olaState := ⟨true, 2⟩ })
        (fun t => (t.outLen, t.result, t.regAt 13, t.out.get 2)) = some (3, 3, 0x31, some 0x42A00000) := by decide

/-- R229, R231: block 4 after block 8; sample 0 is the tail's first word; the next one, of block 8 before a block 4, keeps a
flat word first and a zero last, whatever `TIME` holds there (R227). -/
theorem test_ola_copies :
    seen (exec (.ola .short .short)
      { tiny with time := mem [0, 0, 0, 0], ovl := mem [0x3F000000, 0, 0, 0], olaState := ⟨true, 3⟩ })
        (fun t => (t.outLen, t.out.get 0)) = some (3, some 0x3F000000) ∧
    seen (exec (.ola .long .short) { tiny with time := mem [0, 0, 0, 0, 0xC0000000, 0, 0, 0xFF800000] })
        (fun t => (t.outLen, t.ovl.get 0, t.ovl.get 3)) = some (0, some 0xC0000000, some 0) := by decide

/-- R235's example. -/
theorem test_ola_reset :
    seen (exec .olaReset { running with olaState := ⟨true, 8⟩, outLen := 128 })
      (fun t => (t.regAt 13, t.outLen, t.regAt 1)) = some (0, 0, 0x10) := by decide

/-- V17: a sum of two window words; R221: the sum of 0.0 and -0.0, and of a sample and its negative. -/
theorem test_fadd :
    fadd 0x3F800000 0x38780C0F 0 = 0x3F8001F0 ∧ fadd 0x00000000 0x80000000 0 = 0x00000000 ∧
    fadd 0x80000000 0x80000000 0 = 0x80000000 ∧ fadd 0x3F800000 0xBF800000 0 = 0x00000000 ∧
    fadd 0x7F7FFFFF 0x7F7FFFFF 0 = 0x7F800000 := by decide +kernel

/-- R222: the identity, a zero's sign, and a subnormal product that is not flushed. -/
theorem test_fmul :
    fmul 0xC0490FDB 0x3F800000 0 = 0xC0490FDB ∧ fmul 0x80000000 0x40000000 0 = 0x80000000 ∧
    fmul 0x00800000 0x3F000000 0 = 0x00400000 ∧ fmul 0x40000000 0x7F7FFFFF 0 = 0x7F800000 := by decide +kernel

/-- R98: `LOAD_PACKET B5 01` ends with the packet started. -/
theorem test_load_packet :
    loadPacket [0xB5, 0x01] =
      [.write (.pkt 0) 0xB5, .write (.pkt 1) 0x01, .write (.reg 3) 2, .write (.reg 0) 0x00000010] := by decide

/-- R98: `LOAD_BOOK 2, [1,2], 1, [5,6]` ends with `CB_BUILD 2`. -/
theorem test_load_book :
    loadBook 2 [1, 2] (some (1, [5, 6])) =
      [.write (.lenstg 0) 1, .write (.lenstg 1) 2, .write (.reg 8) 2, .write (.reg 9) 1, .write (.reg 10) 1,
        .write (.vqstg 0) 5, .write (.vqstg 1) 6, .write (.reg 0) 0x00000220] := by decide

/-! ## Witnesses: for each obligation, hypotheses that hold together, at the ends of their ranges -/

/-- One element written at the last index of every space. -/
def filled : State :=
  { State.reset with
    pkt := [(4095, 0xB5)], lenstg := [(63, 7)], vqstg := [(255, 8)], spec := [(cellKey 1 4095, 1)],
    time := [(cellKey 1 8191, 2)], ovl := [(cellKey 1 4095, 3)], out := [(cellKey 1 4095, 4)], vec := [(7, 5)] }

/-- The last element of every space. -/
def lastLocs : List Loc :=
  [.reg 15, .pkt 4095, .lenstg 63, .vqstg 255, .spec 1 4095, .time 1 8191, .ovl 1 4095, .out 1 4095, .vec 7]

theorem witness_DecodeUndoesEncode :
    (Instr.brRead 63).wf = true ∧ (Instr.cbBuild 255).wf = true ∧ (Instr.imdct 255 .long).wf = true := by decide

theorem witness_EncodeUndoesDecode : decode 0x003F0011 = .command (.brRead 63) := by decide

theorem witness_OpcodeMapDecidesDecoding :
    (∃ r ∈ opcodeMap, (0x003F0011 : Word) &&& r.mask = r.pattern) ∧
    ∀ r ∈ opcodeMap, (0x00400011 : Word) &&& r.mask ≠ r.pattern := by decide

theorem witness_IllegalWordChangesOnlyErr : ∀ r ∈ opcodeMap, (0x00000003 : Word) &&& r.mask ≠ r.pattern := by decide

theorem witness_StepRunsTheDecodedCommand :
    (issueCommand State.reset 0x00210011).pending = .write (.reg 0) 0x00210011 :: [] ∧
    decode 0x00210011 = .command (.brRead 33) ∧
    (issueCommand State.reset 0x00000003).pending = .write (.reg 0) 0x00000003 :: [] ∧
    decode 0x00000003 = .illegal .unknownOpcode := by decide

theorem witness_FetchWordRunsNext : decodeTableWord 32 0x0000C821 = some (.cbDecode 200) := by decide

theorem witness_IdleStepChangesNothing : State.reset.pending = [] := by decide

theorem witness_HostReadReturnsTheElement :
    (∀ l ∈ lastLocs, ({ filled with pending := [.read l] } : State).pending = .read l :: [] ∧
      l.inside filled.cfg = true) ∧
    filled.pkt.get 4095 = some 0xB5 ∧ filled.lenstg.get 63 = some 7 ∧ filled.vqstg.get 255 = some 8 ∧
    filled.spec.get (cellKey 1 4095) = some 1 ∧ filled.time.get (cellKey 1 8191) = some 2 ∧
    filled.ovl.get (cellKey 1 4095) = some 3 ∧ filled.out.get (cellKey 1 4095) = some 4 ∧
    filled.vec.get 7 = some 5 := by decide

theorem witness_HostRegisterWrites :
    (∀ i ∈ List.range' 1 15, ({ State.reset with pending := [.write (.reg i) 0x1FF] } : State).pending =
      .write (.reg i) 0x1FF :: [] ∧ i ≠ 0 ∧ i < 16) ∧
    State.reset.status.phase = .setup ∧ running.status.phase = .run := by decide

theorem witness_HostMemoryWrites :
    ∀ l ∈ lastLocs, ({ filled with pending := [.write l 0x1FF] } : State).pending = .write l 0x1FF :: [] ∧
      l.inside filled.cfg = true := by decide

theorem witness_OutsideAccessIsRefused :
    ∀ l ∈ [Loc.reg 16, .pkt 4096, .lenstg 64, .vqstg 256, .spec 2 0, .time 0 8192, .ovl 0 4096, .out 2 0, .vec 8],
      l.inside State.reset.cfg = false ∧
      ({ State.reset with pending := [.read l] } : State).pending = .read l :: [] ∧
      ({ State.reset with pending := [.write l 0] } : State).pending = .write l 0 :: [] := by decide

/-- `RUN`; each reason to reject, at the first value past its limit; and the legal limits, 2^6, 2^13 and two channels. -/
theorem witness_CommitChecksTheConfiguration :
    running.status.phase = .run ∧ State.reset.status.phase = .setup ∧
    (0xD5 : Word).toNat % 2 ^ 4 < State.reset.cfg.bsMinLog2 ∧
    State.reset.cfg.bsMaxLog2 < (0xE6 : Word).toNat / 2 ^ 4 % 2 ^ 4 ∧
    (0x67 : Word).toNat / 2 ^ 4 % 2 ^ 4 < (0x67 : Word).toNat % 2 ^ 4 ∧
    State.reset.cfg.nchmax < (3 : Word).toNat % 2 ^ 8 ∧
    State.reset.cfg.bsMinLog2 ≤ (0xD6 : Word).toNat % 2 ^ 4 ∧
    (0xD6 : Word).toNat / 2 ^ 4 % 2 ^ 4 ≤ State.reset.cfg.bsMaxLog2 ∧
    (0xD6 : Word).toNat % 2 ^ 4 ≤ (0xD6 : Word).toNat / 2 ^ 4 % 2 ^ 4 ∧
    (2 : Word).toNat % 2 ^ 8 ≠ 0 ∧ (2 : Word).toNat % 2 ^ 8 ≤ State.reset.cfg.nchmax := by decide

theorem witness_PhaseTableDecidesIncompleteHeader :
    allowedIn (.cbBuild 0) running.status.phase = false ∧ allowedIn .olaReset State.reset.status.phase = false ∧
    allowedIn (.cbBuild 0) State.reset.status.phase = true ∧ allowedIn .olaReset running.status.phase = true := by decide

theorem witness_OnlyCommitAndResetChangeThePhase :
    seen (exec .commit { State.reset with blkcfg := 0x86, nch := 1 }) (fun t => t.status.phase) ≠
      some State.reset.status.phase ∧
    seen (exec .reset running) (fun t => t.status.phase) = some .setup ∧ running.status.phase = .run := by decide

theorem witness_RunFreezesConfigurationAndBooks :
    decoding.status.phase = .run ∧
    seen (step { decoding with pending := [.write (.reg 6) 0x77] }) (fun t => t.status.phase) = some .run := by decide

theorem witness_PowerOnMeetsInvariant : Params.reference.wf = true ∧ smallBlocks.wf = true := by decide

/-- A state in `RUN` with three codebooks, a packet, a tail and written memories. -/
def busy : State :=
  { packet [0x98, 0xF9, 0x02] 7 decoding with
    olaState := ⟨true, 8⟩, outLen := 128, vecLen := 2, vec := mem [1, 2],
    spec := [(cellKey 0 0, 1), (cellKey 1 4095, 2)], time := [(cellKey 1 8191, 3)], ovl := [(cellKey 0 127, 4)],
    out := [(cellKey 0 127, 5)], lenstg := [(63, 6)], vqstg := [(255, 7)] }

theorem bookInv_of_book8 : BookInv Params.reference book8 where
  ent := by decide
  vq := by decide
  scalar := by decide
  entries := by decide
  order := by unfold TableOrder; decide
  lmax := ⟨by decide, by decide, fun _ => ⟨⟨3, 0b100, 2⟩, by decide, rfl⟩⟩

theorem bookInv_of_book6 : BookInv Params.reference book6 where
  ent := by decide
  vq := by decide
  scalar := by decide
  entries := by decide
  order := by unfold TableOrder; decide
  lmax := ⟨by decide, by decide, fun _ => ⟨⟨4, 0b1100, 1⟩, by decide, rfl⟩⟩

theorem bookInv_of_book10 : BookInv Params.reference book10 where
  ent := by decide
  vq := by decide
  scalar := by decide
  entries := by decide
  order := by unfold TableOrder; decide
  lmax := ⟨by decide, by decide, fun _ => ⟨⟨3, 0b110, 2⟩, by decide, rfl⟩⟩

theorem prefixCode_of_books : PrefixCode book8.tab ∧ PrefixCode book6.tab ∧ PrefixCode book10.tab := by
  unfold PrefixCode CodePrefix; decide

theorem busy_inv : busy.Inv where
  cfg := by decide
  err := by decide
  plen := by decide
  bitpos := by decide
  blkcfg := by decide
  nch := by decide
  runConfig := by decide
  setupIdle := by decide
  tail := by decide
  vecLen := by decide
  outLen := by decide
  slots := by decide
  books := by
    intro bk h hr
    simp only [busy, packet, decoding, List.mem_cons, List.not_mem_nil, or_false] at h
    rcases h with rfl | rfl | rfl | rfl
    · exact bookInv_of_book8
    · exact bookInv_of_book6
    · exact bookInv_of_book10
    · exact absurd hr (by decide)
  memWf := by decide
  memInside := by
    unfold keysInside rowsInside
    refine ⟨by decide, by decide, by decide, ?_, ?_, ?_, ?_, by decide⟩
    · intro c h
      simp only [busy, List.mem_cons, List.not_mem_nil, or_false] at h
      rcases h with rfl | rfl
      · exact ⟨0, 0, by decide, by decide, rfl⟩
      · exact ⟨1, 4095, by decide, by decide, rfl⟩
    · intro c h
      simp only [busy, List.mem_cons, List.not_mem_nil, or_false] at h
      subst h; exact ⟨1, 8191, by decide, by decide, rfl⟩
    · intro c h
      simp only [busy, List.mem_cons, List.not_mem_nil, or_false] at h
      subst h; exact ⟨0, 127, by decide, by decide, rfl⟩
    · intro c h
      simp only [busy, List.mem_cons, List.not_mem_nil, or_false] at h
      subst h; exact ⟨0, 127, by decide, by decide, rfl⟩

theorem busy_prefixInv : busy.PrefixInv := by
  intro bk h hr
  simp only [busy, packet, decoding, List.mem_cons, List.not_mem_nil, or_false] at h
  obtain ⟨h8, h6, h10⟩ := prefixCode_of_books
  rcases h with rfl | rfl | rfl | rfl
  · exact h8
  · exact h6
  · exact h10
  · exact absurd hr (by decide)

theorem witness_StepKeepsInvariant : busy.Inv ∧ ∃ t, step busy = .next t := ⟨busy_inv, _, rfl⟩

theorem witness_StepKeepsPrefixCodes : busy.Inv ∧ busy.PrefixInv ∧ ∃ t, step busy = .next t :=
  ⟨busy_inv, busy_prefixInv, _, rfl⟩

/-- An error that changes nothing else, and one that keeps the cursor. -/
theorem witness_ErrorsArePrecise :
    (∃ t, exec (.brRead 33) running = .next t ∧ t.status.err ≠ .ok) ∧
    ∃ t, exec (.cbDecode 0) (packet [0x03] 0 decoding) = .next t ∧ t.status.err ≠ .ok ∧ t.bitpos ≠ 0 :=
  ⟨⟨_, rfl, by decide⟩, _, rfl, by decide, by decide⟩

theorem witness_UnitsDoNotTouchEachOther :
    (∃ t, exec (.cbDecode 1) busy = .next t) ∧ (∃ t, exec .olaReset busy = .next t) ∧ ∃ t, exec .reset busy = .next t :=
  ⟨⟨_, rfl⟩, ⟨_, rfl⟩, _, rfl⟩

/-- The last bit of the last byte. -/
theorem witness_PacketBitIsTheBytesBit : filled.pkt.get ((8 * 4095 + 7) / 8) = some 0xB5 := by decide

theorem witness_PktStartLatchesTheLength :
    ({ State.reset with pktLen := 4096 } : State).pktLen.toNat ≤ State.reset.cfg.pktcap ∧
    State.reset.cfg.pktcap < ({ State.reset with pktLen := 4097 } : State).pktLen.toNat := by decide

/-- n = 33; n = 32 with 31 bits left; n = 32 with 32 bits left, and n = 0 at the end of the packet. -/
theorem witness_BrReadReturnsTheNextBits :
    (63 : Nat) < 64 ∧ (32 : Nat) < 33 ∧
    8 * (packet [1, 2, 3, 4] 1 State.reset).plen.toNat < (packet [1, 2, 3, 4] 1 State.reset).bitpos.toNat + 32 ∧
    (packet [1, 2, 3, 4] 0 State.reset).bitpos.toNat + 32 ≤ 8 * (packet [1, 2, 3, 4] 0 State.reset).plen.toNat ∧
    (packet [1] 8 State.reset).bitpos.toNat + 0 ≤ 8 * (packet [1] 8 State.reset).plen.toNat ∧
    8 * (packet [1, 2, 3, 4] 0 State.reset).plen.toNat < 2 ^ 32 := by decide

theorem witness_BrRead1IsBrReadOfOne :
    8 * (packet [1] 8 State.reset).plen.toNat < (packet [1] 8 State.reset).bitpos.toNat + 1 ∧
    (packet [1] 7 State.reset).bitpos.toNat + 1 ≤ 8 * (packet [1] 7 State.reset).plen.toNat ∧
    8 * (packet [1] 7 State.reset).plen.toNat < 2 ^ 32 := by decide

theorem witness_CursorOnlyAdvances :
    busy.Inv ∧ Instr.cbDecode 1 ≠ .pktStart ∧ Instr.cbDecode 1 ≠ .reset ∧ ∃ t, exec (.cbDecode 1) busy = .next t :=
  ⟨busy_inv, by decide, by decide, _, rfl⟩

/-- Each cause of `MalformedHeader` at the first value past its limit: 65 entries, lookup kind 2, dimensions 0 and 9, 264
values, a length of 33, and lengths 1, 1, 1. -/
theorem witness_CbBuildRejectsBadStaging :
    State.reset.cfg.codeAssign = .sorted ∧ running.status.phase = .run ∧ State.reset.status.phase = .setup ∧
    (({ State.reset with cfg := { Params.reference with codeAssign := .firstFit } } : State).cfg.nbooks ≤ 4) ∧
    3 < State.reset.cfg.nbooks ∧
    ({ State.reset with cbEntries := 65 } : State).StagingMalformed ∧
    ({ State.reset with cbLookup := 2 } : State).StagingMalformed ∧
    ({ State.reset with cbLookup := 1 } : State).StagingMalformed ∧
    ({ State.reset with cbLookup := 1, cbDim := 9 } : State).StagingMalformed ∧
    ({ State.reset with cbLookup := 1, cbDim := 8, cbEntries := 33 } : State).StagingMalformed ∧
    ({ State.reset with cbEntries := 1, lenstg := mem [33] } : State).StagingMalformed ∧
    ({ State.reset with cbEntries := 3, lenstg := mem [1, 1, 1] } : State).StagingMalformed := by
  refine ⟨by decide, by decide, by decide, by decide, by decide, .inl (by decide), .inr (.inl (by decide)),
    .inr (.inr (.inl (by decide))), .inr (.inr (.inr (.inl (by decide)))), .inr (.inr (.inr (.inr (.inl (by decide))))),
    .inr (.inr (.inr (.inr (.inr (.inl ⟨0, by decide⟩))))), .inr (.inr (.inr (.inr (.inr (.inr ?_)))))⟩
  decide

/-- V9's staging of 64 entries of length 6 and dimension 4: 256 values. -/
def stagedVq : State :=
  { State.reset with cbEntries := 64, cbDim := 4, cbLookup := 1, lenstg := mem (List.replicate 64 6) }

/-- No entry at all; and the largest table the parameters allow. -/
theorem staging_wellFormed : ¬ State.reset.StagingMalformed ∧ ¬ stagedVq.StagingMalformed := by
  constructor <;> (unfold State.StagingMalformed; decide +kernel)

theorem witness_CbBuildMakesTheSortedRecord :
    (255 : Nat) < 256 ∧
    (State.reset.cfg.codeAssign = .sorted ∧ State.reset.status.phase = .setup ∧ 3 < State.reset.cfg.nbooks ∧
      ¬ State.reset.StagingMalformed ∧ State.reset.cbLookup.toNat = 0) ∧
    stagedVq.cfg.codeAssign = .sorted ∧ stagedVq.status.phase = .setup ∧ 3 < stagedVq.cfg.nbooks ∧
    ¬ stagedVq.StagingMalformed ∧ stagedVq.cbLookup.toNat = 1 ∧
    255 < stagedVq.cbEntries.toNat * stagedVq.cbDim.toNat :=
  ⟨by decide, ⟨by decide, by decide, by decide, staging_wellFormed.1, by decide⟩, by decide, by decide, by decide,
    staging_wellFormed.2, by decide, by decide⟩

theorem witness_SortedTableIsAPrefixCode :
    (∀ l ∈ [1, 1, 32], l ≤ 32) ∧ 2 ^ 32 < (([1, 1, 32].filter fun l => l != 0).map fun l => 2 ^ (32 - l)).sum ∧
    (∀ l ∈ [1, 2, 3, 0, 3], l ≤ 32) ∧
    (([1, 2, 3, 0, 3].filter fun l => l != 0).map fun l => 2 ^ (32 - l)).sum ≤ 2 ^ 32 := by decide

theorem witness_FirstFitAgreesOnRisingLengths :
    (∀ l ∈ [1, 0, 2, 3, 3], l ≤ 32) ∧ ([1, 0, 2, 3, 3].filter fun l => l != 0).Pairwise (fun l l' => l ≤ l') := by decide

/-- V11's staging, with and without a value table, and the over-subscribed lengths 1, 1, 1. -/
theorem witness_FirstFitBuildsAPrefixCode :
    ∀ s ∈ [({ staged6 with cfg := { Params.reference with codeAssign := .firstFit } } : State)],
      s.cfg.codeAssign = .firstFit ∧ s.status.phase = .setup ∧ 3 < s.cfg.nbooks ∧ ¬ s.StagingMalformed ∧
      s.cbLookup.toNat = 0 ∧ ¬ ({ s with cbLookup := 1, cbDim := 8 } : State).StagingMalformed ∧
      ({ s with cbEntries := 3, lenstg := mem [1, 1, 1] } : State).StagingMalformed := by
  unfold State.StagingMalformed; decide

/-- Two states that agree on the staging and differ elsewhere. -/
theorem witness_CbBuildDependsOnStagingAlone :
    staged6.cfg = (packet [1] 3 staged6).cfg ∧ staged6.status.phase = (packet [1] 3 staged6).status.phase ∧
    staged6.cbEntries = (packet [1] 3 staged6).cbEntries ∧ staged6.cbDim = (packet [1] 3 staged6).cbDim ∧
    staged6.cbLookup = (packet [1] 3 staged6).cbLookup ∧ staged6.lenstg = (packet [1] 3 staged6).lenstg ∧
    staged6.vqstg = (packet [1] 3 staged6).vqstg ∧ staged6.draws = (packet [1] 3 staged6).draws ∧
    staged6.books.length = (packet [1] 3 staged6).books.length ∧ staged6 ≠ packet [1] 3 staged6 ∧
    (∃ t, exec (.cbBuild 1) staged6 = .next t ∧ t.status.err = .ok) ∧
    ∃ t, exec (.cbBuild 1) (packet [1] 3 staged6) = .next t :=
  ⟨rfl, rfl, rfl, rfl, rfl, rfl, rfl, rfl, rfl, by decide, ⟨_, rfl, by decide⟩, _, rfl⟩

/-- V7's last symbol: the code 101 of symbol 7 at bit 15. -/
theorem witness_CbDecodeRoundTrip :
    ∀ s ∈ [packet [0x98, 0xF9, 0x02] 15 decoding],
      s.status.phase = .run ∧ s.Holds 1 book6 ∧ BookInv s.cfg book6 ∧ PrefixCode book6.tab ∧
      (⟨3, 0b101, 7⟩ : CodeEntry) ∈ book6.tab ∧ s.CodeNext ⟨3, 0b101, 7⟩ ∧ 8 * s.plen.toNat < 2 ^ 32 := by
  intro s h
  simp only [List.mem_cons, List.not_mem_nil, or_false] at h
  subst h
  exact ⟨by decide, ⟨by decide, by decide, by decide⟩, bookInv_of_book6, prefixCode_of_books.2.1, by decide,
    by unfold State.CodeNext; decide, by decide⟩

/-- V10's second symbol. -/
theorem witness_CbDecodeVqReturnsTheVector :
    ∀ s ∈ [packet [0x0D] 2 decoding],
      s.status.phase = .run ∧ s.Holds 2 book10 ∧ BookInv s.cfg book10 ∧ PrefixCode book10.tab ∧ book10.hasVq = true ∧
      (⟨3, 0b110, 2⟩ : CodeEntry) ∈ book10.tab ∧ s.CodeNext ⟨3, 0b110, 2⟩ ∧ 8 * s.plen.toNat < 2 ^ 32 := by
  intro s h
  simp only [List.mem_cons, List.not_mem_nil, or_false] at h
  subst h
  exact ⟨by decide, ⟨by decide, by decide, by decide⟩, bookInv_of_book10, prefixCode_of_books.2.2, by decide, by decide,
    by unfold State.CodeNext; decide, by decide⟩

theorem witness_DecodeOperandErrors :
    State.reset.status.phase = .setup ∧ decoding.status.phase = .run ∧ (∀ bk, ¬ decoding.Holds 4 bk) ∧
    (∀ bk, ¬ decoding.Holds 3 bk) ∧ decoding.Holds 1 book6 ∧ book6.hasVq = false := by
  refine ⟨by decide, by decide, fun bk h => absurd h.1 (by decide), fun bk h => ?_,
    ⟨by decide, by decide, by decide⟩, by decide⟩
  obtain ⟨_, h1, h2⟩ := h
  cases Option.some.inj ((show decoding.books[3]? = some Book.unbuilt from rfl).symm.trans h1)
  exact absurd h2 (by decide)

/-- V8: 1, 1, 0 with three bits left exactly; 1, 0 and then the end of the packet.  An empty codebook at the end of an
empty packet (V9). -/
theorem witness_FailedWalkKeepsTheCursor :
    (packet [0x60] 5 decoding).Holds 0 book8 ∧
    (packet [0x60] 5 decoding).bitpos.toNat + book8.lmax ≤ 8 * (packet [0x60] 5 decoding).plen.toNat ∧
    (packet [0x60] 5 decoding).NoCodeWithin book8 book8.lmax ∧
    8 * (packet [0x40] 6 decoding).plen.toNat < (packet [0x40] 6 decoding).bitpos.toNat + book8.lmax ∧
    (packet [0x40] 6 decoding).NoCodeWithin book8
      (8 * (packet [0x40] 6 decoding).plen.toNat - (packet [0x40] 6 decoding).bitpos.toNat) ∧
    (packet [] 0 decoding).bitpos.toNat + bookEmpty.lmax ≤ 8 * (packet [] 0 decoding).plen.toNat ∧
    (packet [] 0 decoding).NoCodeWithin bookEmpty bookEmpty.lmax ∧ BookInv Params.reference book8 := by
  refine ⟨⟨by decide, by decide, by decide⟩, by decide, ?_, by decide, ?_, by decide, ?_, bookInv_of_book8⟩
  · intro l h1 h2
    have : l = 1 ∨ l = 2 ∨ l = 3 := by have : book8.lmax = 3 := rfl; omega
    rcases this with rfl | rfl | rfl <;> decide
  · intro l h1 h2
    have : 8 * (packet [0x40] 6 decoding).plen.toNat - (packet [0x40] 6 decoding).bitpos.toNat = 2 := by decide
    have : l = 1 ∨ l = 2 := by omega
    rcases this with rfl | rfl <;> decide
  · intro l h1 h2
    have : bookEmpty.lmax = 0 := rfl
    omega

theorem witness_CompleteCodeHasNoDeadEnd :
    (busy.Holds 1 book6 ∧ BookInv busy.cfg book6 ∧ PrefixCode book6.tab ∧
      (book6.tab.map fun e => 2 ^ (32 - e.len)).sum = 2 ^ 32 ∧ ∃ t, exec (.cbDecode 1) busy = .next t) ∧
    busy.Holds 2 book10 ∧ BookInv busy.cfg book10 ∧ PrefixCode book10.tab ∧
      (book10.tab.map fun e => 2 ^ (32 - e.len)).sum = 2 ^ 32 ∧ ∃ t, exec (.cbDecodeVq 2) busy = .next t :=
  ⟨⟨⟨by decide, by decide, by decide⟩, bookInv_of_book6, prefixCode_of_books.2.1, by decide, _, rfl⟩,
    ⟨by decide, by decide, by decide⟩, bookInv_of_book10, prefixCode_of_books.2.2, by decide, _, rfl⟩

/-- Two states that agree on the codebooks and the packet and differ elsewhere. -/
theorem witness_DecodeDependsOnBookAndPacketAlone :
    (∀ t ∈ [({ busy with outLen := 0, vec := [], result := 3 } : State)],
      busy.cfg.nbooks = t.cfg.nbooks ∧ busy.status.phase = t.status.phase ∧ busy.books[1]? = t.books[1]? ∧
      busy.books[2]? = t.books[2]? ∧ busy.pkt = t.pkt ∧ busy.plen = t.plen ∧ busy.bitpos = t.bitpos ∧
      busy.draws = t.draws ∧ busy ≠ t ∧
      seen (exec (.cbDecode 1) busy) (fun u => u.status.err) = some .ok ∧
      seen (exec (.cbDecode 1) t) (fun u => u.status.err) = some .ok ∧
      seen (exec (.cbDecodeVq 2) busy) (fun u => (u.status.err, u.vecLen)) = some (.ok, 2) ∧
      seen (exec (.cbDecodeVq 2) t) (fun u => (u.status.err, u.vecLen)) = some (.ok, 2)) ∧
    ∀ bk, busy.Holds 2 bk → BookInv busy.cfg bk := by
  refine ⟨by decide, fun bk h => ?_⟩
  cases Option.some.inj ((show busy.books[2]? = some book10 from rfl).symm.trans h.2.1)
  exact bookInv_of_book10

/-- `SETUP`; channel 1 of one; channel 0. -/
theorem witness_ImdctWritesTheTransform :
    (255 : Nat) < 256 ∧ State.reset.status.phase = .setup ∧ running.status.phase = .run ∧
    running.nch.toNat % 2 ^ 8 ≤ 1 ∧ 0 < running.nch.toNat % 2 ^ 8 := by decide

/-- Channel 0 of a stream with block size 4 and a frequency vector of zeros. -/
def silent : State :=
  { tiny with spec := mem [0x80000000, 0], time := mem [0, 0, 0, 0], ovl := mem [0, 0], olaState := ⟨true, 2⟩ }

theorem silent_spectrum : silent.spectrum 0 (silent.blockLog2 .short) = [0x80000000, 0] := by decide

theorem witness_ImdctIsAccurate :
    silent.status.phase = .run ∧ 0 < silent.channels ∧ 2 ≤ silent.blockLog2 .short ∧
    ImdctInRange silent.cfg.imdctScale.value (silent.spectrum 0 (silent.blockLog2 .short)) := by
  refine ⟨by decide, by decide, by decide, ?_⟩
  rw [silent_spectrum]
  have h1 : sampleValue 0x80000000 = 0 := by rw [sampleValue, show units 0x80000000 = 0 by decide]; simp
  have h2 : sampleValue 0 = 0 := by rw [sampleValue, show units 0 = 0 by decide]; simp
  have h : magnitudeSum [0x80000000, 0] = 0 := by
    rw [magnitudeSum, List.map_cons, List.map_cons, h1, h2]; simp
  refine ⟨fun w hw => ?_, by rw [h]; norm_num⟩
  simp only [List.mem_cons, List.not_mem_nil, or_false] at hw
  rcases hw with rfl | rfl <;> decide

theorem witness_ImdctOfSilenceIsSilent :
    silent.status.phase = .run ∧ 0 < silent.channels ∧ 2 ≤ silent.blockLog2 .short ∧
    ∀ k, k < silent.blockSize .short / 2 → isZero (silent.specAt 0 k) = true := by
  refine ⟨by decide, by decide, by decide, fun k hk => ?_⟩
  have h : silent.blockSize .short = 4 := by decide
  have : k = 0 ∨ k = 1 := by omega
  rcases this with rfl | rfl <;> decide

theorem witness_ReferenceTransformSymmetries : (1 : Nat) ≤ 1 ∧ 0 < 2 ^ 1 / 2 := by decide

theorem witness_WindowTableIsAccurate :
    (2 : Nat) ≤ 2 ∧ (2 : Nat) ≤ 15 ∧ 4 = 2 ^ 2 ∧ 1 < 4 / 2 ∧ 2 ≤ 15 ∧ 15 ≤ 15 ∧ 32768 = 2 ^ 15 ∧
    16383 < 32768 / 2 ∧ 16382 + 1 < 32768 / 2 := by decide

/-- A block of 256 between two of 64: an index at each end of each region. -/
theorem witness_WindowShape :
    ∀ N P Q, N = 256 → P = 64 → Q = 64 →
      let ls := N / 4 - min N P / 4
      let le := N / 4 + min N P / 4
      let rs := 3 * N / 4 - min N Q / 4
      let re := 3 * N / 4 + min N Q / 4
      4 ∣ N ∧ 4 ∣ P ∧ 4 ∣ Q ∧ 47 < ls ∧ ls ≤ 48 ∧ 79 < le ∧ le ≤ 80 ∧ 175 < rs ∧ rs ≤ 176 ∧ 207 < re ∧ re ≤ 208 ∧
        208 < N := by
  rintro N P Q rfl rfl rfl; decide

theorem witness_FirstOlaEmitsNothing :
    tiny.status.phase = .run ∧ tiny.olaState.ovlValid = false ∧ 8 = tiny.blockSize .long ∧
    4 = tiny.blockSize .short := by decide

/-- `SETUP`; block 8 after block 4, both sides of the tail's end; block 4 after block 8, both sides of the copied part. -/
theorem witness_OlaOverlapsAndKeepsTheTail :
    State.reset.status.phase = .setup ∧
    (∀ s ∈ [({ tiny with olaState := ⟨true, 2⟩ } : State)],
      s.status.phase = .run ∧ s.olaState.ovlValid = true ∧ 8 = s.blockSize .long ∧ 4 = 2 ^ s.olaState.prevLog2.toNat ∧
      0 < s.channels ∧ 2 < 4 / 4 + 8 / 4 ∧ 4 ≤ 8 ∧ 1 < 4 / 2 ∧ 4 / 2 ≤ 2) ∧
    ∀ s ∈ [({ tiny with olaState := ⟨true, 3⟩ } : State)],
      s.status.phase = .run ∧ s.olaState.ovlValid = true ∧ 4 = s.blockSize .short ∧ 8 = 2 ^ s.olaState.prevLog2.toNat ∧
      0 < s.channels ∧ 2 < 8 / 4 + 4 / 4 ∧ 4 < 8 ∧ 0 < (8 - 4) / 4 ∧ (8 - 4) / 4 ≤ 1 := by decide

theorem witness_ShortOlaIgnoresNextSize : tiny.bs0Log2 ≤ tiny.bs1Log2 := by decide

theorem witness_OlaOfSilenceIsSilent :
    silent.status.phase = .run ∧
    (∀ c i, c < silent.channels → i < silent.blockSize .short → isZero (silent.timeAt c i) = true) ∧
    silent.olaState.ovlValid = true ∧
    ∀ c j, c < silent.channels → j < 2 ^ silent.olaState.prevLog2.toNat / 2 → isZero (silent.ovlAt c j) = true := by
  have hn : silent.channels = 1 := by decide
  have hb : silent.blockSize .short = 4 := by decide
  have hp : 2 ^ silent.olaState.prevLog2.toNat / 2 = 2 := by decide
  refine ⟨by decide, fun c i hc hi => ?_, by decide, fun c j hc hj => ?_⟩
  · have : c = 0 := by omega
    have : i = 0 ∨ i = 1 ∨ i = 2 ∨ i = 3 := by omega
    subst c; rcases this with rfl | rfl | rfl | rfl <;> decide
  · have : c = 0 := by omega
    have : j = 0 ∨ j = 1 := by omega
    subst c; rcases this with rfl | rfl <;> decide

/-- Two states that agree on channel 0 and differ in channel 1. -/
theorem witness_OlaChannelsAreIndependent :
    ∀ s t : State, s = { silent with nch := 2 } →
      t = { silent with nch := 2, time := mem [0, 0, 0, 0] ++ [(cellKey 1 0, 9)] } →
      0 < s.channels ∧ s.status.phase = .run ∧ t.status.phase = .run ∧ s.cfg.num = t.cfg.num ∧ s.blkcfg = t.blkcfg ∧ s.nch = t.nch ∧
      s.olaState = t.olaState ∧ s.draws = t.draws ∧ (∀ i, i < s.blockSize .short → s.timeAt 0 i = t.timeAt 0 i) ∧
      (∀ j, j < 2 ^ s.olaState.prevLog2.toNat / 2 → s.ovlAt 0 j = t.ovlAt 0 j) ∧ s ≠ t ∧ (∃ s', exec (.ola .short .short) s = .next s') ∧
      ∃ t', exec (.ola .short .short) t = .next t' := by
  rintro s t rfl rfl
  refine ⟨by decide, by decide, by decide, rfl, rfl, rfl, rfl, rfl, fun i hi => ?_, fun j _ => rfl, by decide, ⟨_, rfl⟩, _, rfl⟩
  have hb : ({ silent with nch := 2 } : State).blockSize .short = 4 := by decide
  have : i = 0 ∨ i = 1 ∨ i = 2 ∨ i = 3 := by omega
  rcases this with rfl | rfl | rfl | rfl <;> decide

/-- A sum of zero, a sum that is not, and a sum past the largest sample. -/
theorem witness_FaddIsTheRoundedSum :
    isFinite 0x3F800000 = true ∧ isFinite 0xBF800000 = true ∧ isFinite 0x7F7FFFFF = true ∧
    units 0x3F800000 + units 0xBF800000 = 0 ∧ units 0x3F800000 + units 0x3F800000 ≠ 0 ∧
    isFinite (fadd 0x3F800000 0x3F800000 0) = true ∧ isFinite (fadd 0x7F7FFFFF 0x7F7FFFFF 0) = false ∧
    (2 ^ 25 - 1) * 2 ^ 252 ≤ |units 0x7F7FFFFF + units 0x7F7FFFFF| := by decide +kernel

theorem witness_FmulIsTheRoundedProduct :
    isFinite 0x80000000 = true ∧ isFinite 0x7F7FFFFF = true ∧ isZero 0x80000000 = true ∧
    isFinite (fmul 0x80000000 0x7F7FFFFF 0) = true ∧ isFinite (fmul 0x7F7FFFFF 0x7F7FFFFF 0) = false ∧
    (2 ^ 25 - 1) * 2 ^ 401 ≤ |units 0x7F7FFFFF * units 0x7F7FFFFF| := by decide +kernel

theorem witness_FmulByOneIsIdentity : isNaN 0x80000001 = false ∧ isNaN 0xFF800000 = false := by decide

theorem witness_InfinitiesPropagate :
    isInf 0xFF800000 = true ∧ isNaN 0x00000001 = false ∧ isFinite 0x00000001 = true ∧ isZero 0x00000001 = false ∧
    isNaN 0xFF800000 = false ∧ floatSign 0xFF800000 = floatSign 0xFF800000 := by decide

theorem witness_NanResultsAreDraws :
    isNaN 0xFFC00001 = true ∧ isInf 0x7F800000 = true ∧ isInf 0xFF800000 = true ∧
    floatSign 0x7F800000 ≠ floatSign 0xFF800000 ∧ isZero 0x80000000 = true ∧
    isNaN (fadd 0x7F800000 0x3F800000 0) = false ∧ isNaN (fmul 0x7F800000 0x3F800000 0) = false := by decide

end Sys2Proof.Tests
end

section
/-! SUPPORT. Everything a command and a step can do, said once: the invariants are read off these cases. -/

namespace Sys2Proof.Machine

open Sys2Proof.Config

/-- The two codebook decodes, the only commands whose errors move the cursor (R273). -/
def IsDecode (i : Instr) : Prop := ∃ b, i = .cbDecode b ∨ i = .cbDecodeVq b

/-- `CommandEnd s i t`: the command i, run in s, may end in t.  One constructor per way to end, with the checks that
led there (R99, R181, R273). -/
inductive CommandEnd (s : State) : Instr → State → Prop
  | wrongPhase (i : Instr) (hph : allowedIn i s.status.phase = false) :
      CommandEnd s i (s.raise .incompleteHeader)
  | raised (i : Instr) (e : Err) (hph : allowedIn i s.status.phase = true)
      (he : e = .unexpectedEof ∨ e = .malformedHeader ∨ e = .badOperand) :
      CommandEnd s i (s.raise e)
  | walkFailed (i : Instr) (p : Nat) (e : Err) (hi : IsDecode i) (hph : s.status.phase = .run)
      (he : e = .unexpectedEof ∨ e = .invalidCodeword) (hle : s.bitpos.toNat ≤ p)
      (hend : p ≤ s.packetBits ∨ p = s.bitpos.toNat) :
      CommandEnd s i ((s.seek p).raise e)
  | nop : CommandEnd s .nop s.succeed
  | reset : CommandEnd s .reset { s with
      status := ⟨.ok, .setup⟩, result := 0, pktLen := 0, plen := 0, bitpos := 0, blkcfg := 0, nch := 0,
      cbEntries := 0, cbDim := 0, cbLookup := 0, vecLen := 0, outLen := 0, olaState := ⟨false, 0⟩,
      books := s.books.map fun bk => { bk with ready := false } }
  | committed (hph : s.status.phase = .setup) (hcfg : s.configLegal = true) :
      CommandEnd s .commit { s with status := ⟨.ok, .run⟩ }
  | packetStarted (hcap : s.pktLen.toNat ≤ s.cfg.pktcap) :
      CommandEnd s .pktStart { s with plen := s.pktLen, bitpos := 0 }.succeed
  | bitsRead (i : Instr) (n : Nat) (hi : (i = .brRead n ∧ n ≤ 32) ∨ (i = .brRead1 ∧ n = 1))
      (hend : s.bitpos.toNat + n ≤ s.packetBits) :
      CommandEnd s i { s.seek (s.bitpos.toNat + n) with
        result := BitVec.ofNat 32 (s.bitsValue s.bitpos.toNat n) }.succeed
  | built (b : Nat) (bk : Book) (hph : s.status.phase = .setup) (hb : b < s.cfg.nbooks)
      (hbk : s.buildBook = some bk) :
      CommandEnd s (.cbBuild b) { s with books := s.books.set b bk }.succeed
  | decoded (b : Nat) (bk : Book) (y p : Nat) (hph : s.status.phase = .run) (hb : s.readyBook b = some bk)
      (hw : s.walk bk = .leaf y p) (hle : s.bitpos.toNat ≤ p) (hend : p ≤ s.packetBits) :
      CommandEnd s (.cbDecode b) { s.seek p with result := BitVec.ofNat 32 y }.succeed
  | vectorDecoded (b : Nat) (bk : Book) (y p : Nat) (hph : s.status.phase = .run) (hb : s.readyBook b = some bk)
      (hvq : bk.hasVq = true) (hw : s.walk bk = .leaf y p) (hle : s.bitpos.toNat ≤ p) (hend : p ≤ s.packetBits) :
      CommandEnd s (.cbDecodeVq b) { s.seek p with
        result := BitVec.ofNat 32 y, vecLen := BitVec.ofNat 32 bk.dim,
        vec := s.vec.setRange 0 (bk.vector y) }.succeed
  | transformed (c : Nat) (f : BlockSize) (hph : s.status.phase = .run) (hc : c < s.channels) :
      CommandEnd s (.imdct c f) { s with
        time := s.time.setRange (cellKey c 0)
          (s.cfg.imdct (s.blockLog2 f) (s.spectrum c (s.blockLog2 f))) }.succeed
  | overlapped (f nf : BlockSize) (hph : s.status.phase = .run) :
      CommandEnd s (.ola f nf) { s with
        out := s.outAfter (s.blockSize f) (s.blockSize nf), ovl := s.ovlAfter (s.blockSize f) (s.blockSize nf),
        outLen := BitVec.ofNat 32 (s.olaLen (s.blockSize f)),
        result := BitVec.ofNat 32 (s.olaLen (s.blockSize f)),
        olaState := ⟨true, BitVec.ofNat 4 (s.blockLog2 f)⟩ }.succeed
  | tailForgotten (hph : s.status.phase = .run) :
      CommandEnd s .olaReset { s with olaState := ⟨false, 0⟩, outLen := 0 }.succeed

variable {s t : State}

/-- Where the walk of a record can leave the cursor: on the way from where it stood to the end of the packet (R125). -/
theorem State.walk_cursor (s : State) (bk : Book) :
    (∃ y p, s.walk bk = .leaf y p ∧ s.bitpos.toNat ≤ p ∧ p ≤ s.packetBits) ∨
    (∃ p, (s.walk bk = .packetEnd p ∨ s.walk bk = .noLeaf p) ∧ s.bitpos.toNat ≤ p ∧
      (p ≤ s.packetBits ∨ p = s.bitpos.toNat)) := by
  rcases s.walk_cases bk with ⟨n, y, -, -, hend, hw, -⟩ | ⟨n, -, -, hend, hw, -⟩ | ⟨hend, hw, -⟩
  · exact .inl ⟨y, _, hw, by omega, hend⟩
  · exact .inr ⟨_, .inl hw, by omega, by omega⟩
  · exact .inr ⟨_, .inr hw, by omega, by omega⟩

/-- A command that decodes a symbol ends with the walk's error, or goes on with the symbol. -/
theorem decodeWith_end {i : Instr} (hi : IsDecode i) (hph : s.status.phase = .run) (bk : Book)
    (k : Nat → State → State)
    (hk : ∀ y p, s.walk bk = .leaf y p → s.bitpos.toNat ≤ p → p ≤ s.packetBits → CommandEnd s i (k y (s.seek p))) :
    CommandEnd s i (s.decodeWith bk k) := by
  rcases s.walk_cursor bk with ⟨y, p, hw, hle, hend⟩ | ⟨p, hw | hw, hle, hend⟩ <;> rw [State.decodeWith, hw]
  · exact hk y p hw hle hend
  · exact .walkFailed i p _ hi hph (.inl rfl) hle hend
  · exact .walkFailed i p _ hi hph (.inr rfl) hle hend

/-- A command behind the phase check ends with `IncompleteHeader` or as it does in the phase that allows it. -/
theorem requirePhase_end {i : Instr} {p : Phase} {k : State} (hp : ∀ ph, allowedIn i ph = decide (ph = p))
    (hk : s.status.phase = p → CommandEnd s i k) : CommandEnd s i (s.requirePhase p k) := by
  rcases s.requirePhase_cases p k with ⟨h, hr⟩ | ⟨h, hr⟩ <;> rw [hr]
  · exact hk h
  · exact .wrongPhase i (by simp [hp, h])

/-- A read of n bits ends with `UnexpectedEof`, or with the bits (R123). -/
theorem readResult_end {i : Instr} {n : Nat} (hi : (i = .brRead n ∧ n ≤ 32) ∨ (i = .brRead1 ∧ n = 1)) :
    CommandEnd s i (s.readResult n) := by
  rw [State.readResult]
  by_cases hend : s.bitpos.toNat + n ≤ s.packetBits
  · rw [s.readBits_of_le hend]
    exact .bitsRead i n hi hend
  · rw [s.readBits_eq_none.mpr (by omega)]
    exact .raised i _ (by rcases hi with ⟨rfl, -⟩ | ⟨rfl, -⟩ <;> rfl) (.inl rfl)

/-- Every command ends in one of the ways `CommandEnd` lists. -/
theorem exec_end {i : Instr} (h : exec i s = .next t) : CommandEnd s i t := by
  cases i with
  | nop => cases h; exact .nop
  | reset => cases h; exact .reset
  | commit =>
    cases h
    refine requirePhase_end (fun _ => rfl) fun hph => ?_
    split
    · next hcfg => exact .committed hph hcfg
    · exact .raised _ _ (by simp [allowedIn, hph]) (.inr (.inl rfl))
  | pktStart =>
    cases h
    split
    · exact .raised _ _ rfl (.inr (.inr rfl))
    · next hcap => exact .packetStarted (by omega)
  | brRead n =>
    cases h
    split
    · exact .raised _ _ rfl (.inr (.inr rfl))
    · exact readResult_end (.inl ⟨rfl, by omega⟩)
  | brRead1 => cases h; exact readResult_end (.inr ⟨rfl, rfl⟩)
  | cbBuild b =>
    cases h
    refine requirePhase_end (fun _ => rfl) fun hph => ?_
    have hal : allowedIn (.cbBuild b) s.status.phase = true := by simp [allowedIn, hph]
    split
    · exact .raised _ _ hal (.inr (.inr rfl))
    · cases hbk : s.buildBook with
      | none => exact .raised _ _ hal (.inr (.inl rfl))
      | some bk => exact .built b bk hph (by omega) hbk
  | cbDecode b =>
    cases h
    refine requirePhase_end (fun _ => rfl) fun hph => ?_
    cases hb : s.readyBook b with
    | none => exact .raised _ _ (by simp [allowedIn, hph]) (.inr (.inr rfl))
    | some bk =>
      exact decodeWith_end ⟨b, .inl rfl⟩ hph bk _ fun y p hw hle hend => .decoded b bk y p hph hb hw hle hend
  | cbDecodeVq b =>
    cases h
    refine requirePhase_end (fun _ => rfl) fun hph => ?_
    have hal : allowedIn (.cbDecodeVq b) s.status.phase = true := by simp [allowedIn, hph]
    cases hb : s.readyBook b with
    | none => exact .raised _ _ hal (.inr (.inr rfl))
    | some bk =>
      by_cases hvq : bk.hasVq = true
      · simp only [hvq, if_true]
        exact decodeWith_end ⟨b, .inr rfl⟩ hph bk _ fun y p hw hle hend =>
          .vectorDecoded b bk y p hph hb hvq hw hle hend
      · simp only [hvq]
        exact .raised _ _ hal (.inr (.inr rfl))
  | imdct c f =>
    cases h
    refine requirePhase_end (fun _ => rfl) fun hph => ?_
    split
    · exact .raised _ _ (by simp [allowedIn, hph]) (.inr (.inr rfl))
    · exact .transformed c f hph (by omega)
  | ola f nf => cases h; exact requirePhase_end (fun _ => rfl) fun hph => .overlapped f nf hph
  | olaReset => cases h; exact requirePhase_end (fun _ => rfl) fun hph => .tailForgotten hph

/-- Everything a write to `CMD` can do (R68, R94). -/
theorem runCommand_cases {w : Word} (h : runCommand w s = .next t) :
    t = s.raise .illegalCommand ∨ ∃ i, decode w = .command i ∧ CommandEnd s i t := by
  rw [runCommand] at h
  cases hd : decode w with
  | illegal why => rw [hd] at h; cases h; exact .inl rfl
  | command i => rw [hd] at h; exact .inr ⟨i, rfl, exec_end h⟩

/-- Everything a host access can do: a read, a write inside its space, or a command word (R65 to R68). -/
theorem performAccess_cases {a : Access} (h : performAccess a s = .next t) :
    (∃ l, t = hostRead l s) ∨ (∃ l v, l.inside s.cfg = true ∧ t = hostWrite l v s) ∨
    ∃ w, runCommand w s = .next t := by
  unfold performAccess at h
  split at h
  · next l =>
    split at h <;> cases h
    exact .inl ⟨l, rfl⟩
  · next w => exact .inr (.inr ⟨w, h⟩)
  · next l v _ =>
    split at h <;> cases h
    next hin => exact .inr (.inl ⟨l, v, hin, rfl⟩)

/-- A property that every host access keeps is kept by every step. -/
theorem step_keeps {P : State → Prop} (hs : P s) (hbegin : ∀ (u : State) rest, P u → P (u.beginAccess rest))
    (hread : ∀ (u : State) l, P u → P (hostRead l u))
    (hwrite : ∀ (u : State) l v, P u → l.inside u.cfg = true → P (hostWrite l v u))
    (hillegal : ∀ u : State, P u → P (u.raise .illegalCommand))
    (hcommand : ∀ (u v : State) i, P u → CommandEnd u i v → P v) (h : step s = .next t) : P t := by
  rw [step, nextAccess] at h
  cases hp : s.pending with
  | nil => rw [hp] at h; cases h; exact hs
  | cons a rest =>
    rw [hp] at h
    have hb := hbegin s rest hs
    rcases performAccess_cases h with ⟨l, rfl⟩ | ⟨l, v, hin, rfl⟩ | ⟨w, hw⟩
    · exact hread _ l hb
    · exact hwrite _ l v hb hin
    · rcases runCommand_cases hw with rfl | ⟨i, -, hc⟩
      · exact hillegal _ hb
      · exact hcommand _ _ i hb hc

end Sys2Proof.Machine
end

section
/-! SUPPORT. The code tables of both assignments (R143, U14): their order, their symbols, and that they meet `PrefixCode`.
A code of length l owns a span of the 2^32 bit strings of length 32, and codes with disjoint spans are no prefixes of each
other. -/

namespace Sys2Proof.Machine

open Sys2Proof.Config

/-! ## Spans of the code space -/

/-- The strings of 32 bits that begin with the code c of length l, as numbers. -/
def codeSpan (l c : Nat) : Set Nat := Set.Ico (c * 2 ^ (32 - l)) ((c + 1) * 2 ^ (32 - l))

/-- The span of an entry's code. -/
def CodeEntry.span (e : CodeEntry) : Set Nat := codeSpan e.len e.code

theorem start_mem_codeSpan (l c : Nat) : c * 2 ^ (32 - l) ∈ codeSpan l c :=
  Set.left_mem_Ico.mpr (Nat.mul_lt_mul_of_pos_right c.lt_succ_self (Nat.two_pow_pos _))

/-- The span of a code lies in that of the code it extends: `c * 2^d + o` is the code c and d more bits. -/
theorem codeSpan_extend_subset {l d o : Nat} (c : Nat) (hd : l + d ≤ 32) (ho : o < 2 ^ d) :
    codeSpan (l + d) (c * 2 ^ d + o) ⊆ codeSpan l c := by
  have hp : 2 ^ (32 - l) = 2 ^ d * 2 ^ (32 - (l + d)) := by rw [← Nat.pow_add]; congr 1; omega
  have hlo : c * 2 ^ d ≤ c * 2 ^ d + o := Nat.le_add_right _ _
  have hhi : c * 2 ^ d + o + 1 ≤ (c + 1) * 2 ^ d := by rw [Nat.add_mul]; omega
  rw [codeSpan, codeSpan, hp, ← Nat.mul_assoc, ← Nat.mul_assoc]
  exact Set.Ico_subset_Ico (Nat.mul_le_mul_right _ hlo) (Nat.mul_le_mul_right _ hhi)

/-- Two codes that go on from one code with different bits have disjoint spans. -/
theorem codeSpan_extend_disjoint {l d d' o : Nat} (c : Nat) (h : d ≤ d') (hd : l + d' ≤ 32) (ho : o < 2 ^ (d' - d)) :
    Disjoint (codeSpan (l + d) (c * 2 ^ d + 1)) (codeSpan (l + d') (c * 2 ^ d' + o)) := by
  obtain ⟨k, rfl⟩ : ∃ k, d' = d + k := ⟨d' - d, by omega⟩
  rw [Nat.add_sub_cancel_left] at ho
  have hs := codeSpan_extend_subset (l := l + d) (d := k) (c * 2 ^ d) (by omega) ho
  rw [Nat.mul_assoc, ← Nat.pow_add, Nat.add_assoc l d k] at hs
  refine Disjoint.mono_right hs ?_
  rw [codeSpan, codeSpan, Set.disjoint_left]
  intro x hx hx'
  exact absurd (hx.1.trans_lt hx'.2) (lt_irrefl _)

/-- The span of a code lies in that of its first bits. -/
theorem CodePrefix.span_subset {a b : CodeEntry} (h : CodePrefix a b) (hb : b.len ≤ 32) : b.span ⊆ a.span := by
  obtain ⟨hle, hc⟩ := h
  have hcode : a.code * 2 ^ (b.len - a.len) + b.code % 2 ^ (b.len - a.len) = b.code := by
    rw [← hc, Nat.mul_comm]; exact Nat.div_add_mod _ _
  have := codeSpan_extend_subset (l := a.len) a.code (by omega) (Nat.mod_lt b.code (Nat.two_pow_pos (b.len - a.len)))
  rwa [hcode, Nat.add_sub_cancel' hle] at this

/-- Of two codes with disjoint spans the first does not begin the second. -/
theorem not_codePrefix_of_disjoint {a b : CodeEntry} (h : Disjoint a.span b.span) (hb : b.len ≤ 32) :
    ¬ CodePrefix a b := fun hp =>
  Set.disjoint_left.mp h (hp.span_subset hb (start_mem_codeSpan _ _)) (start_mem_codeSpan _ _)

/-- A table whose codes have pairwise disjoint spans meets `PrefixCode`. -/
theorem prefixCode_of_disjoint {tab : List CodeEntry} (hlen : ∀ e ∈ tab, e.len ≤ 32)
    (h : tab.Pairwise fun a b => Disjoint a.span b.span) : PrefixCode tab :=
  h.imp_of_mem fun ha hb hd => ⟨not_codePrefix_of_disjoint hd (hlen _ hb), not_codePrefix_of_disjoint hd.symm (hlen _ ha)⟩

/-- A code fits its length when its span lies in the code space. -/
theorem code_lt_of_span_subset {e : CodeEntry} (hlen : e.len ≤ 32) (h : e.span ⊆ Set.Ico 0 (2 ^ 32)) :
    e.code < 2 ^ e.len := by
  have hs : e.code * 2 ^ (32 - e.len) < 2 ^ e.len * 2 ^ (32 - e.len) := by
    rw [← Nat.pow_add, Nat.add_sub_cancel' hlen]; exact (h (start_mem_codeSpan _ _)).2
  exact Nat.lt_of_mul_lt_mul_right hs

/-! ## Lists sorted by length -/

/-- A relation holds along a list sorted stably by length when it holds from shorter to longer elements, and along the
list for elements of one length. -/
theorem pairwise_sortByLength {α : Type} {R : α → α → Prop} {xs : List α} (len : α → Nat)
    (hlt : ∀ a ∈ xs, ∀ b ∈ xs, len a < len b → R a b) (heq : xs.Pairwise fun a b => len a = len b → R a b) :
    ((List.range' 1 32).flatMap fun l => xs.filter fun a => len a == l).Pairwise R := by
  rw [List.pairwise_flatMap]
  refine ⟨fun l _ => ?_, (List.pairwise_lt_range' (s := 1) (n := 32)).imp fun {l l'} hl a ha b hb => ?_⟩
  · refine (heq.filter _).imp_of_mem fun ha hb h => h ?_
    rw [List.mem_filter, beq_iff_eq] at ha hb
    rw [ha.2, hb.2]
  · rw [List.mem_filter, beq_iff_eq] at ha hb
    exact hlt a ha.1 b hb.1 (by omega)

theorem mem_sortByLength {α : Type} {xs : List α} {len : α → Nat} {a : α} :
    (a ∈ (List.range' 1 32).flatMap fun l => xs.filter fun a => len a == l) ↔ a ∈ xs ∧ 1 ≤ len a ∧ len a ≤ 32 := by
  simp only [List.mem_flatMap, List.mem_filter, List.mem_range'_1, beq_iff_eq]
  constructor
  · rintro ⟨l, hl, ha, rfl⟩; exact ⟨ha, hl.1, by omega⟩
  · rintro ⟨ha, h1, h2⟩; exact ⟨_, ⟨h1, by omega⟩, ha, rfl⟩

/-- An entry without its code: the used symbol it stands for. -/
def CodeEntry.usedSym (e : CodeEntry) : UsedSym := (e.len, e.sym)

/-- The order of the used symbols in a code table (R143). -/
def UsedOrder (a b : UsedSym) : Prop := a.1 < b.1 ∨ (a.1 = b.1 ∧ a.2 < b.2)

/-- Symbols taken from a list of lengths stand in symbol order. -/
theorem zipIdx_pairwise_snd_lt (lens : List Nat) : lens.zipIdx.Pairwise fun a b => a.2 < b.2 := by
  have h : (lens.zipIdx.map Prod.snd).Pairwise (· < ·) := by
    rw [List.zipIdx_map_snd]; exact List.pairwise_lt_range' 1
  exact List.pairwise_map.mp h

theorem usedSorted_pairwise (lens : List Nat) : (usedSorted lens).Pairwise UsedOrder :=
  pairwise_sortByLength Prod.fst (fun _ _ _ _ h => .inl h)
    ((zipIdx_pairwise_snd_lt lens).imp fun h heq => .inr ⟨heq, h⟩)

/-! ## The normative assignment -/

/-- The spans of the codes follow one another without a gap from p on (R144). -/
def Tiles : Nat → List CodeEntry → Prop
  | _, [] => True
  | p, e :: tab => e.code * 2 ^ (32 - e.len) = p ∧ Tiles (p + 2 ^ (32 - e.len)) tab

/-- How much of the code space the codes of a table take, in units of 2^-32. -/
def tabSum (tab : List CodeEntry) : Nat := (tab.map fun e => 2 ^ (32 - e.len)).sum

theorem CodeEntry.span_eq_of_start {e : CodeEntry} {p : Nat} (h : e.code * 2 ^ (32 - e.len) = p) :
    e.span = Set.Ico p (p + 2 ^ (32 - e.len)) := by
  rw [CodeEntry.span, codeSpan, Nat.add_mul, Nat.one_mul, h]

/-- The spans of tiling codes stay inside what the codes take. -/
theorem Tiles.span_subset {tab : List CodeEntry} {p : Nat} (h : Tiles p tab) :
    ∀ e ∈ tab, e.span ⊆ Set.Ico p (p + tabSum tab) := by
  induction tab generalizing p with
  | nil => simp
  | cons a tab ih =>
    obtain ⟨ha, htab⟩ := h
    have hsum : tabSum (a :: tab) = 2 ^ (32 - a.len) + tabSum tab := rfl
    rw [hsum]
    intro e he
    rcases List.mem_cons.mp he with rfl | he
    · rw [CodeEntry.span_eq_of_start ha]
      exact Set.Ico_subset_Ico_right (by omega)
    · exact (ih htab e he).trans (Set.Ico_subset_Ico (Nat.le_add_right _ _) (Nat.add_assoc _ _ _).le)

/-- The spans of tiling codes are disjoint. -/
theorem Tiles.pairwise_disjoint {tab : List CodeEntry} {p : Nat} (h : Tiles p tab) :
    tab.Pairwise fun a b => Disjoint a.span b.span := by
  induction tab generalizing p with
  | nil => exact .nil
  | cons a tab ih =>
    obtain ⟨ha, htab⟩ := h
    refine List.pairwise_cons.mpr ⟨fun b hb => ?_, ih htab⟩
    rw [CodeEntry.span_eq_of_start ha]
    exact (Set.Ico_disjoint_Ico_same).mono_right (htab.span_subset b hb)

theorem assignAfter_usedSym (used : List UsedSym) (l c : Nat) :
    (assignAfter l c used).map CodeEntry.usedSym = used := by
  induction used generalizing l c with
  | nil => rfl
  | cons u used ih => rw [assignAfter, List.map_cons, ih]; rfl

theorem assignCodes_usedSym (used : List UsedSym) : (assignCodes used).map CodeEntry.usedSym = used := by
  cases used with
  | nil => rfl
  | cons u used => rw [assignCodes, List.map_cons, assignAfter_usedSym]; rfl

/-- Each code stands where the one before it ends (R143). -/
theorem assignAfter_tiles {used : List UsedSym} {l : Nat} (c : Nat) (hl : ∀ u ∈ used, l ≤ u.1 ∧ u.1 ≤ 32)
    (hs : used.Pairwise UsedOrder) : Tiles ((c + 1) * 2 ^ (32 - l)) (assignAfter l c used) := by
  induction used generalizing l c with
  | nil => trivial
  | cons u used ih =>
    obtain ⟨hhead, htail⟩ := List.pairwise_cons.mp hs
    obtain ⟨hlu, hu⟩ := hl u (by simp)
    have hrest : ∀ v ∈ used, u.1 ≤ v.1 ∧ v.1 ≤ 32 := fun v hv =>
      ⟨by rcases hhead v hv with h | ⟨h, -⟩ <;> omega, (hl v (by simp [hv])).2⟩
    have hstart : (c + 1) * 2 ^ (u.1 - l) * 2 ^ (32 - u.1) = (c + 1) * 2 ^ (32 - l) := by
      rw [Nat.mul_assoc, ← Nat.pow_add]; congr 2; omega
    refine ⟨hstart, ?_⟩
    have := ih ((c + 1) * 2 ^ (u.1 - l)) hrest htail
    rwa [Nat.add_mul, Nat.one_mul, hstart] at this

/-- The codes of `assign_codes` fill the code space from 0 on. -/
theorem assignCodes_tiles {used : List UsedSym} (hl : ∀ u ∈ used, u.1 ≤ 32) (hs : used.Pairwise UsedOrder) :
    Tiles 0 (assignCodes used) := by
  cases used with
  | nil => trivial
  | cons u used =>
    obtain ⟨hhead, htail⟩ := List.pairwise_cons.mp hs
    refine ⟨Nat.zero_mul _, ?_⟩
    have := assignAfter_tiles (l := u.1) 0
      (fun v hv => ⟨by rcases hhead v hv with h | ⟨h, -⟩ <;> omega, hl v (by simp [hv])⟩) htail
    simpa using this

/-- What the codes take is the Kraft sum of their symbols (R144). -/
theorem tabSum_eq_kraftSum (tab : List CodeEntry) : tabSum tab = kraftSum (tab.map CodeEntry.usedSym) := by
  rw [tabSum, kraftSum, List.map_map]; rfl

/-! ## The alternative assignment -/

/-- The node r at depth y is free. -/
def Avail.Free (avail : Avail) (y r : Nat) : Prop := avail[y]? = some (some r)

/-- The free nodes are nodes of the tree of 32 bits, and no two of them overlap. -/
structure Avail.Wf (avail : Avail) : Prop where
  depth : ∀ {y r}, avail.Free y r → y ≤ 32
  inside : ∀ {y r}, avail.Free y r → codeSpan y r ⊆ Set.Ico 0 (2 ^ 32)
  apart : ∀ {y r y' r'}, avail.Free y r → avail.Free y' r' → y ≠ y' → Disjoint (codeSpan y r) (codeSpan y' r')

/-- The node that a code is taken from is free and not below the code (U14). -/
theorem Avail.deepest_eq_some {avail : Avail} {l z r : Nat} (h : avail.deepest l = some (z, r)) :
    avail.Free z r ∧ z ≤ l := by
  induction l with
  | zero => cases h
  | succ l ih =>
    rw [Avail.deepest] at h
    split at h
    · next r' hf => cases h; exact ⟨hf, le_rfl⟩
    · exact (ih h).imp_right (by omega)

/-- `avail'` has no free nodes but those of `avail` other than the node r at depth z, and those left over in that node
beside the code of length l that begins it with zeros. -/
def Avail.LeftBeside (avail : Avail) (z r l : Nat) (avail' : Avail) : Prop :=
  ∀ y q, avail'.Free y q → (avail.Free y q ∧ y ≠ z) ∨ (z < y ∧ y ≤ l ∧ q = r * 2 ^ (y - z) + 1)

theorem Avail.leftBeside_take (avail : Avail) (z r l : Nat) : avail.LeftBeside z r l (avail.take z r l) := by
  intro y q h
  rw [Avail.Free, Avail.take, List.getElem?_map, List.getElem?_zipIdx] at h
  cases ha : avail[y]? with
  | none => simp [ha] at h
  | some o =>
    simp only [ha, Option.map_some, Nat.zero_add, Option.some.injEq] at h
    split at h
    · cases h
    · next hne =>
      split at h
      · next hy => exact .inr ⟨hy.1, hy.2, (Option.some.inj h).symm⟩
      · exact .inl ⟨by rw [Avail.Free, ha, h], hne⟩

/-- Before the first code the whole tree is free: its root is the one free node. -/
def Avail.whole : Avail := [some 0]

theorem Avail.free_whole {y r : Nat} : Avail.whole.Free y r ↔ y = 0 ∧ r = 0 := by
  cases y <;> simp [Avail.Free, Avail.whole, eq_comm]

theorem Avail.whole_wf : Avail.whole.Wf where
  depth h := by have := Avail.free_whole.mp h; omega
  inside h := by obtain ⟨rfl, rfl⟩ := Avail.free_whole.mp h; simp [codeSpan]
  apart h h' hne := absurd ((Avail.free_whole.mp h).1.trans (Avail.free_whole.mp h').1.symm) hne

/-- The first code is taken from the root. -/
theorem Avail.leftBeside_first (l : Nat) : Avail.whole.LeftBeside 0 0 l (Avail.first l) := by
  intro y q h
  obtain ⟨x, hx, hq⟩ := Option.map_eq_some_iff.mp (by rwa [Avail.Free, Avail.first, List.getElem?_map] at h)
  obtain ⟨_, rfl⟩ := List.getElem?_eq_some_iff.mp hx
  rw [List.getElem_range] at hq
  split at hq
  · next hy => exact .inr ⟨hy.1, hy.2, by simpa using hq.symm⟩
  · cases hq

/-- A code table inside the free nodes: every code lies in one of them, and the codes do not overlap. -/
structure Avail.Contains (avail : Avail) (tab : List CodeEntry) : Prop where
  inside : ∀ e ∈ tab, ∃ y r, avail.Free y r ∧ e.span ⊆ codeSpan y r
  apart : tab.Pairwise fun a b => Disjoint a.span b.span

section
variable {avail avail' : Avail} {z r l : Nat}

/-- The nodes left over beside a code lie in the node it was taken from. -/
theorem codeSpan_leftover_subset {y o : Nat} (hzy : z ≤ y) (hy : y ≤ 32) (ho : o < 2 ^ (y - z)) :
    codeSpan y (r * 2 ^ (y - z) + o) ⊆ codeSpan z r := by
  have := codeSpan_extend_subset (l := z) (d := y - z) (o := o) r (by omega) ho
  rwa [Nat.add_sub_cancel' hzy] at this

/-- A node left over beside a code overlaps neither the nodes left over below it nor the code. -/
theorem codeSpan_leftover_disjoint {y y' o : Nat} (hzy : z ≤ y) (hle : y ≤ y') (hy : y' ≤ 32)
    (ho : o < 2 ^ (y' - y)) :
    Disjoint (codeSpan y (r * 2 ^ (y - z) + 1)) (codeSpan y' (r * 2 ^ (y' - z) + o)) := by
  have := codeSpan_extend_disjoint (l := z) (d := y - z) (d' := y' - z) (o := o) r (by omega) (by omega)
    (by rwa [show y' - z - (y - z) = y' - y by omega])
  rwa [Nat.add_sub_cancel' hzy, Nat.add_sub_cancel' (by omega : z ≤ y')] at this

/-- A node left over beside a code lies in the node the code was taken from, so overlaps no other free node. -/
theorem Avail.Wf.leftover_disjoint (h : avail.Wf) (hz : avail.Free z r) {y y' q : Nat} (hzy : z < y) (hy : y ≤ 32)
    (hf : avail.Free y' q) (hne : y' ≠ z) : Disjoint (codeSpan y (r * 2 ^ (y - z) + 1)) (codeSpan y' q) :=
  (h.apart hz hf hne.symm).mono_left (codeSpan_leftover_subset hzy.le hy (Nat.one_lt_two_pow (by omega)))

/-- Taking a code keeps the free nodes well formed. -/
theorem Avail.Wf.leftBeside (h : avail.Wf) (hz : avail.Free z r) (hl : l ≤ 32) (hleft : avail.LeftBeside z r l avail') :
    avail'.Wf where
  depth hf := by
    rcases hleft _ _ hf with ⟨hf, -⟩ | ⟨-, hy, -⟩
    · exact h.depth hf
    · omega
  inside hf := by
    rcases hleft _ _ hf with ⟨hf, -⟩ | ⟨hzy, hy, rfl⟩
    · exact h.inside hf
    · exact (codeSpan_leftover_subset hzy.le (by omega) (Nat.one_lt_two_pow (by omega))).trans (h.inside hz)
  apart {y q y' q'} hf hf' hne := by
    rcases hleft _ _ hf with ⟨hf, hyz⟩ | ⟨hzy, hy, rfl⟩ <;> rcases hleft _ _ hf' with ⟨hf', hyz'⟩ | ⟨hzy', hy', rfl⟩
    · exact h.apart hf hf' hne
    · exact (h.leftover_disjoint hz hzy' (by omega) hf hyz).symm
    · exact h.leftover_disjoint hz hzy (by omega) hf' hyz'
    · rcases Nat.lt_or_gt_of_ne hne with hlt | hlt
      · exact codeSpan_leftover_disjoint hzy.le hlt.le (by omega) (Nat.one_lt_two_pow (by omega))
      · exact (codeSpan_leftover_disjoint hzy'.le hlt.le (by omega) (Nat.one_lt_two_pow (by omega))).symm

/-- A code taken from a free node, before codes that lie in the nodes left. -/
theorem Avail.Contains.cons (h : avail.Wf) (hz : avail.Free z r) (hzl : z ≤ l) (hl : l ≤ 32)
    (hleft : avail.LeftBeside z r l avail') {tab : List CodeEntry} (htab : avail'.Contains tab) (s : Nat) :
    avail.Contains (⟨l, r * 2 ^ (l - z), s⟩ :: tab) where
  inside e he := by
    rcases List.mem_cons.mp he with rfl | he
    · exact ⟨z, r, hz, codeSpan_leftover_subset hzl hl (o := 0) (Nat.two_pow_pos _)⟩
    · obtain ⟨y, q, hf, hs⟩ := htab.inside e he
      rcases hleft _ _ hf with ⟨hf, -⟩ | ⟨hzy, hy, rfl⟩
      · exact ⟨y, q, hf, hs⟩
      · exact ⟨z, r, hz,
          hs.trans (codeSpan_leftover_subset hzy.le (by omega) (Nat.one_lt_two_pow (by omega)))⟩
  apart := by
    refine List.pairwise_cons.mpr ⟨fun e he => ?_, htab.apart⟩
    obtain ⟨y, q, hf, hs⟩ := htab.inside e he
    refine Disjoint.mono_right hs ?_
    rcases hleft _ _ hf with ⟨hf, hyz⟩ | ⟨hzy, hy, rfl⟩
    · exact (h.apart hz hf hyz.symm).mono_left (codeSpan_leftover_subset hzl hl (o := 0) (Nat.two_pow_pos _))
    · exact (codeSpan_leftover_disjoint hzy.le hy hl (o := 0) (Nat.two_pow_pos _)).symm

end

/-- The codes `FIRST_FIT` gives lie in the free nodes and do not overlap. -/
theorem firstFitAfter_contains {used : List UsedSym} {avail : Avail} {tab : List CodeEntry} (h : avail.Wf)
    (hl : ∀ u ∈ used, u.1 ≤ 32) (htab : firstFitAfter avail used = some tab) : avail.Contains tab := by
  induction used generalizing avail tab with
  | nil => cases htab; exact ⟨by simp, .nil⟩
  | cons u used ih =>
    rw [firstFitAfter] at htab
    split at htab
    · cases htab
    · next z r hd =>
      obtain ⟨hz, hzl⟩ := Avail.deepest_eq_some hd
      obtain ⟨rest, hrest, rfl⟩ := Option.map_eq_some_iff.mp htab
      have hu : u.1 ≤ 32 := hl u (by simp)
      have hleft := avail.leftBeside_take z r u.1
      exact .cons h hz hzl hu hleft (ih (h.leftBeside hz hu hleft) (fun v hv => hl v (by simp [hv])) hrest) u.2

theorem firstFit_contains {used : List UsedSym} {tab : List CodeEntry} (hl : ∀ u ∈ used, u.1 ≤ 32)
    (htab : firstFit used = some tab) : Avail.whole.Contains tab := by
  cases used with
  | nil => cases htab; exact ⟨by simp, .nil⟩
  | cons u used =>
    obtain ⟨rest, hrest, rfl⟩ := Option.map_eq_some_iff.mp htab
    have hroot : Avail.whole.Free 0 0 := Avail.free_whole.mpr ⟨rfl, rfl⟩
    have hu : u.1 ≤ 32 := hl u (by simp)
    have hleft := Avail.leftBeside_first u.1
    have := Avail.Contains.cons Avail.whole_wf hroot (Nat.zero_le _) hu hleft
      (firstFitAfter_contains (Avail.whole_wf.leftBeside hroot hu hleft) (fun v hv => hl v (by simp [hv])) hrest) u.2
    rwa [Nat.zero_mul] at this

theorem firstFitAfter_usedSym {used : List UsedSym} {avail : Avail} {tab : List CodeEntry}
    (h : firstFitAfter avail used = some tab) : tab.map CodeEntry.usedSym = used := by
  induction used generalizing avail tab with
  | nil => cases h; rfl
  | cons u used ih =>
    rw [firstFitAfter] at h
    split at h
    · cases h
    · obtain ⟨rest, hrest, rfl⟩ := Option.map_eq_some_iff.mp h
      rw [List.map_cons, ih hrest]; rfl

theorem firstFit_usedSym {used : List UsedSym} {tab : List CodeEntry} (h : firstFit used = some tab) :
    tab.map CodeEntry.usedSym = used := by
  cases used with
  | nil => cases h; rfl
  | cons u used =>
    obtain ⟨rest, hrest, rfl⟩ := Option.map_eq_some_iff.mp h
    rw [List.map_cons, firstFitAfter_usedSym hrest]; rfl

/-! ## The table of a codebook, under either assignment -/

/-- What both assignments say of a code table of these lengths (R35, R143, R144, U14). -/
structure IsCodeTable (lens : List Nat) (tab : List CodeEntry) : Prop where
  used : ∀ e ∈ tab, 1 ≤ e.len ∧ e.len ≤ 32 ∧ lens[e.sym]? = some e.len
  order : tab.Pairwise TableOrder
  inside : ∀ e ∈ tab, e.span ⊆ Set.Ico 0 (2 ^ 32)
  apart : tab.Pairwise fun a b => Disjoint a.span b.span

theorem IsCodeTable.code_lt {lens : List Nat} {tab : List CodeEntry} (h : IsCodeTable lens tab) :
    ∀ e ∈ tab, e.code < 2 ^ e.len := fun e he => code_lt_of_span_subset (h.used e he).2.1 (h.inside e he)

theorem IsCodeTable.prefixCode {lens : List Nat} {tab : List CodeEntry} (h : IsCodeTable lens tab) :
    PrefixCode tab := prefixCode_of_disjoint (fun e he => (h.used e he).2.1) h.apart

theorem sortedTable_isCodeTable {lens : List Nat} {tab : List CodeEntry} (h : sortedTable lens = some tab) :
    IsCodeTable lens tab := by
  rw [sortedTable] at h
  split at h
  · cases h
  next hkraft =>
  cases h
  have hsyms := assignCodes_usedSym (usedSorted lens)
  have hmem : ∀ e ∈ assignCodes (usedSorted lens), e.usedSym ∈ usedSorted lens := fun e he =>
    hsyms ▸ List.mem_map_of_mem he
  have htiles := assignCodes_tiles (used := usedSorted lens) (fun u hu => (mem_usedSorted.mp hu).2.1)
    (usedSorted_pairwise lens)
  refine ⟨fun e he => mem_usedSorted.mp (hmem e he), ?_, fun e he => ?_, htiles.pairwise_disjoint⟩
  · have := usedSorted_pairwise lens
    rw [← hsyms, List.pairwise_map] at this
    exact this
  · refine (htiles.span_subset e he).trans (Set.Ico_subset_Ico_right ?_)
    rw [tabSum_eq_kraftSum, hsyms]; omega

theorem firstFitTable_isCodeTable {lens : List Nat} {tab : List CodeEntry} (hl : ∀ l ∈ lens, l ≤ 32)
    (h : firstFitTable lens = some tab) : IsCodeTable lens tab := by
  obtain ⟨codes, hcodes, rfl⟩ := Option.map_eq_some_iff.mp h
  have hsyms := firstFit_usedSym hcodes
  have hmem : ∀ e ∈ codes, lens[e.sym]? = some e.len := fun e he => by
    have : e.usedSym ∈ lens.zipIdx := List.mem_of_mem_filter (hsyms ▸ List.mem_map_of_mem he)
    simpa [CodeEntry.usedSym] using List.mem_zipIdx_iff_getElem?.mp this
  have hcont := firstFit_contains (fun u hu => by
    have := List.mem_zipIdx_iff_getElem?.mp (List.mem_of_mem_filter hu)
    exact hl _ (List.mem_of_getElem? this)) hcodes
  have hsymOrder : codes.Pairwise fun a b => a.sym < b.sym := by
    have := (zipIdx_pairwise_snd_lt lens).filter fun p => p.1 != 0
    rw [← hsyms, List.pairwise_map] at this
    exact this
  refine ⟨fun e he => ?_, ?_, fun e he => ?_, ?_⟩
  · obtain ⟨he, h1, h2⟩ := mem_sortByLength.mp he
    exact ⟨h1, h2, hmem e he⟩
  · exact pairwise_sortByLength CodeEntry.len (fun _ _ _ _ h => .inl h) (hsymOrder.imp fun h heq => .inr ⟨heq, h⟩)
  · obtain ⟨y, r, hf, hs⟩ := hcont.inside e (mem_sortByLength.mp he).1
    exact hs.trans (Avail.whole_wf.inside hf)
  · have hsymm : Std.Symm fun a b : CodeEntry => Disjoint a.span b.span := ⟨fun _ _ h => h.symm⟩
    refine pairwise_sortByLength CodeEntry.len (fun a ha b hb hlt => ?_) (hcont.apart.imp @fun _ _ h _ => by exact h)
    exact hcont.apart.forall ha hb (by rintro rfl; exact lt_irrefl _ hlt)

theorem codeTable_isCodeTable {rule : CodeAssign} {lens : List Nat} {tab : List CodeEntry} (hl : ∀ l ∈ lens, l ≤ 32)
    (h : codeTable rule lens = some tab) : IsCodeTable lens tab := by
  cases rule with
  | sorted => exact sortedTable_isCodeTable h
  | firstFit => exact firstFitTable_isCodeTable hl h

theorem maxLen_isLargestLen (tab : List CodeEntry) : IsLargestLen tab (maxLen tab) := by
  induction tab with
  | nil => exact ⟨fun _ => rfl, by simp, fun h => absurd rfl h⟩
  | cons a tab ih =>
    obtain ⟨-, hle, hex⟩ := ih
    have hmax : maxLen (a :: tab) = max a.len (maxLen tab) := rfl
    refine ⟨by simp, fun e he => ?_, fun _ => ?_⟩
    · rw [hmax]
      rcases List.mem_cons.mp he with rfl | he
      · exact Nat.le_max_left _ _
      · exact (hle e he).trans (Nat.le_max_right _ _)
    · rw [hmax]
      rcases Nat.le_total (maxLen tab) a.len with h | h
      · exact ⟨a, by simp, by omega⟩
      · by_cases hnil : tab = []
        · subst hnil; exact ⟨a, by simp, (Nat.max_zero _).symm⟩
        · obtain ⟨e, he, heq⟩ := hex hnil
          exact ⟨e, by simp [he], by omega⟩

/-- The record that `CB_BUILD` makes has the properties of R35, and its codes meet `PrefixCode` (R144). -/
theorem State.buildBook_inv {s : State} {bk : Book} (h : s.buildBook = some bk) :
    BookInv s.cfg bk ∧ PrefixCode bk.tab := by
  obtain ⟨hsizes, hlens, tab, htab, rfl⟩ := s.buildBook_eq_some.mp h
  obtain ⟨hent, -, hvq⟩ := (sizesLegal_iff _ _ _ _).mp hsizes
  have hct := codeTable_isCodeTable hlens htab
  refine ⟨⟨hent, fun hk => ?_, fun hk => ?_, fun e he => ?_, hct.order, maxLen_isLargestLen tab⟩, hct.prefixCode⟩
  · have hk : s.cbLookup.toNat = 1 := by simpa using hk
    obtain ⟨h1, h2, -⟩ := hvq hk
    exact ⟨h1, h2, by simp [hk]⟩
  · have hk : s.cbLookup.toNat ≠ 1 := by simpa using hk
    exact if_neg hk
  · obtain ⟨h1, h2, hsym⟩ := hct.used e he
    refine ⟨h1, h2, hct.code_lt e he, ?_⟩
    by_contra hge
    simp [hge] at hsym

end Sys2Proof.Machine
end

section
/-! SUPPORT. The invariant of the VCU, one lemma per way a command or a host access changes the state. -/

namespace Sys2Proof.Machine

open Sys2Proof.Config

/-! ## Writes stay inside their space (R60) -/

theorem keysInside_setRange {α : Type} {m : Memory α} {n base : Nat} {vs : List α} (h : keysInside m n)
    (hb : base + vs.length ≤ n) : keysInside (m.setRange base vs) n := fun c hc => by
  rcases Memory.mem_setRange hc with hc | hc
  · exact h c hc
  · omega

theorem keysInside_set {α : Type} {m : Memory α} {n a : Nat} (h : keysInside m n) (ha : a < n) (v : α) :
    keysInside (m.set a v) n := keysInside_setRange h ha

theorem rowsInside_setRange {α : Type} {m : Memory α} {channels row c k : Nat} {vs : List α}
    (h : rowsInside m channels row) (hc : c < channels) (hk : k + vs.length ≤ row) :
    rowsInside (m.setRange (cellKey c k) vs) channels row := fun x hx => by
  rcases Memory.mem_setRange hx with hx | ⟨hlo, hhi⟩
  · exact h x hx
  · exact ⟨c, k + (x.1 - cellKey c k), hc, by omega, by simp only [cellKey] at hlo ⊢; omega⟩

theorem rowsInside_set {α : Type} {m : Memory α} {channels row c k : Nat} (h : rowsInside m channels row)
    (hc : c < channels) (hk : k < row) (v : α) : rowsInside (m.set (cellKey c k) v) channels row :=
  rowsInside_setRange h hc hk

theorem rowsInside_writeRows {m : Memory Word} {channels row n : Nat} {words : Nat → List Word}
    (h : rowsInside m channels row) (hn : n ≤ channels) (hrow : ∀ c, (words c).length ≤ row) :
    rowsInside (writeRows m n words) channels row := by
  induction n with
  | zero => exact h
  | succ n ih =>
    rw [writeRows_succ]
    exact rowsInside_setRange (ih (by omega)) (by omega) (by have := hrow n; omega)

/-! ## Shared ends of a command -/

variable {s : State}

/-- The packet's bits fit the cursor (R7, R10, R127). -/
theorem State.Inv.packetBits_lt (h : s.Inv) : s.packetBits < 2 ^ 32 := by
  have hcfg := h.cfg
  have hplen := h.plen
  simp only [Params.wf, Bool.and_eq_true, decide_eq_true_eq] at hcfg
  rw [State.packetBits]; omega

theorem State.Inv.raise (h : s.Inv) {e : Err} (he : e ≠ .unsupportedFeature ∧ e ≠ .decodeError) : (s.raise e).Inv :=
  { h with err := he }

theorem State.Inv.succeed (h : s.Inv) : s.succeed.Inv := { h with err := ⟨nofun, nofun⟩ }

theorem State.Inv.withResult (h : s.Inv) (v : Word) : { s with result := v }.Inv := { h with }

theorem State.Inv.seek (h : s.Inv) {p : Nat} (hp : p ≤ s.packetBits) : (s.seek p).Inv :=
  { h with bitpos := (Nat.mod_le p (2 ^ 32)).trans hp }

/-- Taking up the packet whose length is staged rewinds the cursor (R121). -/
theorem State.Inv.startPacket (h : s.Inv) (hcap : s.pktLen.toNat ≤ s.cfg.pktcap) :
    { s with plen := s.pktLen, bitpos := 0 }.Inv :=
  { h with plen := hcap, bitpos := Nat.zero_le _ }

/-! ## The phase and the configuration -/

theorem State.configLegal_iff :
    s.configLegal = true ↔ s.cfg.bsMinLog2 ≤ s.bs0Log2 ∧ s.bs0Log2 ≤ s.bs1Log2 ∧ s.bs1Log2 ≤ s.cfg.bsMaxLog2 ∧
      1 ≤ s.channels ∧ s.channels ≤ s.cfg.nchmax := by
  simp only [State.configLegal, Bool.and_eq_true, decide_eq_true_eq]
  omega

theorem State.Inv.commit (h : s.Inv) (hcfg : s.configLegal = true) : { s with status := ⟨.ok, .run⟩ }.Inv :=
  { h with
    err := ⟨nofun, nofun⟩
    runConfig := fun _ => State.configLegal_iff.mp hcfg
    setupIdle := nofun }

/-- `RESET` leaves no tail, no packet and no ready slot (R182). -/
theorem State.Inv.reset (h : s.Inv) : { s with
    status := ⟨.ok, .setup⟩, result := 0, pktLen := 0, plen := 0, bitpos := 0, blkcfg := 0, nch := 0,
    cbEntries := 0, cbDim := 0, cbLookup := 0, vecLen := 0, outLen := 0, olaState := ⟨false, 0⟩,
    books := s.books.map fun bk : Book => { bk with ready := false } }.Inv :=
  { h with
    err := ⟨nofun, nofun⟩
    plen := Nat.zero_le _
    bitpos := Nat.zero_le _
    blkcfg := Nat.zero_lt_succ _
    nch := Nat.zero_lt_succ _
    runConfig := nofun
    setupIdle := fun _ => ⟨rfl, rfl⟩
    tail := ⟨nofun, fun _ => rfl⟩
    vecLen := Nat.zero_le _
    outLen := Nat.zero_le _
    slots := (List.length_map _).trans h.slots
    books := fun bk hbk hready => by
      obtain ⟨old, -, rfl⟩ := List.mem_map.mp hbk
      cases hready }

theorem low8_toNat_lt (v : Word) : (low8 v).toNat < 256 := by
  simp only [low8, BitVec.toNat_setWidth]; omega

/-- In `SETUP` the host may write the block sizes: no tail depends on them (R184). -/
theorem State.Inv.writeBlkcfg (h : s.Inv) (hph : s.status.phase = .setup) (v : Word) :
    { s with blkcfg := low8 v }.Inv :=
  { h with
    blkcfg := low8_toNat_lt v
    runConfig := fun hrun => absurd (hph.symm.trans hrun) nofun
    tail := by obtain ⟨hidle, -⟩ := h.setupIdle hph; simp [hidle] }

theorem State.Inv.writeNch (h : s.Inv) (hph : s.status.phase = .setup) (v : Word) : { s with nch := low8 v }.Inv :=
  { h with
    nch := low8_toNat_lt v
    runConfig := fun hrun => absurd (hph.symm.trans hrun) nofun }

/-! ## The codebooks -/

theorem State.Inv.setBook (h : s.Inv) (b : Nat) {bk : Book} (hbk : BookInv s.cfg bk) :
    { s with books := s.books.set b bk }.Inv :=
  { h with
    slots := (List.length_set).trans h.slots
    books := fun x hx hready => by
      rcases List.mem_or_eq_of_mem_set hx with hx | rfl
      · exact h.books x hx hready
      · exact hbk }

/-- The record of a ready slot has the properties of R35. -/
theorem State.Inv.readyBook (h : s.Inv) {b : Nat} {bk : Book} (hb : s.readyBook b = some bk) : BookInv s.cfg bk := by
  obtain ⟨-, hget, hready⟩ := s.readyBook_eq_some.mp hb
  exact h.books bk (List.mem_of_getElem? hget) hready

theorem Book.vector_length_le (bk : Book) (y : Nat) : (bk.vector y).length ≤ bk.dim := List.length_take_le _ _

/-- A decoded vector fits `VEC` (R152). -/
theorem State.Inv.writeVec (h : s.Inv) {bk : Book} (hdim : bk.dim ≤ s.cfg.maxdim) (y : Nat) :
    { s with vecLen := BitVec.ofNat 32 bk.dim, vec := s.vec.setRange 0 (bk.vector y) }.Inv := by
  obtain ⟨wpkt, wlen, wvq, wspec, wtime, wovl, wout, wvec⟩ := h.memWf
  obtain ⟨ipkt, ilen, ivq, ispec, itime, iovl, iout, ivec⟩ := h.memInside
  have hvec := (bk.vector_length_le y).trans hdim
  exact { h with
    vecLen := (Nat.mod_le _ _).trans hdim
    memWf := ⟨wpkt, wlen, wvq, wspec, wtime, wovl, wout, Memory.wf_setRange wvec _ _⟩
    memInside := ⟨ipkt, ilen, ivq, ispec, itime, iovl, iout,
      keysInside_setRange ivec (by rwa [Nat.zero_add])⟩ }

/-! ## Blocks -/

/-- In `RUN` the blocks of both sizes fit the rows of the memories (R184). -/
theorem State.Inv.blockSize_le (h : s.Inv) (hph : s.status.phase = .run) (f : BlockSize) :
    s.blockSize f ≤ s.cfg.fullRow := by
  obtain ⟨-, h01, hmax, -, -⟩ := h.runConfig hph
  exact Nat.pow_le_pow_right (by decide) (by cases f <;> simp only [State.blockLog2] <;> omega)

/-- In `RUN` the output of a block fits a row of `OUT` (R230). -/
theorem State.Inv.olaLen_le (h : s.Inv) (hph : s.status.phase = .run) (f : BlockSize) :
    s.olaLen (s.blockSize f) ≤ s.cfg.halfRow := by
  have hN := h.blockSize_le hph f
  have hrow : s.cfg.halfRow = s.cfg.fullRow / 2 := rfl
  cases hv : s.olaState.ovlValid with
  | false => rw [s.olaLen_of_no_tail hv]; exact Nat.zero_le _
  | true =>
    have hP : 2 ^ s.olaState.prevLog2.toNat ≤ s.cfg.fullRow := by
      rcases h.tail.1 hv with he | he <;> rw [he]
      · exact h.blockSize_le hph .short
      · exact h.blockSize_le hph .long
    rw [s.olaLen_of_tail hv]; omega

theorem State.Inv.writeTime (h : s.Inv) (hph : s.status.phase = .run) {c : Nat} (hc : c < s.channels)
    {f : BlockSize} {row : List Word} (hrow : row.length = s.blockSize f) :
    { s with time := s.time.setRange (cellKey c 0) row }.Inv := by
  obtain ⟨wpkt, wlen, wvq, wspec, wtime, wovl, wout, wvec⟩ := h.memWf
  obtain ⟨ipkt, ilen, ivq, ispec, itime, iovl, iout, ivec⟩ := h.memInside
  obtain ⟨-, -, -, -, hch⟩ := h.runConfig hph
  have hfit : 0 + row.length ≤ s.cfg.fullRow := by have := h.blockSize_le hph f; omega
  exact { h with
    memWf := ⟨wpkt, wlen, wvq, wspec, Memory.wf_setRange wtime _ _, wovl, wout, wvec⟩
    memInside := ⟨ipkt, ilen, ivq, ispec,
      rowsInside_setRange itime (hc.trans_le hch) hfit, iovl, iout, ivec⟩ }

/-- The output of a block and its tail fit their rows (R230, R231). -/
theorem State.Inv.writeBlock (h : s.Inv) (hph : s.status.phase = .run) (f : BlockSize) (Q : Nat) :
    { s with
      out := s.outAfter (s.blockSize f) Q, ovl := s.ovlAfter (s.blockSize f) Q,
      outLen := BitVec.ofNat 32 (s.olaLen (s.blockSize f)),
      olaState := ⟨true, BitVec.ofNat 4 (s.blockLog2 f)⟩ }.Inv := by
  obtain ⟨wpkt, wlen, wvq, wspec, wtime, wovl, wout, wvec⟩ := h.memWf
  obtain ⟨ipkt, ilen, ivq, ispec, itime, iovl, iout, ivec⟩ := h.memInside
  obtain ⟨-, -, -, -, hch⟩ := h.runConfig hph
  have hlen := h.olaLen_le hph f
  have hprev : (BitVec.ofNat 4 (s.blockLog2 f)).toNat = s.blockLog2 f := Nat.mod_eq_of_lt (s.blockLog2_lt f)
  have wout' : (s.outAfter (s.blockSize f) Q).wf = true := by
    rw [State.outAfter]; split
    · exact wf_writeRows wout _ _
    · exact wout
  have iout' : rowsInside (s.outAfter (s.blockSize f) Q) s.cfg.nchmax s.cfg.halfRow := by
    rw [State.outAfter]; split
    · exact rowsInside_writeRows iout hch fun c => by rwa [State.outRow_length]
    · exact iout
  have iovl' : rowsInside (s.ovlAfter (s.blockSize f) Q) s.cfg.nchmax s.cfg.halfRow :=
    rowsInside_writeRows iovl hch fun c => by
      rw [State.tailRow_length]; exact Nat.div_le_div_right (h.blockSize_le hph f)
  exact { h with
    setupIdle := fun hsetup => absurd (hph.symm.trans hsetup) nofun
    tail := ⟨fun _ => by rw [hprev]; cases f; exacts [.inl rfl, .inr rfl], nofun⟩
    outLen := (Nat.mod_le _ _).trans hlen
    memWf := ⟨wpkt, wlen, wvq, wspec, wtime, wf_writeRows wovl _ _, wout', wvec⟩
    memInside := ⟨ipkt, ilen, ivq, ispec, itime, iovl', iout', ivec⟩ }

theorem State.Inv.forgetTail (h : s.Inv) : { s with olaState := ⟨false, 0⟩, outLen := 0 }.Inv :=
  { h with
    setupIdle := fun _ => ⟨rfl, rfl⟩
    tail := ⟨nofun, fun _ => rfl⟩
    outLen := Nat.zero_le _ }

/-! ## The host's accesses and the step -/

theorem State.Inv.beginAccess (h : s.Inv) (rest : List Access) : (s.beginAccess rest).Inv := { h with }

theorem State.Inv.hostRead (h : s.Inv) (l : Loc) : (hostRead l s).Inv := { h with }

/-- Everything a host write of a register can do (R67). -/
theorem writeReg_cases (i : Nat) (v : Word) (s : State) :
    writeReg i v s = { s with pktLen := v } ∨
    (s.status.phase = .setup ∧ writeReg i v s = { s with blkcfg := low8 v }) ∨
    (s.status.phase = .setup ∧ writeReg i v s = { s with nch := low8 v }) ∨
    writeReg i v s = { s with cbEntries := v } ∨ writeReg i v s = { s with cbDim := v } ∨
    writeReg i v s = { s with cbLookup := v } ∨ writeReg i v s = s := by
  unfold writeReg
  split
  · exact .inl rfl
  · split
    · next hph => exact .inr (.inl ⟨hph, rfl⟩)
    · simp
  · split
    · next hph => exact .inr (.inr (.inl ⟨hph, rfl⟩))
    · simp
  all_goals simp

theorem State.Inv.hostWriteReg (h : s.Inv) (i : Nat) (v : Word) : (writeReg i v s).Inv := by
  rcases writeReg_cases i v s with e | ⟨hph, e⟩ | ⟨hph, e⟩ | e | e | e | e <;> rw [e]
  · exact { h with }
  · exact h.writeBlkcfg hph v
  · exact h.writeNch hph v
  · exact { h with }
  · exact { h with }
  · exact { h with }
  · exact h

/-- A host write inside its space keeps the invariant (R60, R67). -/
theorem State.Inv.hostWrite (h : s.Inv) {l : Loc} (hl : l.inside s.cfg = true) (v : Word) :
    (hostWrite l v s).Inv := by
  obtain ⟨wpkt, wlen, wvq, wspec, wtime, wovl, wout, wvec⟩ := h.memWf
  obtain ⟨ipkt, ilen, ivq, ispec, itime, iovl, iout, ivec⟩ := h.memInside
  cases l <;> simp only [Loc.inside, Bool.and_eq_true, decide_eq_true_eq] at hl
  case reg i => exact h.hostWriteReg i v
  case pkt i =>
    exact { h with
      memWf := ⟨Memory.wf_set wpkt _ _, wlen, wvq, wspec, wtime, wovl, wout, wvec⟩
      memInside := ⟨keysInside_set ipkt hl _, ilen, ivq, ispec, itime, iovl, iout, ivec⟩ }
  case lenstg i =>
    exact { h with
      memWf := ⟨wpkt, Memory.wf_set wlen _ _, wvq, wspec, wtime, wovl, wout, wvec⟩
      memInside := ⟨ipkt, keysInside_set ilen hl _, ivq, ispec, itime, iovl, iout, ivec⟩ }
  case vqstg i =>
    exact { h with
      memWf := ⟨wpkt, wlen, Memory.wf_set wvq _ _, wspec, wtime, wovl, wout, wvec⟩
      memInside := ⟨ipkt, ilen, keysInside_set ivq hl _, ispec, itime, iovl, iout, ivec⟩ }
  case spec c k =>
    exact { h with
      memWf := ⟨wpkt, wlen, wvq, Memory.wf_set wspec _ _, wtime, wovl, wout, wvec⟩
      memInside := ⟨ipkt, ilen, ivq, rowsInside_set ispec hl.1 hl.2 _, itime, iovl, iout, ivec⟩ }
  case time c k =>
    exact { h with
      memWf := ⟨wpkt, wlen, wvq, wspec, Memory.wf_set wtime _ _, wovl, wout, wvec⟩
      memInside := ⟨ipkt, ilen, ivq, ispec, rowsInside_set itime hl.1 hl.2 _, iovl, iout, ivec⟩ }
  all_goals exact h

/-- Every command keeps the invariant, however it ends. -/
theorem State.Inv.commandEnd (h : s.Inv) {i : Instr} {t : State} (hend : CommandEnd s i t) : t.Inv := by
  cases hend with
  | wrongPhase => exact h.raise ⟨nofun, nofun⟩
  | raised _ e _ he => rcases he with rfl | rfl | rfl <;> exact h.raise ⟨nofun, nofun⟩
  | walkFailed _ p e _ _ he _ hp =>
    have hpos : p ≤ s.packetBits := hp.elim id fun hp => hp ▸ h.bitpos
    rcases he with rfl | rfl <;> exact (h.seek hpos).raise ⟨nofun, nofun⟩
  | nop => exact h.succeed
  | reset => exact h.reset
  | committed _ hcfg => exact h.commit hcfg
  | packetStarted hcap => exact (h.startPacket hcap).succeed
  | bitsRead _ n _ hend => exact ((h.seek hend).withResult _).succeed
  | built b bk _ _ hbk => exact (h.setBook b (State.buildBook_inv hbk).1).succeed
  | decoded _ _ y p _ _ _ _ hend => exact ((h.seek hend).withResult _).succeed
  | vectorDecoded _ bk y p _ hb hvq _ _ hend =>
    obtain ⟨-, hdim, -⟩ := (h.readyBook hb).vq hvq
    exact (((h.seek hend).writeVec hdim y).withResult _).succeed
  | transformed c f hph hc => exact (h.writeTime hph hc (f := f) (Params.imdct_length _ _ _)).succeed
  | overlapped f nf hph => exact ((h.writeBlock hph f _).withResult _).succeed
  | tailForgotten => exact h.forgetTail.succeed

/-- Every step keeps the invariant. -/
theorem State.Inv.step (h : s.Inv) {t : State} (hstep : step s = .next t) : t.Inv :=
  step_keeps h (fun _ rest hu => hu.beginAccess rest) (fun _ l hu => hu.hostRead l)
    (fun _ _ v hu hl => hu.hostWrite hl v) (fun _ hu => hu.raise ⟨nofun, nofun⟩) (fun _ _ _ hu hc => hu.commandEnd hc)
    hstep

end Sys2Proof.Machine
end

section
/-! SUPPORT. The statements about the state: what holds at power-on, what a step does and what it keeps. -/

namespace Sys2Proof.Machine

open Sys2Proof.Config

variable {s t : State}

/-! ## The codes of ready records -/

/-- A command leaves every ready record as it was, or stores one that `CB_BUILD` made (R148). -/
theorem CommandEnd.ready_book {i : Instr} (h : CommandEnd s i t) {bk : Book} (hbk : bk ∈ t.books)
    (hready : bk.ready = true) : bk ∈ s.books ∨ s.buildBook = some bk := by
  cases h with
  | reset =>
    obtain ⟨old, -, rfl⟩ := List.mem_map.mp hbk
    cases hready
  | built b new _ _ hnew =>
    rcases List.mem_or_eq_of_mem_set hbk with hbk | rfl
    · exact .inl hbk
    · exact .inr hnew
  | _ => exact .inl hbk

theorem State.PrefixInv.commandEnd {i : Instr} (h : s.PrefixInv) (hend : CommandEnd s i t) : t.PrefixInv :=
  fun bk hbk hready => by
    rcases hend.ready_book hbk hready with hold | hnew
    · exact h bk hold hready
    · exact (State.buildBook_inv hnew).2

/-- A host write touches no record (R67). -/
theorem hostWrite_books (l : Loc) (v : Word) (s : State) : (hostWrite l v s).books = s.books := by
  cases l with
  | reg i =>
    change (writeReg i v s).books = s.books
    rcases writeReg_cases i v s with e | ⟨-, e⟩ | ⟨-, e⟩ | e | e | e | e <;> rw [e]
  | _ => rfl

theorem State.PrefixInv.step (h : s.PrefixInv) (hstep : step s = .next t) : t.PrefixInv :=
  step_keeps h (fun _ _ hu => hu) (fun _ _ hu => hu)
    (fun u l v hu _ => by rw [State.PrefixInv, hostWrite_books]; exact hu) (fun _ hu => hu)
    (fun _ _ _ hu hc => hu.commandEnd hc) hstep

/-! ## The cursor -/

theorem State.seek_bitpos_toNat (h : s.Inv) {p : Nat} (hp : p ≤ s.packetBits) : (s.seek p).bitpos.toNat = p :=
  Nat.mod_eq_of_lt (hp.trans_lt h.packetBits_lt)

/-- A command that keeps the packet leaves the cursor, or moves it on toward the packet's end (R26, R128). -/
theorem CommandEnd.cursor {i : Instr} (h : CommandEnd s i t) (hstart : i ≠ .pktStart) (hreset : i ≠ .reset) :
    t.plen = s.plen ∧ (t.bitpos = s.bitpos ∨
      ∃ p, t.bitpos = (s.seek p).bitpos ∧ s.bitpos.toNat ≤ p ∧ (p ≤ s.packetBits ∨ p = s.bitpos.toNat)) := by
  cases h with
  | reset => exact absurd rfl hreset
  | packetStarted => exact absurd rfl hstart
  | walkFailed _ p _ _ _ _ hle hend => exact ⟨rfl, .inr ⟨p, rfl, hle, hend⟩⟩
  | bitsRead _ n _ hend => exact ⟨rfl, .inr ⟨_, rfl, Nat.le_add_right _ _, .inl hend⟩⟩
  | decoded _ _ _ p _ _ _ hle hend => exact ⟨rfl, .inr ⟨p, rfl, hle, .inl hend⟩⟩
  | vectorDecoded _ _ _ p _ _ _ _ hle hend => exact ⟨rfl, .inr ⟨p, rfl, hle, .inl hend⟩⟩
  | _ => exact ⟨rfl, .inl rfl⟩

/-! ## Power-on -/

theorem State.powerOn_ready {p : Params} {bk : Book} (h : bk ∈ (State.powerOn p).books) : bk.ready = false := by
  rw [List.eq_of_mem_replicate h]; rfl

theorem State.powerOn_inv {p : Params} (h : p.wf = true) : (State.powerOn p).Inv where
  cfg := h
  err := ⟨nofun, nofun⟩
  plen := Nat.zero_le _
  bitpos := Nat.zero_le _
  blkcfg := Nat.zero_lt_succ _
  nch := Nat.zero_lt_succ _
  runConfig := nofun
  setupIdle _ := ⟨rfl, rfl⟩
  tail := ⟨nofun, fun _ => rfl⟩
  vecLen := Nat.zero_le _
  outLen := Nat.zero_le _
  slots := List.length_replicate
  books _ hbk hready := absurd (State.powerOn_ready hbk) (by simp [hready])
  memWf := ⟨rfl, rfl, rfl, rfl, rfl, rfl, rfl, rfl⟩
  memInside := ⟨nofun, nofun, nofun, nofun, nofun, nofun, nofun, nofun⟩

theorem State.powerOn_prefixInv (p : Params) : (State.powerOn p).PrefixInv :=
  fun _ hbk hready => absurd (State.powerOn_ready hbk) (by simp [hready])

/-- No register holds anything after power-on (R49). -/
theorem State.powerOn_regAt (p : Params) (i : Nat) : (State.powerOn p).regAt i = 0 := by
  unfold State.regAt
  split <;> rfl

/-! ## Registers that are held as fields -/

theorem Status.word_toNat (st : Status) :
    st.word.toNat = st.err.code + 16 * (if st.phase = .run then 1 else 0) := by
  obtain ⟨e, ph⟩ := st
  cases ph <;> cases e <;> rfl

theorem OlaState.word_toNat (o : OlaState) :
    o.word.toNat = (if o.ovlValid then 1 else 0) + 16 * o.prevLog2.toNat := by
  have := o.prevLog2.isLt
  rw [OlaState.word, BitVec.toNat_ofNat]
  split <;> omega

/-! ## The step -/

theorem step_of_nil (h : s.pending = []) : step s = .next s := by rw [step, nextAccess, h]

theorem step_of_cons {a : Access} {rest : List Access} (h : s.pending = a :: rest) :
    step s = performAccess a (s.beginAccess rest) := by rw [step, nextAccess, h]

theorem runCommand_of_command {w : Word} {i : Instr} (h : decode w = .command i) (s : State) :
    runCommand w s = exec i s := by rw [runCommand, h]

theorem runCommand_of_illegal {w : Word} {why : IllegalWord} (h : decode w = .illegal why) (s : State) :
    runCommand w s = .next (s.raise .illegalCommand) := by rw [runCommand, h]

/-! ## The obligations -/

/-- Settles O22: the invariant holds of the state each access and each way to end a command leads to. -/
theorem stepKeepsInvariant : Obligations.StepKeepsInvariant := by
  intro s t h hstep
  exact h.step hstep

/-- Settles O23: a step stores no record but one that `CB_BUILD` made, and the codes of that have disjoint spans. -/
theorem stepKeepsPrefixCodes : Obligations.StepKeepsPrefixCodes := by
  intro s t _ h hstep
  exact h.step hstep

/-- Settles O31: the cursor stays or moves toward the end of the packet, and the packet's bits fit the register. -/
theorem cursorOnlyAdvances : Obligations.CursorOnlyAdvances := by
  intro i s t h hstart hreset hexec
  obtain ⟨hplen, hcur⟩ := (exec_end hexec).cursor hstart hreset
  refine ⟨hplen, ?_⟩
  rw [hplen]
  rcases hcur with hsame | ⟨p, hp, hle, hend⟩
  · rw [hsame]; exact ⟨le_rfl, h.bitpos⟩
  · have hpos : p ≤ s.packetBits := hend.elim id fun hp => hp ▸ h.bitpos
    rw [hp, State.seek_bitpos_toNat h hpos]; exact ⟨hle, hpos⟩

/-- Settles O6. -/
theorem stepRunsTheDecodedCommand : Obligations.StepRunsTheDecodedCommand := by
  rintro s _ w rest hp rfl
  have hrun : step s = runCommand w (s.beginAccess rest) := step_of_cons hp
  exact ⟨hrun, fun i hi => hrun.trans (runCommand_of_command hi _),
    fun why hw => hrun.trans (runCommand_of_illegal hw _)⟩

/-- Settles O8. -/
theorem idleStepChangesNothing : Obligations.IdleStepChangesNothing := by
  intro s h
  exact step_of_nil h

/-- Settles O10: ten registers read as they are held, two as the words of their fields. -/
theorem registersReadAsNumbered : Obligations.RegistersReadAsNumbered := by
  refine ⟨fun s => ?_, rfl, rfl, rfl, rfl, rfl, rfl, rfl, rfl, rfl⟩
  have hstatus : s.regAt 1 = s.status.word := rfl
  have hola : s.regAt 13 = s.olaState.word := rfl
  rw [hstatus, hola, Status.word_toNat, OlaState.word_toNat]
  exact ⟨rfl, rfl, rfl, rfl, rfl, rfl, rfl, rfl, rfl, rfl, rfl, rfl, rfl, rfl, rfl, rfl⟩

/-- Settles O14. -/
theorem powerOnValues : Obligations.PowerOnValues := by
  intro p
  exact ⟨State.powerOn_regAt p, rfl, rfl, List.length_replicate, fun _ => State.powerOn_ready,
    fun _ => rfl, fun _ => rfl, fun _ => rfl, fun _ => rfl, fun _ => rfl, fun _ => rfl, fun _ => rfl, fun _ => rfl⟩

/-- Settles O21; the reference configuration is legal by evaluation. -/
theorem powerOnMeetsInvariant : Obligations.PowerOnMeetsInvariant :=
  ⟨fun p hp => ⟨State.powerOn_inv hp, State.powerOn_prefixInv p⟩, State.powerOn_inv (by decide),
    State.powerOn_prefixInv _⟩

end Sys2Proof.Machine
end

section
/-! SUPPORT. The host's port (R60, R64 to R69): what a read and a write inside their space do, what a register keeps of
a written word, and which state each command leaves alone (R73). -/

namespace Sys2Proof

theorem Decoded.command?_eq_some {d : Decoded} {i : Instr} : d.command? = some i ↔ d = .command i := by
  cases d <;> simp [Decoded.command?]

end Sys2Proof

namespace Sys2Proof.Machine

open Sys2Proof.Config

variable {s t : State}

/-! ## One host access -/

theorem performAccess_read {l : Loc} (h : l.inside s.cfg = true) :
    performAccess (.read l) s = .next (hostRead l s) := if_pos h

theorem performAccess_read_outside {l : Loc} (h : l.inside s.cfg = false) :
    performAccess (.read l) s = .refused (.outsideSpace l) := if_neg (by simp [h])

/-- A write of anything but `CMD` runs no command (R67). -/
theorem performAccess_write {l : Loc} (hcmd : l ≠ .reg 0) (v : Word) (s : State) :
    performAccess (.write l v) s =
      if l.inside s.cfg then .next (hostWrite l v s) else .refused (.outsideSpace l) := by
  rw [performAccess]
  rintro rfl; exact hcmd rfl

/-- A step whose access is a read inside its space (R66). -/
theorem step_of_read {l : Loc} {rest : List Access} (hp : s.pending = .read l :: rest)
    (hin : l.inside s.cfg = true) : step s = .next (hostRead l (s.beginAccess rest)) :=
  (step_of_cons hp).trans (performAccess_read hin)

/-- A step whose access is a write inside its space of anything but `CMD` (R67). -/
theorem step_of_write {l : Loc} {v : Word} {rest : List Access} (hp : s.pending = .write l v :: rest)
    (hcmd : l ≠ .reg 0) (hin : l.inside s.cfg = true) : step s = .next (hostWrite l v (s.beginAccess rest)) := by
  rw [step_of_cons hp, performAccess_write hcmd]
  exact if_pos hin

/-! ## What a register keeps of a written word (R67) -/

theorem low8_eq_ofNat (v : Word) : low8 v = BitVec.ofNat 32 (v.toNat % 2 ^ 8) := by
  apply BitVec.eq_of_toNat_eq
  simp [low8, BitVec.extractLsb'_toNat]

theorem writeReg_blkcfg (h : s.status.phase = .setup) (v : Word) :
    writeReg 6 v s = { s with blkcfg := BitVec.ofNat 32 (v.toNat % 2 ^ 8) } := by
  rw [← low8_eq_ofNat]; exact if_pos h

theorem writeReg_nch (h : s.status.phase = .setup) (v : Word) :
    writeReg 7 v s = { s with nch := BitVec.ofNat 32 (v.toNat % 2 ^ 8) } := by
  rw [← low8_eq_ofNat]; exact if_pos h

/-- In `RUN` the host cannot change the configuration (R184). -/
theorem writeReg_config_of_run {i : Nat} (hi : i = 6 ∨ i = 7) (h : s.status.phase = .run) (v : Word) :
    writeReg i v s = s := by
  rcases hi with rfl | rfl <;> exact if_neg (by simp [h])

/-! ## Which state a command leaves alone (R73) -/

/-- The bit reader and the codebook commands leave the state of the transform and of the overlap-add. -/
theorem CommandEnd.keeps_blocks {i : Instr} {n b : Nat} (h : CommandEnd s i t)
    (hi : i ∈ [.pktStart, .brRead n, .brRead1, .cbBuild b, .cbDecode b, .cbDecodeVq b]) :
    t.spec = s.spec ∧ t.time = s.time ∧ t.ovl = s.ovl ∧ t.out = s.out ∧ t.outLen = s.outLen ∧
      t.olaState = s.olaState := by
  cases h with
  | reset | transformed | overlapped | tailForgotten => simp at hi
  | _ => exact ⟨rfl, rfl, rfl, rfl, rfl, rfl⟩

/-- The transform and the overlap-add leave the packet, the cursor and the codebooks. -/
theorem CommandEnd.keeps_packet_books {i : Instr} {c : Nat} {f g : BlockSize} (h : CommandEnd s i t)
    (hi : i ∈ [.imdct c f, .ola f g, .olaReset]) :
    t.plen = s.plen ∧ t.bitpos = s.bitpos ∧ t.books = s.books ∧ t.vec = s.vec ∧ t.vecLen = s.vecLen := by
  cases h with
  | walkFailed _ _ _ hdec =>
    obtain ⟨b, rfl | rfl⟩ := hdec <;> simp at hi
  | bitsRead _ n hread =>
    obtain ⟨rfl, -⟩ | ⟨rfl, -⟩ := hread <;> simp at hi
  | reset | packetStarted | built | decoded | vectorDecoded => simp at hi
  | _ => exact ⟨rfl, rfl, rfl, rfl, rfl⟩

/-- No command writes what the host alone fills, or a field of the model's own. -/
theorem CommandEnd.keeps_host_memories {i : Instr} (h : CommandEnd s i t) :
    t.pkt = s.pkt ∧ t.lenstg = s.lenstg ∧ t.vqstg = s.vqstg ∧ t.spec = s.spec ∧ t.cfg = s.cfg ∧ t.draws = s.draws ∧
      t.pending = s.pending ∧ t.readLog = s.readLog := by
  cases h <;> exact ⟨rfl, rfl, rfl, rfl, rfl, rfl, rfl, rfl⟩

/-- No command but `RESET` writes a register that the host fills. -/
theorem CommandEnd.keeps_host_registers {i : Instr} (h : CommandEnd s i t) (hreset : i ≠ .reset) :
    t.pktLen = s.pktLen ∧ t.cbEntries = s.cbEntries ∧ t.cbDim = s.cbDim ∧ t.cbLookup = s.cbLookup ∧
      t.blkcfg = s.blkcfg ∧ t.nch = s.nch := by
  cases h with
  | reset => exact absurd rfl hreset
  | _ => exact ⟨rfl, rfl, rfl, rfl, rfl, rfl⟩

/-! ## The obligations -/

/-- Settles O9: the value is the element as the begun access reads it, and a written element reads as it was written. -/
theorem hostReadReturnsTheElement : Obligations.HostReadReturnsTheElement := by
  intro s l rest hp hin
  refine ⟨(s.beginAccess rest).locAt l, step_of_read hp hin, ?_⟩
  cases l with
  | reg i => exact ⟨rfl, by rintro (rfl | rfl | rfl) <;> rfl⟩
  | pkt i =>
    intro b hb
    rw [State.locAt, (s.beginAccess rest).pktAt_of_get hb, BitVec.toNat_setWidth_of_le (by decide)]
  | _ => exact fun x hx => State.wordAt_of_get _ hx _

/-- Settles O11: the step is the register write, whose cases are the registers' numbers and the phase. -/
theorem hostRegisterWrites : Obligations.HostRegisterWrites := by
  intro s i v rest hp hcmd hi
  have hstep : step s = .next (writeReg i v (s.beginAccess rest)) :=
    step_of_write hp (by simpa using hcmd) (decide_eq_true hi)
  refine ⟨_, hstep, ?_, ?_, ?_, ?_, ?_, ?_, ?_, ?_⟩
  · rintro rfl; rfl
  · rintro rfl; rfl
  · rintro rfl; rfl
  · rintro rfl; rfl
  · rintro rfl hph; exact writeReg_blkcfg (s := s.beginAccess rest) hph v
  · rintro rfl hph; exact writeReg_nch (s := s.beginAccess rest) hph v
  · intro hconf hph; exact writeReg_config_of_run (s := s.beginAccess rest) hconf hph v
  · rintro (rfl | rfl | rfl | rfl | rfl | rfl | rfl | rfl | rfl) <;> rfl

/-- Settles O12: the step is the host's write, and a memory reads after it as `Memory.get_set` says. -/
theorem hostMemoryWrites : Obligations.HostMemoryWrites := by
  intro s l v rest hp hin
  have hstep (hcmd : l ≠ .reg 0) := step_of_write hp hcmd hin
  cases l with
  | reg => trivial
  | ovl | out | vec => exact hstep nofun
  | _ => exact ⟨_, hstep nofun, Memory.get_set_same _ _ _, fun a ha => Memory.get_set_other _ _ ha.symm⟩

/-- Settles O26: each clause is read off the ways a command can end. -/
theorem unitsDoNotTouchEachOther : Obligations.UnitsDoNotTouchEachOther := by
  intro i s t hexec
  have hend := exec_end hexec
  exact ⟨fun ⟨_, _, hi⟩ => hend.keeps_blocks hi, fun ⟨_, _, _, hi⟩ => hend.keeps_packet_books hi,
    hend.keeps_host_memories, hend.keeps_host_registers⟩

/-- Settles O27. -/
theorem packetBitIsTheBytesBit : Obligations.PacketBitIsTheBytesBit := by
  intro s p b hb
  rw [State.pktBit, s.pktAt_of_get hb, BitVec.getLsbD, Nat.toNat_testBit]

/-- Settles O7: the fetch word is the first pending access, a write to `CMD`. -/
theorem fetchWordRunsNext : Obligations.FetchWordRunsNext := by
  intro s w i hw
  obtain ⟨-, hrun, -⟩ := stepRunsTheDecodedCommand (s.withFetchWord 32 w) _ _ s.pending rfl rfl
  exact hrun i (Decoded.command?_eq_some.mp hw)

/-- Settles O13: `CMD` lies inside its space, so a write outside every space is no command. -/
theorem outsideAccessIsRefused : Obligations.OutsideAccessIsRefused := by
  intro s l v rest hout
  have hcmd : l ≠ .reg 0 := by rintro rfl; cases hout
  refine ⟨fun hp => (step_of_cons hp).trans (performAccess_read_outside hout), fun hp => ?_⟩
  rw [step_of_cons hp, performAccess_write hcmd]
  exact if_neg (by simp [hout])

end Sys2Proof.Machine
end

section
/-! SUPPORT. The command word (R90 to R94): the three fields of every command, the decoder as what it says of the fields
of a word, and the rows of the opcode map as what they say of the same fields. -/

namespace Sys2Proof

open Laws.EncodeFields (opcode)

variable {w : Word}

/-! ## The operand fields of a command (R91, R92) -/

/-- What the command's word holds in `A`. -/
def Instr.aOperand : Instr → Nat
  | .cbBuild b | .cbDecode b | .cbDecodeVq b => b
  | .imdct c _ => c
  | _ => 0

/-- What the command's word holds in `B`. -/
def Instr.bOperand : Instr → Nat
  | .brRead n => n
  | .imdct _ f => sizeBit f
  | .ola f nf => sizeBit f + 2 * sizeBit nf
  | _ => 0

theorem encode_eq_wordOf (i : Instr) : encode i = wordOf (opcode i) i.aOperand i.bOperand := by cases i <;> rfl

theorem opcode_lt (i : Instr) : opcode i < 2 ^ 8 := by cases i <;> simp [opcode]

theorem sizeBit_lt (f : BlockSize) : sizeBit f < 2 := by cases f <;> decide

/-- A command is well formed when its operands fit their fields (R90). -/
theorem Instr.wf_iff (i : Instr) : i.wf = true ↔ i.aOperand < 2 ^ 8 ∧ i.bOperand < 2 ^ 6 := by
  cases i with
  | imdct c f =>
    have := sizeBit_lt f
    simp only [Instr.wf, Instr.aOperand, Instr.bOperand, decide_eq_true_eq]; omega
  | ola f nf =>
    have := sizeBit_lt f
    have := sizeBit_lt nf
    simp only [Instr.wf, Instr.aOperand, Instr.bOperand, true_iff]; omega
  | _ => simp [Instr.wf, Instr.aOperand, Instr.bOperand]

/-! ## The blocksize flags (R92) -/

theorem sizeBit_eq_iff {f : BlockSize} {n : Nat} : n = sizeBit f ↔ n < 2 ∧ flagSize n = f := by
  cases f <;> simp only [sizeBit, flagSize_eq_short, flagSize_eq_long] <;> omega

theorem sizeBits_eq_iff {f nf : BlockSize} {n : Nat} :
    n = sizeBit f + 2 * sizeBit nf ↔ n < 4 ∧ flagSize n = f ∧ flagSize (n / 2) = nf := by
  cases f <;> cases nf <;> simp only [sizeBit, flagSize_eq_short, flagSize_eq_long] <;> omega

/-! ## When a format accepts a word (R91) -/

theorem formatZ_eq_command {i j : Instr} :
    formatZ w i = .command j ↔ i = j ∧ aField w = 0 ∧ bField w = 0 := by
  unfold formatZ; split <;> simp [*]

theorem formatN_eq_command {i : Nat → Instr} {j : Instr} :
    formatN w i = .command j ↔ i (bField w) = j ∧ aField w = 0 := by
  unfold formatN; split <;> simp [*]

theorem formatK_eq_command {i : Nat → Instr} {j : Instr} :
    formatK w i = .command j ↔ i (aField w) = j ∧ bField w = 0 := by
  unfold formatK; split <;> simp [*]

theorem formatT_eq_command {i : Nat → BlockSize → Instr} {j : Instr} :
    formatT w i = .command j ↔ ∃ f, i (aField w) f = j ∧ bField w = sizeBit f := by
  simp only [sizeBit_eq_iff]
  unfold formatT; split <;> simp [*]

theorem formatW_eq_command {i : BlockSize → BlockSize → Instr} {j : Instr} :
    formatW w i = .command j ↔ ∃ f nf, i f nf = j ∧ aField w = 0 ∧ bField w = sizeBit f + 2 * sizeBit nf := by
  simp only [sizeBits_eq_iff]
  unfold formatW; split <;> simp_all

/-! ## The decoder (R93) -/

/-- The fields of w hold the command: its opcode, its operands, and 0 in `Z`. -/
structure HoldsCommand (w : Word) (i : Instr) : Prop where
  op : opField w = opcode i
  a : aField w = i.aOperand
  b : bField w = i.bOperand
  z : zField w = 0

/-- Each opcode's format is read off by its own lemma: N, K, T and W by name, Z for all the rest. -/
theorem holdsCommand_of_decodeOp {i : Instr} (hz : zField w = 0) (h : decodeOp w = .command i) : HoldsCommand w i := by
  unfold decodeOp at h
  split at h
  case h_5 hop =>
    obtain ⟨rfl, ha⟩ := formatN_eq_command.mp h
    exact ⟨hop, ha, rfl, hz⟩
  case h_7 hop | h_8 hop | h_9 hop =>
    obtain ⟨rfl, hb⟩ := formatK_eq_command.mp h
    exact ⟨hop, rfl, hb, hz⟩
  case h_10 hop =>
    obtain ⟨f, rfl, hb⟩ := formatT_eq_command.mp h
    exact ⟨hop, rfl, hb, hz⟩
  case h_11 hop =>
    obtain ⟨f, nf, rfl, ha, hb⟩ := formatW_eq_command.mp h
    exact ⟨hop, ha, hb, hz⟩
  case h_13 => cases h
  all_goals
    obtain ⟨rfl, ha, hb⟩ := formatZ_eq_command.mp h
    exact ⟨‹_›, ha, hb, hz⟩

theorem HoldsCommand.decodeOp_eq {i : Instr} (h : HoldsCommand w i) : decodeOp w = .command i := by
  obtain ⟨hop, ha, hb, -⟩ := h
  rw [decodeOp, hop]
  cases i with
  | brRead => exact formatN_eq_command.mpr ⟨congrArg _ hb, ha⟩
  | cbBuild | cbDecode | cbDecodeVq => exact formatK_eq_command.mpr ⟨congrArg _ ha, hb⟩
  | imdct c f => exact formatT_eq_command.mpr ⟨f, by rw [ha]; rfl, hb⟩
  | ola f nf => exact formatW_eq_command.mpr ⟨f, nf, rfl, ha, hb⟩
  | _ => exact formatZ_eq_command.mpr ⟨rfl, ha, hb⟩

/-- A word decodes to the command that its fields hold, and to no other. -/
theorem decode_eq_command {i : Instr} : decode w = .command i ↔ HoldsCommand w i :=
  ⟨fun h => holdsCommand_of_decodeOp (zField_of_decode h) (by rwa [decode, if_pos (zField_of_decode h)] at h),
    fun h => (if_pos h.z).trans h.decodeOp_eq⟩

/-- The operands of a well-formed command fit their fields, so its word holds it. -/
theorem holdsCommand_encode {i : Instr} (h : i.wf = true) : HoldsCommand (encode i) i := by
  obtain ⟨ha, hb⟩ := i.wf_iff.mp h
  have ho := opcode_lt i
  rw [encode_eq_wordOf]
  exact ⟨opField_wordOf ho ha hb, aField_wordOf ho ha hb, bField_wordOf ho ha hb, zField_wordOf ho ha hb⟩

theorem HoldsCommand.wf {i : Instr} (h : HoldsCommand w i) : i.wf = true :=
  i.wf_iff.mpr ⟨h.a ▸ aField_lt w, h.b ▸ bField_lt w⟩

theorem HoldsCommand.encode_eq {i : Instr} (h : HoldsCommand w i) : encode i = w := by
  rw [encode_eq_wordOf, ← h.op, ← h.a, ← h.b, wordOf_fields h.z]

/-! ## The rows of the opcode map (R93) -/

/-- A word is the word of its fields: equal fields make equal words. -/
theorem word_eq_iff_fields {v : Word} :
    w = v ↔ opField w = opField v ∧ aField w = aField v ∧ bField w = bField v ∧ zField w = zField v := by
  refine ⟨by rintro rfl; exact ⟨rfl, rfl, rfl, rfl⟩, fun ⟨ho, ha, hb, hz⟩ => BitVec.eq_of_toNat_eq ?_⟩
  have hw := w.isLt
  have hv := v.isLt
  simp only [opField_eq, aField_eq, bField_eq, zField_eq] at ho ha hb hz
  omega

@[simp] theorem opField_and (w m : Word) : opField (w &&& m) = opField w &&& opField m := by
  simp [opField, BitVec.extractLsb'_and]

@[simp] theorem aField_and (w m : Word) : aField (w &&& m) = aField w &&& aField m := by
  simp [aField, BitVec.extractLsb'_and]

@[simp] theorem bField_and (w m : Word) : bField (w &&& m) = bField w &&& bField m := by
  simp [bField, BitVec.extractLsb'_and]

@[simp] theorem zField_and (w m : Word) : zField (w &&& m) = zField w &&& zField m := by
  simp [zField, BitVec.extractLsb'_and]

/-- Every row fixes all of `OP` and `Z`, and asks for 0 wherever it fixes a bit of another field. -/
theorem opcodeMap_fields : ∀ r ∈ opcodeMap, opField r.mask = 2 ^ 8 - 1 ∧ zField r.mask = 2 ^ 10 - 1 ∧
    aField r.pattern = 0 ∧ bField r.pattern = 0 ∧ zField r.pattern = 0 := by decide

/-- A row matches the words of its opcode whose operand fields are 0 in the row's mask. -/
theorem row_matches_iff_fields {r : OpcodeRow} (hr : r ∈ opcodeMap) :
    w &&& r.mask = r.pattern ↔
      opField w = opField r.pattern ∧ aField w &&& aField r.mask = 0 ∧ bField w &&& bField r.mask = 0 ∧
        zField w = 0 := by
  obtain ⟨hmo, hmz, ha, hb, hz⟩ := opcodeMap_fields r hr
  rw [word_eq_iff_fields, opField_and, aField_and, bField_and, zField_and, hmo, hmz, ha, hb, hz,
    Nat.and_two_pow_sub_one_of_lt_two_pow (opField_lt w), Nat.and_two_pow_sub_one_of_lt_two_pow (zField_lt w)]

/-- A row of a command's name has the command's opcode, and its mask covers no bit the command's operands set. -/
theorem Instr.row_fields {i : Instr} : ∀ r ∈ opcodeMap, i.mnemonic = r.mnemonic →
    opField r.pattern = opcode i ∧ i.aOperand &&& aField r.mask = 0 ∧ i.bOperand &&& bField r.mask = 0 := by
  cases i with
  | brRead => simp [opcodeMap, mnemonic, opField, opcode, aOperand, bField]
  | cbBuild | cbDecode | cbDecodeVq => simp [opcodeMap, mnemonic, opField, opcode, bOperand, aField]
  | imdct _ f => cases f <;> simp [opcodeMap, mnemonic, opField, opcode, bOperand, sizeBit, aField, bField]
  | ola f nf =>
    cases f <;> cases nf <;> simp [opcodeMap, mnemonic, opField, opcode, aOperand, bOperand, sizeBit, bField]
  | _ => simp [opcodeMap, mnemonic, opField, opcode, aOperand, bOperand]

/-- Operand fields that are 0 in a row's mask are the operands of a command of the row. -/
theorem exists_command_of_row {a b : Nat} (ha : a < 2 ^ 8) (hb : b < 2 ^ 6) : ∀ r ∈ opcodeMap,
    a &&& aField r.mask = 0 → b &&& bField r.mask = 0 →
    ∃ i : Instr, i.mnemonic = r.mnemonic ∧ opField r.pattern = opcode i ∧ a = i.aOperand ∧ b = i.bOperand := by
  have hA (h : a &&& (2 ^ 8 - 1) = 0) : a = 0 := by rwa [Nat.and_two_pow_sub_one_of_lt_two_pow ha] at h
  have hB (h : b &&& (2 ^ 6 - 1) = 0) : b = 0 := by rwa [Nat.and_two_pow_sub_one_of_lt_two_pow hb] at h
  have hT (h : b &&& 0x3E = 0) : b = sizeBit (flagSize b) :=
    sizeBit_eq_iff.mpr ⟨(by decide : ∀ b < 2 ^ 6, b &&& 0x3E = 0 → b < 2) b hb h, rfl⟩
  have hW (h : b &&& 0x3C = 0) : b = sizeBit (flagSize b) + 2 * sizeBit (flagSize (b / 2)) :=
    sizeBits_eq_iff.mpr ⟨(by decide : ∀ b < 2 ^ 6, b &&& 0x3C = 0 → b < 4) b hb h, rfl, rfl⟩
  simp only [opcodeMap, List.forall_mem_cons]
  exact ⟨fun h g => ⟨.nop, rfl, rfl, hA h, hB g⟩, fun h g => ⟨.reset, rfl, rfl, hA h, hB g⟩,
    fun h g => ⟨.commit, rfl, rfl, hA h, hB g⟩, fun h g => ⟨.pktStart, rfl, rfl, hA h, hB g⟩,
    fun h _ => ⟨.brRead b, rfl, rfl, hA h, rfl⟩, fun h g => ⟨.brRead1, rfl, rfl, hA h, hB g⟩,
    fun _ g => ⟨.cbBuild a, rfl, rfl, rfl, hB g⟩, fun _ g => ⟨.cbDecode a, rfl, rfl, rfl, hB g⟩,
    fun _ g => ⟨.cbDecodeVq a, rfl, rfl, rfl, hB g⟩, fun _ g => ⟨.imdct a (flagSize b), rfl, rfl, rfl, hT g⟩,
    fun h g => ⟨.ola (flagSize b) (flagSize (b / 2)), rfl, rfl, hA h, hW g⟩,
    fun h g => ⟨.olaReset, rfl, rfl, hA h, hB g⟩, nofun⟩

theorem Instr.exists_row (i : Instr) : ∃ r ∈ opcodeMap, i.mnemonic = r.mnemonic := by
  cases i <;> simp [opcodeMap, Instr.mnemonic]

/-- A row matches exactly the words that hold a command of the row. -/
theorem row_matches_iff_decode {r : OpcodeRow} (hr : r ∈ opcodeMap) :
    w &&& r.mask = r.pattern ↔ ∃ i, decode w = .command i ∧ i.mnemonic = r.mnemonic := by
  simp only [row_matches_iff_fields hr, decode_eq_command]
  constructor
  · rintro ⟨hop, ha, hb, hz⟩
    obtain ⟨i, hi, hiop, hia, hib⟩ := exists_command_of_row (aField_lt w) (bField_lt w) r hr ha hb
    exact ⟨i, ⟨hop.trans hiop, hia, hib, hz⟩, hi⟩
  · rintro ⟨i, ⟨hop, ha, hb, hz⟩, hi⟩
    obtain ⟨hrop, hra, hrb⟩ := Instr.row_fields r hr hi
    exact ⟨hop.trans hrop.symm, ha ▸ hra, hb ▸ hrb, hz⟩

/-- A word is illegal exactly when no row matches it (R94). -/
theorem no_row_matches_iff : (∀ r ∈ opcodeMap, w &&& r.mask ≠ r.pattern) ↔ ∃ why, decode w = .illegal why := by
  constructor
  · intro h
    cases hd : decode w with
    | illegal why => exact ⟨why, rfl⟩
    | command i =>
      obtain ⟨r, hr, hi⟩ := i.exists_row
      exact absurd ((row_matches_iff_decode hr).mpr ⟨i, hd, hi⟩) (h r hr)
  · rintro ⟨why, hd⟩ r hr hm
    obtain ⟨i, hi, -⟩ := (row_matches_iff_decode hr).mp hm
    cases hd.symm.trans hi

end Sys2Proof

namespace Sys2Proof.Machine

/-! ## The obligations -/

/-- Settles O1: the word's fields hold the command, since the operands fit them. -/
theorem decodeUndoesEncode : Obligations.DecodeUndoesEncode := by
  intro i hi
  exact decode_eq_command.mpr (holdsCommand_encode hi)

/-- Settles O2: the decoder reads every field, and a word is its fields put together. -/
theorem encodeUndoesDecode : Obligations.EncodeUndoesDecode := by
  intro w i h
  have hw := decode_eq_command.mp h
  exact ⟨hw.wf, hw.encode_eq⟩

/-- Settles O3: row by row in the fields of the word. -/
theorem opcodeMapDecidesDecoding : Obligations.OpcodeMapDecidesDecoding :=
  ⟨fun _ hr _ => row_matches_iff_decode hr, fun _ => no_row_matches_iff⟩

/-- Settles O4, by evaluation. -/
theorem writtenOutWordsDecode : Obligations.WrittenOutWordsDecode := by
  unfold Obligations.WrittenOutWordsDecode
  decide

/-- Settles O5: a word that no row matches is illegal, and the command port takes it as an error. -/
theorem illegalWordChangesOnlyErr : Obligations.IllegalWordChangesOnlyErr := by
  intro s w h
  obtain ⟨why, hw⟩ := no_row_matches_iff.mp h
  exact ⟨runCommand_of_illegal hw s, rfl⟩

end Sys2Proof.Machine
end

section
/-! SUPPORT. The bit reader's commands (R121 to R124): a read of bits into `RESULT` as one equation when the bits are
there and one when they are not, and the two commands as such a read. -/

namespace Sys2Proof.Machine

variable {s : State} {n : Nat}

/-! ## A read of bits into `RESULT` (R122, R123) -/

/-- A read past the end of the packet takes the error and consumes nothing. -/
theorem State.readResult_of_lt (h : s.packetBits < s.bitpos.toNat + n) :
    s.readResult n = s.raise .unexpectedEof := by
  rw [State.readResult, s.readBits_eq_none.mpr h]

/-- A read inside the packet returns the value of its bits and moves the cursor past them. -/
theorem State.readResult_of_le (h : s.bitpos.toNat + n ≤ s.packetBits) :
    s.readResult n = { s.seek (s.bitpos.toNat + n) with
      result := BitVec.ofNat 32 (s.bitsValue s.bitpos.toNat n) }.succeed := by
  rw [State.readResult, s.readBits_of_le h]

/-- Bit j of the word that holds n bits read is the j-th of them. -/
theorem State.getLsbD_bitsValue (s : State) (p n : Nat) {j : Nat} (hj : j < 32) :
    (BitVec.ofNat 32 (s.bitsValue p n)).getLsbD j = (decide (j < n) && s.pktBit (p + j)) := by
  rw [BitVec.getLsbD_ofNat, s.testBit_bitsValue, decide_eq_true hj, Bool.true_and]

@[simp] theorem State.bitsValue_one (s : State) (p : Nat) : s.bitsValue p 1 = (s.pktBit p).toNat := by
  simp [State.bitsValue]

/-- A position in the packet fits the cursor's register when the number of the packet's bits does. -/
theorem State.toNat_ofNat_of_le_packetBits {p : Nat} (hp : p ≤ s.packetBits) (hfit : s.packetBits < 2 ^ 32) :
    (BitVec.ofNat 32 p).toNat = p :=
  Nat.mod_eq_of_lt (hp.trans_lt hfit)

/-! ## The commands -/

theorem exec_pktStart_of_le (h : s.pktLen.toNat ≤ s.cfg.pktcap) :
    exec .pktStart s = .next { s with plen := s.pktLen, bitpos := 0 }.succeed :=
  congrArg Host.Outcome.next (if_neg h.not_gt)

theorem exec_pktStart_of_lt (h : s.cfg.pktcap < s.pktLen.toNat) :
    exec .pktStart s = .next (s.raise .badOperand) :=
  congrArg Host.Outcome.next (if_pos h)

theorem exec_brRead_of_lt (h : 32 < n) : exec (.brRead n) s = .next (s.raise .badOperand) :=
  congrArg Host.Outcome.next (if_pos h)

theorem exec_brRead_of_le (h : n ≤ 32) : exec (.brRead n) s = .next (s.readResult n) :=
  congrArg Host.Outcome.next (if_neg h.not_gt)

theorem exec_brRead1 (s : State) : exec .brRead1 s = .next (s.readResult 1) := rfl

/-! ## The obligations -/

/-- Settles O29: the word is that of the command's encoding, and a read inside the packet returns `bitsValue`. -/
theorem brReadReturnsTheNextBits : Obligations.BrReadReturnsTheNextBits := by
  refine ⟨fun n hn => decodeUndoesEncode (.brRead n) (decide_eq_true hn), fun s n => ⟨exec_brRead_of_lt, ?_, ?_⟩⟩
  · intro hn hend
    rw [exec_brRead_of_le hn, State.readResult_of_lt hend]
    rfl
  · intro hn hend hfit
    rw [exec_brRead_of_le hn, State.readResult_of_le hend]
    exact ⟨_, _, rfl, State.toNat_ofNat_of_le_packetBits hend hfit, fun _ => s.getLsbD_bitsValue _ n⟩

/-- Settles O30: both commands read one bit into `RESULT`. -/
theorem brRead1IsBrReadOfOne : Obligations.BrRead1IsBrReadOfOne := by
  refine ⟨decodeUndoesEncode .brRead1 rfl, fun s => ⟨?_, ?_, ?_⟩⟩
  · rw [exec_brRead1, exec_brRead_of_le (by decide)]
  · intro hend
    rw [exec_brRead1, State.readResult_of_lt hend]
    rfl
  · intro hend hfit
    rw [exec_brRead1, State.readResult_of_le hend]
    refine ⟨_, _, rfl, State.toNat_ofNat_of_le_packetBits hend hfit, ?_⟩
    have hbit := (s.pktBit s.bitpos.toNat).toNat_lt
    rw [State.bitsValue_one, BitVec.toNat_ofNat, Nat.mod_eq_of_lt (by omega)]

/-- Settles O28: the two sides of the command's one check. -/
theorem pktStartLatchesTheLength : Obligations.PktStartLatchesTheLength :=
  ⟨decodeUndoesEncode .pktStart rfl, fun _ => ⟨exec_pktStart_of_le, exec_pktStart_of_lt⟩⟩

end Sys2Proof.Machine
end

section
/-! SUPPORT. Building a codebook (R141 to R147): when each code assignment runs out of code space, which symbols its
table holds, and the record that `CB_BUILD` makes of the staging registers and memories. -/

namespace Sys2Proof.Machine

open Sys2Proof.Config

/-! ## How much of the code space a list of lengths asks for (R144) -/

/-- The Kraft sum of the nonzero lengths, in units of 2^-32. -/
def lengthSum (lens : List Nat) : Nat := ((lens.filter fun l => l != 0).map fun l => 2 ^ (32 - l)).sum

/-- The used symbols in symbol order (U14). -/
def usedInOrder (lens : List Nat) : List UsedSym := lens.zipIdx.filter fun p => p.1 != 0

theorem kraftSum_cons (u : UsedSym) (used : List UsedSym) :
    kraftSum (u :: used) = 2 ^ (32 - u.1) + kraftSum used := by
  simp [kraftSum]

theorem mem_usedInOrder {lens : List Nat} {l y : Nat} : (l, y) ∈ usedInOrder lens ↔ l ≠ 0 ∧ lens[y]? = some l := by
  simp [usedInOrder, List.mem_zipIdx_iff_getElem?, and_comm]

theorem usedInOrder_len_le {lens : List Nat} (hl : ∀ l ∈ lens, l ≤ 32) : ∀ u ∈ usedInOrder lens, u.1 ≤ 32 :=
  fun _ hu => hl _ (List.mem_of_getElem? (mem_usedInOrder.mp hu).2)

theorem kraftSum_usedInOrder (lens : List Nat) : kraftSum (usedInOrder lens) = lengthSum lens := by
  have h : (usedInOrder lens).map Prod.fst = lens.filter fun l => l != 0 := by
    conv_rhs => rw [← List.zipIdx_map_fst 0 lens, List.filter_map]
    rfl
  rw [lengthSum, ← h, kraftSum, List.map_map]
  rfl

/-- Both assignments give codes to the same symbols. -/
theorem usedSorted_perm_usedInOrder {lens : List Nat} (hl : ∀ l ∈ lens, l ≤ 32) :
    (usedSorted lens).Perm (usedInOrder lens) := by
  have hsorted : (usedSorted lens).Nodup :=
    (usedSorted_pairwise lens).imp fun h => by rintro rfl; rcases h with h | ⟨-, h⟩ <;> exact lt_irrefl _ h
  have horder : (usedInOrder lens).Nodup :=
    ((zipIdx_pairwise_snd_lt lens).filter _).imp fun h => by rintro rfl; exact lt_irrefl _ h
  refine (List.perm_ext_iff_of_nodup hsorted horder).mpr fun ⟨l, y⟩ => ?_
  rw [mem_usedSorted, mem_usedInOrder]
  refine ⟨fun ⟨h1, _, hy⟩ => ⟨by omega, hy⟩, fun ⟨h0, hy⟩ => ⟨by omega, hl l (List.mem_of_getElem? hy), hy⟩⟩

theorem kraftSum_usedSorted {lens : List Nat} (hl : ∀ l ∈ lens, l ≤ 32) :
    kraftSum (usedSorted lens) = lengthSum lens := by
  rw [← kraftSum_usedInOrder]
  exact ((usedSorted_perm_usedInOrder hl).map _).sum_nat

/-! ## The normative assignment -/

theorem sortedTable_eq_none_iff {lens : List Nat} (hl : ∀ l ∈ lens, l ≤ 32) :
    sortedTable lens = none ↔ 2 ^ 32 < lengthSum lens := by
  simp only [sortedTable, kraftSum_usedSorted hl]
  split <;> simp_all

theorem sortedTable_eq_some {lens : List Nat} {tab : List CodeEntry} (h : sortedTable lens = some tab) :
    tab = assignCodes (usedSorted lens) := by
  rw [sortedTable] at h
  split at h
  · cases h
  · exact (Option.some.inj h).symm

/-- The code that follows another under `SORTED` (R143). -/
def NextCode (e e' : CodeEntry) : Prop := e'.code = (e.code + 1) * 2 ^ (e'.len - e.len)

theorem assignAfter_isChain (used : List UsedSym) (l c y : Nat) :
    (⟨l, c, y⟩ :: assignAfter l c used).IsChain NextCode := by
  induction used generalizing l c y with
  | nil => exact .singleton _
  | cons u used ih => exact .cons_cons rfl (ih _ _ _)

theorem assignCodes_isChain (used : List UsedSym) : (assignCodes used).IsChain NextCode := by
  cases used with
  | nil => exact .nil
  | cons u used => exact assignAfter_isChain used _ _ _

theorem assignCodes_first {used : List UsedSym} {e : CodeEntry} (h : (assignCodes used)[0]? = some e) : e.code = 0 := by
  cases used with
  | nil => cases h
  | cons u used => cases h; rfl

/-- Tiling codes stand where the codes before them end. -/
theorem Tiles.start {tab : List CodeEntry} {p i : Nat} {e : CodeEntry} (h : Tiles p tab) (he : tab[i]? = some e) :
    e.code * 2 ^ (32 - e.len) = p + tabSum (tab.take i) := by
  induction tab generalizing p i with
  | nil => cases he
  | cons a tab ih =>
    obtain ⟨ha, htab⟩ := h
    cases i with
    | zero => cases he; exact ha
    | succ i =>
      have hsum : tabSum (List.take (i + 1) (a :: tab)) = 2 ^ (32 - a.len) + tabSum (tab.take i) := by simp [tabSum]
      rw [ih htab he, hsum, Nat.add_assoc]

/-! ## The alternative assignment: the space its free nodes hold (U14) -/

/-- The depths below the root that have a free node. -/
def Avail.depths (avail : Avail) : Finset Nat := (Finset.Ioc 0 32).filter fun y => (avail[y]?.join).isSome

/-- How much of the code space the free nodes hold, in units of 2^-32. -/
def Avail.space (avail : Avail) : Nat := ∑ y ∈ avail.depths, 2 ^ (32 - y)

theorem Avail.mem_depths {avail : Avail} {y : Nat} :
    y ∈ avail.depths ↔ (0 < y ∧ y ≤ 32) ∧ ∃ r, avail.Free y r := by
  simp [Avail.depths, Avail.Free, Option.isSome_iff_exists, Option.join_eq_some_iff]

/-- One node at each depth after z up to l, and one more at l, make up a node at z. -/
theorem sum_space_between {z l : Nat} (hzl : z ≤ l) (hl : l ≤ 32) :
    ∑ y ∈ Finset.Ioc z l, 2 ^ (32 - y) + 2 ^ (32 - l) = 2 ^ (32 - z) := by
  induction l, hzl using Nat.le_induction with
  | base => simp
  | succ l hzl ih =>
    have hpow : 2 ^ (32 - l) = 2 ^ (32 - (l + 1)) + 2 ^ (32 - (l + 1)) := by
      rw [← Nat.two_mul, ← Nat.pow_succ']; congr 1; omega
    rw [Finset.sum_Ioc_succ_top hzl, ← ih (by omega), hpow]
    omega

section
variable {avail : Avail} {z r l : Nat}

theorem Avail.deepest_eq_none (h : avail.deepest l = none) {y q : Nat} (hy : 0 < y) (hyl : y ≤ l) :
    ¬ avail.Free y q := by
  induction l with
  | zero => omega
  | succ l ih =>
    rw [Avail.deepest] at h
    split at h
    · cases h
    · next hno =>
      rcases Nat.le_succ_iff.mp hyl with hle | rfl
      · exact ih h hle
      · exact hno q

/-- The node that a code is taken from is the deepest one not below the code (U14). -/
theorem Avail.deepest_deepest (h : avail.deepest l = some (z, r)) :
    0 < z ∧ ∀ y q, z < y → y ≤ l → ¬ avail.Free y q := by
  induction l with
  | zero => cases h
  | succ l ih =>
    rw [Avail.deepest] at h
    split at h
    · cases h; exact ⟨Nat.succ_pos l, fun y q hz hy => by omega⟩
    · next hno =>
      obtain ⟨hz, hdeep⟩ := ih h
      refine ⟨hz, fun y q hzy hyl => ?_⟩
      rcases Nat.le_succ_iff.mp hyl with hle | rfl
      · exact hdeep y q hzy hle
      · exact hno q

/-- A length finds no node exactly when the free nodes hold too little space for it. -/
theorem Avail.space_lt_of_deepest_none (h : avail.deepest l = none) (hl : l ≤ 32) :
    avail.space < 2 ^ (32 - l) := by
  have hsub : avail.depths ⊆ Finset.Ioc l 32 := fun y hy => by
    obtain ⟨⟨h0, h32⟩, q, hq⟩ := Avail.mem_depths.mp hy
    exact Finset.mem_Ioc.mpr ⟨Nat.lt_of_not_le fun hyl => Avail.deepest_eq_none h h0 hyl hq, h32⟩
  have hle : avail.space ≤ ∑ y ∈ Finset.Ioc l 32, 2 ^ (32 - y) := Finset.sum_le_sum_of_subset hsub
  have hsum := sum_space_between hl le_rfl
  rw [Nat.sub_self, Nat.pow_zero] at hsum
  omega

@[simp] theorem Avail.take_length (avail : Avail) (z r l : Nat) : (avail.take z r l).length = avail.length := by
  simp [Avail.take]

@[simp] theorem Avail.first_length (l : Nat) : (Avail.first l).length = 33 := by simp [Avail.first]

/-- The depths with a free node after a code of length l is taken from the node at depth z. -/
theorem Avail.exists_free_take (hlen : avail.length = 33) {y : Nat} (hy : y ≤ 32) :
    (∃ q, (avail.take z r l).Free y q) ↔ y ≠ z ∧ ((z < y ∧ y ≤ l) ∨ ∃ q, avail.Free y q) := by
  obtain ⟨o, ho⟩ : ∃ o, avail[y]? = some o := ⟨_, List.getElem?_eq_getElem (by omega)⟩
  have htake : (avail.take z r l)[y]? =
      some (if y = z then none else if z < y ∧ y ≤ l then some (r * 2 ^ (y - z) + 1) else o) := by
    simp [Avail.take, List.getElem?_zipIdx, ho]
  simp only [Avail.Free, htake, ho]
  by_cases hyz : y = z
  · simp [hyz]
  · by_cases hmid : z < y ∧ y ≤ l <;> simp [hyz, hmid]

theorem Avail.depths_take (hlen : avail.length = 33) (hl : l ≤ 32) :
    (avail.take z r l).depths = avail.depths.erase z ∪ Finset.Ioc z l := by
  ext y
  rw [Finset.mem_union, Finset.mem_erase, Avail.mem_depths, Avail.mem_depths, Finset.mem_Ioc]
  by_cases hy : 0 < y ∧ y ≤ 32
  · rw [Avail.exists_free_take hlen hy.2]
    by_cases hyz : y = z
    · simp [hyz]
    · simp [hy, hyz, or_comm]
  · simp only [hy, false_and, and_false, false_or, false_iff]
    omega

/-- Taking a code takes its space, and no more, from the free nodes. -/
theorem Avail.space_take (hlen : avail.length = 33) (hl : l ≤ 32) (hd : avail.deepest l = some (z, r)) :
    (avail.take z r l).space + 2 ^ (32 - l) = avail.space := by
  obtain ⟨hz, hzl⟩ := Avail.deepest_eq_some hd
  obtain ⟨hz0, hdeep⟩ := Avail.deepest_deepest hd
  have hmem : z ∈ avail.depths := Avail.mem_depths.mpr ⟨⟨hz0, by omega⟩, r, hz⟩
  have hdisj : Disjoint (avail.depths.erase z) (Finset.Ioc z l) := by
    refine Finset.disjoint_left.mpr fun y hy hyl => ?_
    obtain ⟨-, q, hq⟩ := Avail.mem_depths.mp (Finset.mem_of_mem_erase hy)
    obtain ⟨hzy, hyl⟩ := Finset.mem_Ioc.mp hyl
    exact hdeep y q hzy hyl hq
  rw [Avail.space, Avail.depths_take hlen hl, Finset.sum_union hdisj, Nat.add_assoc, sum_space_between hzl hl]
  exact Finset.sum_erase_add _ _ hmem

/-- The first code takes its space from the whole. -/
theorem Avail.space_first (hl : l ≤ 32) : (Avail.first l).space + 2 ^ (32 - l) = 2 ^ 32 := by
  have hdepths : (Avail.first l).depths = Finset.Ioc 0 l := by
    ext y
    rw [Avail.mem_depths, Finset.mem_Ioc]
    by_cases hy : y < 33
    · simp only [Avail.Free, Avail.first, List.getElem?_map, List.getElem?_range hy, Option.map_some]
      by_cases hyl : 1 ≤ y ∧ y ≤ l <;> simp [hyl] <;> omega
    · omega
  rw [Avail.space, hdepths]
  exact sum_space_between (Nat.zero_le l) hl

end

/-- The remaining symbols get no codes exactly when they ask for more space than is free. -/
theorem firstFitAfter_eq_none_iff {used : List UsedSym} {avail : Avail} (hlen : avail.length = 33)
    (hl : ∀ u ∈ used, u.1 ≤ 32) : firstFitAfter avail used = none ↔ avail.space < kraftSum used := by
  induction used generalizing avail with
  | nil => simp [firstFitAfter, kraftSum]
  | cons u used ih =>
    have hu : u.1 ≤ 32 := hl u List.mem_cons_self
    rw [firstFitAfter, kraftSum_cons]
    cases hd : avail.deepest u.1 with
    | none =>
      have := Avail.space_lt_of_deepest_none hd hu
      simp only [true_iff]
      omega
    | some node =>
      have htake := Avail.space_take hlen hu hd
      have := ih ((avail.take_length node.1 node.2 u.1).trans hlen) fun v hv => hl v (List.mem_cons_of_mem _ hv)
      rw [Option.map_eq_none_iff, this]
      omega

theorem firstFit_eq_none_iff {used : List UsedSym} (hl : ∀ u ∈ used, u.1 ≤ 32) :
    firstFit used = none ↔ 2 ^ 32 < kraftSum used := by
  cases used with
  | nil => simp [firstFit, kraftSum]
  | cons u used =>
    have hspace := Avail.space_first (hl u List.mem_cons_self)
    have := firstFitAfter_eq_none_iff (Avail.first_length u.1) fun v hv => hl v (List.mem_cons_of_mem _ hv)
    rw [firstFit, Option.map_eq_none_iff, this, kraftSum_cons]
    omega

theorem firstFitTable_eq_none_iff {lens : List Nat} (hl : ∀ l ∈ lens, l ≤ 32) :
    firstFitTable lens = none ↔ 2 ^ 32 < lengthSum lens := by
  rw [← kraftSum_usedInOrder, ← firstFit_eq_none_iff (usedInOrder_len_le hl)]
  exact Option.map_eq_none_iff

/-! ## The table under either assignment -/

/-- Both assignments fail exactly on over-subscribed lengths (R144, U14). -/
theorem codeTable_eq_none_iff (rule : CodeAssign) {lens : List Nat} (hl : ∀ l ∈ lens, l ≤ 32) :
    codeTable rule lens = none ↔ 2 ^ 32 < lengthSum lens := by
  cases rule with
  | sorted => exact sortedTable_eq_none_iff hl
  | firstFit => exact firstFitTable_eq_none_iff hl

theorem codeTable_eq_some_of_le (rule : CodeAssign) {lens : List Nat} (hl : ∀ l ∈ lens, l ≤ 32)
    (hsum : lengthSum lens ≤ 2 ^ 32) : ∃ tab, codeTable rule lens = some tab :=
  Option.ne_none_iff_exists'.mp fun h => by
    have := (codeTable_eq_none_iff rule hl).mp h
    omega

theorem exists_code_iff {tab : List CodeEntry} {l y : Nat} :
    (∃ c, (⟨l, c, y⟩ : CodeEntry) ∈ tab) ↔ (l, y) ∈ tab.map CodeEntry.usedSym := by
  rw [List.mem_map]
  constructor
  · rintro ⟨c, hc⟩; exact ⟨_, hc, rfl⟩
  · rintro ⟨⟨l', c, y'⟩, he, heq⟩; cases heq; exact ⟨c, he⟩

/-- The table under either assignment holds one entry for each used symbol and no others (R143, U14). -/
theorem codeTable_symbols {rule : CodeAssign} {lens : List Nat} {tab : List CodeEntry} (hl : ∀ l ∈ lens, l ≤ 32)
    (h : codeTable rule lens = some tab) (l y : Nat) :
    (∃ c, (⟨l, c, y⟩ : CodeEntry) ∈ tab) ↔ l ≠ 0 ∧ lens[y]? = some l := by
  have hl32 (hy : lens[y]? = some l) : l ≤ 32 := hl l (List.mem_of_getElem? hy)
  cases rule with
  | sorted =>
    rw [exists_code_iff, sortedTable_eq_some h, assignCodes_usedSym, mem_usedSorted]
    exact ⟨fun ⟨h1, _, hy⟩ => ⟨by omega, hy⟩, fun ⟨h0, hy⟩ => ⟨by omega, hl32 hy, hy⟩⟩
  | firstFit =>
    obtain ⟨codes, hcodes, rfl⟩ := Option.map_eq_some_iff.mp h
    have hcode : (∃ c, (⟨l, c, y⟩ : CodeEntry) ∈ codes) ↔ l ≠ 0 ∧ lens[y]? = some l := by
      rw [exists_code_iff, firstFit_usedSym hcodes]; exact mem_usedInOrder
    simp only [mem_sortByLength (len := CodeEntry.len), exists_and_right, hcode]
    exact ⟨And.left, fun ⟨h0, hy⟩ => ⟨⟨h0, hy⟩, by omega, hl32 hy⟩⟩

/-! ## Well-formed staging (R142) -/

variable {s t : State} {b : Nat}

theorem lengthSum_eq_sum (lens : List Nat) :
    lengthSum lens = (lens.map fun l => if l = 0 then 0 else 2 ^ (32 - l)).sum := by
  induction lens with
  | nil => rfl
  | cons l lens ih =>
    rw [List.map_cons, List.sum_cons, ← ih, lengthSum, lengthSum, List.filter_cons]
    by_cases h : l = 0 <;> simp [h]

theorem State.lengthSum_stagedLengths (s : State) (e : Nat) :
    lengthSum (s.stagedLengths e) =
      ∑ y ∈ Finset.range e, if s.stagedLen y = 0 then 0 else 2 ^ (32 - s.stagedLen y) := by
  rw [lengthSum_eq_sum, State.stagedLengths, List.map_map]
  rfl

theorem State.forall_mem_stagedLengths (s : State) (e : Nat) :
    (∀ l ∈ s.stagedLengths e, l ≤ 32) ↔ ∀ y < e, s.stagedLen y ≤ 32 := by
  simp [State.stagedLengths, State.stagedLen]

/-- Staging is well formed when its sizes are legal and its lengths have a code table. -/
theorem State.not_stagingMalformed_iff :
    ¬ s.StagingMalformed ↔
      sizesLegal s.cfg s.cbEntries.toNat s.cbDim.toNat s.cbLookup.toNat = true ∧
      (∀ l ∈ s.stagedLengths s.cbEntries.toNat, l ≤ 32) ∧
      lengthSum (s.stagedLengths s.cbEntries.toNat) ≤ 2 ^ 32 := by
  rw [sizesLegal_iff, s.forall_mem_stagedLengths, s.lengthSum_stagedLengths]
  simp only [State.StagingMalformed, not_or, not_and, not_exists, not_lt, not_le]
  constructor
  · rintro ⟨he, hk, hd0, hd, hv, hlen, hsum⟩
    exact ⟨⟨he, hk, fun h => ⟨Nat.pos_of_ne_zero (hd0 h), hd h, hv h⟩⟩, hlen, hsum hlen⟩
  · rintro ⟨⟨he, hk, hvq⟩, hlen, hsum⟩
    exact ⟨he, hk, fun h => (hvq h).1.ne', fun h => (hvq h).2.1, fun h => (hvq h).2.2, hlen, fun _ => hsum⟩

/-- `CB_BUILD` has a record to make exactly of well-formed staging (R142, R144), under either assignment. -/
theorem State.exists_buildBook_iff : (∃ bk, s.buildBook = some bk) ↔ ¬ s.StagingMalformed := by
  rw [State.not_stagingMalformed_iff]
  constructor
  · rintro ⟨bk, hbk⟩
    obtain ⟨hsizes, hlens, tab, htab, -⟩ := s.buildBook_eq_some.mp hbk
    refine ⟨hsizes, hlens, Nat.le_of_not_lt fun hover => ?_⟩
    rw [(codeTable_eq_none_iff _ hlens).mpr hover] at htab
    cases htab
  · rintro ⟨hsizes, hlens, hsum⟩
    obtain ⟨tab, htab⟩ := codeTable_eq_some_of_le s.cfg.codeAssign hlens hsum
    exact ⟨_, s.buildBook_eq_some.mpr ⟨hsizes, hlens, tab, htab, rfl⟩⟩

theorem State.buildBook_of_malformed (h : s.StagingMalformed) : s.buildBook = none :=
  Option.eq_none_iff_forall_ne_some.mpr fun bk hbk => State.exists_buildBook_iff.mp ⟨bk, hbk⟩ h

/-! ## The record (R141, R146) -/

/-- What both assignments say of the record of the staging registers and memories. -/
structure State.RecordOfStaging (s : State) (bk : Book) : Prop where
  ready : bk.ready = true
  ent : bk.ent = s.cbEntries.toNat
  dim : bk.dim = s.cbDim.toNat
  hasVq : bk.hasVq = true ↔ s.cbLookup.toNat = 1
  table : codeTable s.cfg.codeAssign (s.stagedLengths s.cbEntries.toNat) = some bk.tab
  used : ∀ l y, (∃ c, (⟨l, c, y⟩ : CodeEntry) ∈ bk.tab) ↔ y < s.cbEntries.toNat ∧ l ≠ 0 ∧ s.stagedLen y = l
  codes : IsCodeTable (s.stagedLengths s.cbEntries.toNat) bk.tab
  lmax : IsLargestLen bk.tab bk.lmax
  values : s.cbLookup.toNat = 1 → bk.val.length = s.cbEntries.toNat * s.cbDim.toNat ∧
    ∀ i, i < s.cbEntries.toNat * s.cbDim.toNat → bk.val[i]? = some (s.vqstgAt i)
  scalar : s.cbLookup.toNat = 0 → bk.val = []

theorem State.recordOfStaging {bk : Book} (h : s.buildBook = some bk) : s.RecordOfStaging bk := by
  obtain ⟨-, hlens, tab, htab, rfl⟩ := s.buildBook_eq_some.mp h
  exact {
    ready := rfl
    ent := rfl
    dim := rfl
    hasVq := beq_iff_eq
    table := htab
    used := fun l y => by
      rw [codeTable_symbols hlens htab, s.stagedLengths_getElem?, Option.ite_none_right_eq_some, Option.some.injEq]
      exact and_left_comm
    codes := codeTable_isCodeTable hlens htab
    lmax := maxLen_isLargestLen tab
    values := fun hk => by
      refine ⟨by simp [hk], fun i hi => ?_⟩
      simp [hk, State.stagedValues, hi]
    scalar := fun hk => if_neg (by omega) }

theorem State.RecordOfStaging.sortedTableOf {bk : Book} (h : s.RecordOfStaging bk)
    (hrule : s.cfg.codeAssign = .sorted) : s.SortedTableOf bk.tab := by
  have htab := h.table
  rw [hrule] at htab
  have hcodes := sortedTable_eq_some htab
  have hchain : bk.tab.IsChain NextCode := hcodes ▸ assignCodes_isChain _
  refine ⟨h.used, h.codes.order, fun e he => assignCodes_first (hcodes ▸ he), fun i e e' he he' => ?_⟩
  obtain ⟨hi, rfl⟩ := List.getElem?_eq_some_iff.mp he'
  obtain ⟨_, rfl⟩ := List.getElem?_eq_some_iff.mp he
  exact List.isChain_iff_getElem.mp hchain i hi

/-! ## The command -/

theorem State.raise_of_phase {p : Phase} (h : s.status.phase = p) (e : Err) :
    s.raise e = { s with status := ⟨e, p⟩ } := by
  rw [← h]; rfl

theorem State.succeed_of_phase {p : Phase} (h : s.status.phase = p) :
    s.succeed = { s with status := ⟨.ok, p⟩ } := s.raise_of_phase h .ok

theorem exec_cbBuild_of_run (hph : s.status.phase = .run) :
    exec (.cbBuild b) s = .next (s.raise .incompleteHeader) :=
  congrArg Host.Outcome.next (s.requirePhase_of_ne (by simp [hph]) _)

theorem exec_cbBuild_of_no_slot (hph : s.status.phase = .setup) (hb : s.cfg.nbooks ≤ b) :
    exec (.cbBuild b) s = .next (s.raise .badOperand) :=
  congrArg Host.Outcome.next ((s.requirePhase_of_eq hph _).trans (if_pos hb))

theorem exec_cbBuild_of_none (hph : s.status.phase = .setup) (hb : b < s.cfg.nbooks) (hbk : s.buildBook = none) :
    exec (.cbBuild b) s = .next (s.raise .malformedHeader) := by
  refine congrArg Host.Outcome.next ((s.requirePhase_of_eq hph _).trans ((if_neg (by omega)).trans ?_))
  rw [hbk]

theorem exec_cbBuild_of_some {bk : Book} (hph : s.status.phase = .setup) (hb : b < s.cfg.nbooks)
    (hbk : s.buildBook = some bk) : exec (.cbBuild b) s = .next { s with books := s.books.set b bk }.succeed := by
  refine congrArg Host.Outcome.next ((s.requirePhase_of_eq hph _).trans ((if_neg (by omega)).trans ?_))
  rw [hbk]

theorem exec_cbBuild_of_malformed (hph : s.status.phase = .setup) (hb : b < s.cfg.nbooks) (h : s.StagingMalformed) :
    exec (.cbBuild b) s = .next { s with status := ⟨.malformedHeader, .setup⟩ } := by
  rw [exec_cbBuild_of_none hph hb (State.buildBook_of_malformed h), State.raise_of_phase hph]

theorem exec_cbBuild_of_wellFormed (hph : s.status.phase = .setup) (hb : b < s.cfg.nbooks)
    (h : ¬ s.StagingMalformed) :
    ∃ bk, exec (.cbBuild b) s = .next { s with status := ⟨.ok, .setup⟩, books := s.books.set b bk } ∧
      s.RecordOfStaging bk := by
  obtain ⟨bk, hbk⟩ := State.exists_buildBook_iff.mpr h
  refine ⟨bk, ?_, State.recordOfStaging hbk⟩
  rw [exec_cbBuild_of_some hph hb hbk]
  exact congrArg Host.Outcome.next (State.succeed_of_phase (s := { s with books := s.books.set b bk }) hph)

/-- The record is a function of the configuration, the staging registers and memories, and the draws (R155). -/
theorem State.buildBook_congr (hcfg : s.cfg = t.cfg) (he : s.cbEntries = t.cbEntries) (hd : s.cbDim = t.cbDim)
    (hk : s.cbLookup = t.cbLookup) (hlen : s.lenstg = t.lenstg) (hvq : s.vqstg = t.vqstg)
    (hdraws : s.draws = t.draws) : s.buildBook = t.buildBook := by
  have hl : s.stagedLengths = t.stagedLengths := by
    funext n; simp only [State.stagedLengths, State.lenstgAt, State.wordAt, hlen, hdraws]
  have hv : s.stagedValues = t.stagedValues := by
    funext n
    refine congrArg (List.map · (List.range n)) (funext fun i => ?_)
    rw [State.vqstgAt, State.vqstgAt, State.wordAt, State.wordAt, hvq, hdraws]
  simp only [State.buildBook, hcfg, he, hd, hk, hl, hv]

/-! ## The obligations -/

/-- Settles O32: the checks in their order. -/
theorem cbBuildRejectsBadStaging : Obligations.CbBuildRejectsBadStaging := by
  intro s b
  refine ⟨fun hph => ?_, fun hph hb => ?_, fun _ hph hb h => exec_cbBuild_of_malformed hph hb h⟩
  · rw [exec_cbBuild_of_run hph, State.raise_of_phase hph]
  · rw [exec_cbBuild_of_no_slot hph hb, State.raise_of_phase hph]

/-- Settles O33: the record is that of the staging, and under `SORTED` each code follows the one before it. -/
theorem cbBuildMakesTheSortedRecord : Obligations.CbBuildMakesTheSortedRecord := by
  refine ⟨fun b hb => decodeUndoesEncode (.cbBuild b) (decide_eq_true hb), fun s b hrule hph hb h => ?_⟩
  obtain ⟨bk, hexec, hrec⟩ := exec_cbBuild_of_wellFormed hph hb h
  exact ⟨bk, hexec, hrec.ready, hrec.ent, hrec.dim, hrec.hasVq, hrec.sortedTableOf hrule, hrec.lmax, hrec.values,
    hrec.scalar⟩

/-- Settles O34: the codes tile the code space from 0 on. -/
theorem sortedTableIsAPrefixCode : Obligations.SortedTableIsAPrefixCode := by
  intro lens hl
  refine ⟨(sortedTable_eq_none_iff hl).mpr, fun hsum => ?_⟩
  obtain ⟨tab, htab⟩ := codeTable_eq_some_of_le .sorted hl hsum
  have hcodes := sortedTable_isCodeTable htab
  have htiles : Tiles 0 tab := sortedTable_eq_some htab ▸
    assignCodes_tiles (fun _ hu => (mem_usedSorted.mp hu).2.1) (usedSorted_pairwise lens)
  refine ⟨tab, htab, codeTable_symbols hl htab, hcodes.order, hcodes.code_lt, hcodes.prefixCode, fun i e he => ?_⟩
  rw [htiles.start he, Nat.zero_add]
  rfl

/-- Settles O36: the free nodes always hold the code space that is left, so `FIRST_FIT` fails only when it is gone. -/
theorem firstFitBuildsAPrefixCode : Obligations.FirstFitBuildsAPrefixCode := by
  intro s b _ hph hb
  refine ⟨exec_cbBuild_of_malformed hph hb, fun h => ?_⟩
  obtain ⟨bk, hexec, hrec⟩ := exec_cbBuild_of_wellFormed hph hb h
  exact ⟨bk, hexec, hrec.ready, hrec.ent, hrec.dim, hrec.hasVq, hrec.used, hrec.codes.order, hrec.codes.prefixCode,
    hrec.codes.code_lt, hrec.lmax, hrec.values, hrec.scalar⟩

/-- Settles O37: both states fail the same check, or store the same record. -/
theorem cbBuildDependsOnStagingAlone : Obligations.CbBuildDependsOnStagingAlone := by
  intro s t s' t' b hcfg hph he hd hk hlen hvq hdraws hbooks hs ht
  have hbk := State.buildBook_congr hcfg he hd hk hlen hvq hdraws
  cases hp : t.status.phase with
  | run =>
    cases (exec_cbBuild_of_run (hph.trans hp)).symm.trans hs
    cases (exec_cbBuild_of_run hp).symm.trans ht
    exact ⟨by simp [hph], nofun⟩
  | setup =>
    rcases Nat.lt_or_ge b t.cfg.nbooks with hb | hb
    · cases hr : t.buildBook with
      | none =>
        cases (exec_cbBuild_of_none (hph.trans hp) (hcfg ▸ hb) (hbk.trans hr)).symm.trans hs
        cases (exec_cbBuild_of_none hp hb hr).symm.trans ht
        exact ⟨by simp [hph], nofun⟩
      | some bk =>
        cases (exec_cbBuild_of_some (hph.trans hp) (hcfg ▸ hb) (hbk.trans hr)).symm.trans hs
        cases (exec_cbBuild_of_some hp hb hr).symm.trans ht
        exact ⟨by simp [hph], fun _ => by simp [List.getElem?_set, hbooks]⟩
    · cases (exec_cbBuild_of_no_slot (hph.trans hp) (hcfg ▸ hb)).symm.trans hs
      cases (exec_cbBuild_of_no_slot hp hb).symm.trans ht
      exact ⟨by simp [hph], nofun⟩

end Sys2Proof.Machine
end

section
/-! SUPPORT. Decoding symbols (R150 to R155): the walk as what the packet's bits say of it, the two decode commands as
one decode with two ends, and two decodes side by side. -/

namespace Sys2Proof.Machine

open Sys2Proof.Config

variable {s t : State} {b : Nat} {bk : Book}

/-! ## The walk (R150, R151) -/

/-- The first bits of a code that the packet goes on with are those of the code. -/
theorem State.CodeNext.codeAt_eq {e : CodeEntry} (h : s.CodeNext e) (hcode : e.code < 2 ^ e.len) {n : Nat}
    (hn : n ≤ e.len) : s.codeAt s.bitpos.toNat n = e.code / 2 ^ (e.len - n) := by
  obtain ⟨-, hbits⟩ := h
  induction n with
  | zero => exact (Nat.div_eq_of_lt hcode).symm
  | succ n ih =>
    obtain ⟨k, hk⟩ : ∃ k, e.len = n + 1 + k := ⟨e.len - (n + 1), by omega⟩
    have hk' : e.len - n = k + 1 := by omega
    rw [State.codeAt, ih (by omega), hbits n hn, show e.len - 1 - n = k by omega, hk',
      show e.len - (n + 1) = k by omega, Nat.toNat_testBit, Nat.pow_succ, ← Nat.div_div_eq_div_mul]
    exact Nat.div_add_mod _ 2

/-- In a table that meets `PrefixCode`, a code that begins another is that other. -/
theorem PrefixCode.eq_of_codePrefix {tab : List CodeEntry} (h : PrefixCode tab) {a e : CodeEntry} (ha : a ∈ tab)
    (he : e ∈ tab) (hp : CodePrefix a e) : a = e := by
  by_contra hne
  have hsymm : Std.Symm fun a b : CodeEntry => ¬ CodePrefix a b ∧ ¬ CodePrefix b a := ⟨fun _ _ h => h.symm⟩
  exact (List.Pairwise.forall h ha he hne).1 hp

/-- Along the code of an entry, the walk of a record that meets `PrefixCode` ends at the entry (R154). -/
theorem State.CodeNext.walk_eq {e : CodeEntry} (h : s.CodeNext e) (hinv : BookInv s.cfg bk)
    (hpc : PrefixCode bk.tab) (he : e ∈ bk.tab) : s.walk bk = .leaf e.sym (s.bitpos.toNat + e.len) := by
  obtain ⟨hpos, -, hcode, -⟩ := hinv.entries e he
  have hat {n : Nat} (hn : n ≤ e.len) := h.codeAt_eq hcode hn
  have hwhole : s.codeAt s.bitpos.toNat e.len = e.code := by simpa using hat le_rfl
  have hshort {n : Nat} (hno : s.NoCodeWithin bk n) : n < e.len :=
    Nat.lt_of_not_le fun hle => hno e.len hpos hle e he ⟨rfl, hwhole.symm⟩
  have hend : s.bitpos.toNat + e.len ≤ s.packetBits := h.1
  have hmax := hinv.lmax.2.1 e he
  rcases s.walk_cases bk with ⟨n, y, h1, -, -, hw, hf, hno⟩ | ⟨n, -, hlt, -, -, hno⟩ | ⟨-, -, hno⟩
  · obtain ⟨a, ha, hlen, hac, rfl⟩ := findSym_eq_some hf
    have hn : n ≤ e.len := by have := hshort hno; omega
    obtain rfl := hpc.eq_of_codePrefix ha he ⟨by omega, by rw [hac, hat hn, hlen]⟩
    rw [hw, hlen]
  · have := hshort hno; omega
  · have := hshort hno; omega

/-- `LMAX` is the length of an entry, or 0 (R35, R151). -/
theorem BookInv.lmax_le {p : Params} (h : BookInv p bk) : bk.lmax ≤ 32 := by
  obtain ⟨hnil, -, hmax⟩ := h.lmax
  by_cases htab : bk.tab = []
  · rw [hnil htab]; exact Nat.zero_le _
  · obtain ⟨e, he, hlen⟩ := hmax htab
    obtain ⟨-, hle, -⟩ := h.entries e he
    rwa [← hlen]

/-- A walk that meets no code takes `LMAX` bits when the packet has them (R151). -/
theorem State.walk_eq_noLeaf (hend : s.bitpos.toNat + bk.lmax ≤ s.packetBits) (hno : s.NoCodeWithin bk bk.lmax) :
    s.walk bk = .noLeaf (s.bitpos.toNat + bk.lmax) := by
  rcases s.walk_cases bk with ⟨n, y, h1, hn, -, -, hf, -⟩ | ⟨n, hn, hlt, -, -, -⟩ | ⟨-, hw, -⟩
  · obtain ⟨e, he, hlen, hcode, -⟩ := findSym_eq_some hf
    exact absurd ⟨hlen, hcode⟩ (hno n h1 hn e he)
  · omega
  · exact hw

/-- A walk that meets no code before the packet ends stops at the packet's end (R151). -/
theorem State.walk_eq_packetEnd (hpos : s.bitpos.toNat ≤ s.packetBits)
    (hend : s.packetBits < s.bitpos.toNat + bk.lmax)
    (hno : s.NoCodeWithin bk (s.packetBits - s.bitpos.toNat)) : s.walk bk = .packetEnd s.packetBits := by
  rcases s.walk_cases bk with ⟨n, y, h1, -, hn, -, hf, -⟩ | ⟨n, -, hlt, hle, hw, -⟩ | ⟨hle, -, -⟩
  · obtain ⟨e, he, hlen, hcode, -⟩ := findSym_eq_some hf
    exact absurd ⟨hlen, hcode⟩ (hno n h1 (by omega) e he)
  · rw [hw]; congr 1; omega
  · omega

/-- A symbol that the walk finds is that of an entry (R150). -/
theorem State.exists_entry_of_walk {y p : Nat} (h : s.walk bk = .leaf y p) : ∃ e ∈ bk.tab, e.sym = y := by
  rcases s.walk_cases bk with ⟨n, y', -, -, -, hw, hf, -⟩ | ⟨n, -, -, -, hw, -⟩ | ⟨-, hw, -⟩ <;>
    cases hw.symm.trans h
  obtain ⟨e, he, -, -, hsym⟩ := findSym_eq_some hf
  exact ⟨e, he, hsym⟩

theorem State.walkFrom_congr (hbits : s.packetBits = t.packetBits) (hbit : ∀ p, s.pktBit p = t.pktBit p)
    (tab : List CodeEntry) (fuel l acc pos : Nat) :
    s.walkFrom tab fuel l acc pos = t.walkFrom tab fuel l acc pos := by
  induction fuel generalizing l acc pos with
  | zero => rfl
  | succ fuel ih => simp only [State.walkFrom, hbits, hbit, ih]

/-- The walk is a function of the record, the packet, the cursor and the draws (R155). -/
theorem State.walk_congr (hpkt : s.pkt = t.pkt) (hplen : s.plen = t.plen) (hpos : s.bitpos = t.bitpos)
    (hdraws : s.draws = t.draws) (bk : Book) : s.walk bk = t.walk bk := by
  have hbit (p : Nat) : s.pktBit p = t.pktBit p := by simp only [State.pktBit, State.pktAt, hpkt, hdraws]
  have hbits : s.packetBits = t.packetBits := congrArg (8 * ·.toNat) hplen
  rw [State.walk, State.walk, hpos]
  exact State.walkFrom_congr hbits hbit _ _ _ _ _

/-! ## The vector of a symbol (R35, R152) -/

/-- The vector of a symbol of the book lies whole in its value table. -/
theorem BookInv.vector_length {p : Params} (h : BookInv p bk) (hvq : bk.hasVq = true) {y : Nat} (hy : y < bk.ent) :
    (bk.vector y).length = bk.dim := by
  obtain ⟨-, -, hval⟩ := h.vq hvq
  have hrow : y * bk.dim + bk.dim ≤ bk.ent * bk.dim := by rw [← Nat.succ_mul]; exact Nat.mul_le_mul_right _ hy
  rw [Book.vector, List.length_take, List.length_drop, hval]
  omega

theorem Book.vector_getElem? (bk : Book) (y : Nat) {j : Nat} (hj : j < bk.dim) :
    (bk.vector y)[j]? = bk.val[y * bk.dim + j]? := by
  rw [Book.vector, List.getElem?_take_of_lt hj, List.getElem?_drop]

/-- After a whole vector is written from the first word on, the words below the dimension are the vector's. -/
theorem BookInv.get_writtenVector {p : Params} (h : BookInv p bk) (hvq : bk.hasVq = true) {y : Nat} (hy : y < bk.ent)
    (m : Memory Word) {j : Nat} (hj : j < bk.dim) :
    ∃ x, bk.val[y * bk.dim + j]? = some x ∧ (m.setRange 0 (bk.vector y)).get j = some x := by
  have hlen : j < (bk.vector y).length := by rwa [h.vector_length hvq hy]
  refine ⟨(bk.vector y)[j], ?_, ?_⟩
  · rw [← bk.vector_getElem? y hj]; exact List.getElem?_eq_getElem hlen
  · have := m.get_setRange_inside (base := 0) hlen
    rwa [Nat.zero_add] at this

/-! ## The two commands (R150, R152) -/

/-- How `CB_DECODE` ends with a symbol. -/
def State.returnSymbol (y : Nat) (t : State) : State := { t with result := BitVec.ofNat 32 y }.succeed

/-- How `CB_DECODE_VQ` ends with a symbol. -/
def State.returnVector (bk : Book) (y : Nat) (t : State) : State :=
  { t with
    result := BitVec.ofNat 32 y, vecLen := BitVec.ofNat 32 bk.dim, vec := t.vec.setRange 0 (bk.vector y) }.succeed

theorem State.readyBook_of_holds (h : s.Holds b bk) : s.readyBook b = some bk := s.readyBook_eq_some.mpr h

theorem State.readyBook_eq_none_iff : s.readyBook b = none ↔ ∀ bk, ¬ s.Holds b bk :=
  Option.eq_none_iff_forall_ne_some.trans (forall_congr' fun _ => not_congr s.readyBook_eq_some)

/-- `DecodesBy i b bk k`: the command i decodes a symbol with the record bk of slot b, and ends by k. -/
inductive DecodesBy : Instr → Nat → Book → (Nat → State → State) → Prop
  | symbol (b : Nat) (bk : Book) : DecodesBy (.cbDecode b) b bk State.returnSymbol
  | vector (b : Nat) (bk : Book) (hvq : bk.hasVq = true) : DecodesBy (.cbDecodeVq b) b bk (State.returnVector bk)

/-- In `RUN` a decode with a ready record walks it and goes on to the command's end. -/
theorem exec_decode {i : Instr} {k : Nat → State → State} (hi : DecodesBy i b bk k) (hph : s.status.phase = .run)
    (hb : s.readyBook b = some bk) : exec i s = .next (s.decodeWith bk k) := by
  cases hi with
  | symbol =>
    refine congrArg Host.Outcome.next ((s.requirePhase_of_eq hph _).trans ?_)
    rw [hb]; rfl
  | vector _ _ hvq =>
    refine congrArg Host.Outcome.next ((s.requirePhase_of_eq hph _).trans ?_)
    rw [hb]; exact if_pos hvq

theorem exec_decode_of_setup {i : Instr} (hi : i = .cbDecode b ∨ i = .cbDecodeVq b) (hph : s.status.phase = .setup) :
    exec i s = .next (s.raise .incompleteHeader) := by
  have hne : s.status.phase ≠ .run := by simp [hph]
  rcases hi with rfl | rfl <;> exact congrArg Host.Outcome.next (s.requirePhase_of_ne hne _)

theorem exec_decode_of_not_ready {i : Instr} (hi : i = .cbDecode b ∨ i = .cbDecodeVq b)
    (hph : s.status.phase = .run) (hb : s.readyBook b = none) : exec i s = .next (s.raise .badOperand) := by
  rcases hi with rfl | rfl <;> refine congrArg Host.Outcome.next ((s.requirePhase_of_eq hph _).trans ?_) <;> rw [hb]

theorem exec_cbDecodeVq_of_scalar (hph : s.status.phase = .run) (hb : s.readyBook b = some bk)
    (hvq : bk.hasVq = false) : exec (.cbDecodeVq b) s = .next (s.raise .badOperand) := by
  refine congrArg Host.Outcome.next ((s.requirePhase_of_eq hph _).trans ?_)
  rw [hb]; exact if_neg (by simp [hvq])

theorem State.decodeWith_leaf {y p : Nat} (h : s.walk bk = .leaf y p) (k : Nat → State → State) :
    s.decodeWith bk k = k y (s.seek p) := by
  rw [State.decodeWith, h]

theorem State.decodeWith_noLeaf {p : Nat} (h : s.walk bk = .noLeaf p) (k : Nat → State → State) :
    s.decodeWith bk k = (s.seek p).raise .invalidCodeword := by
  rw [State.decodeWith, h]

theorem State.decodeWith_packetEnd {p : Nat} (h : s.walk bk = .packetEnd p) (k : Nat → State → State) :
    s.decodeWith bk k = (s.seek p).raise .unexpectedEof := by
  rw [State.decodeWith, h]

/-! ## Two decodes side by side (R155) -/

/-- The two states do not differ in what a decode shows: the outcome and the cursor, and on success the symbol and, for
`CB_DECODE_VQ` (`vq`), the vector, whose words are all written when the records are well formed (`inv`). -/
structure DecodedAlike (vq inv : Prop) (s t : State) : Prop where
  status : s.status = t.status
  bitpos : s.bitpos = t.bitpos
  result : s.status.err = .ok → s.result = t.result
  vecLen : vq → s.status.err = .ok → s.vecLen = t.vecLen
  vec : vq → s.status.err = .ok → inv → ∀ j, j < s.vecLen.toNat → ∃ x, s.vec.get j = some x ∧ t.vec.get j = some x

/-- Two states that take the same error at the same cursor show the same. -/
theorem DecodedAlike.raise {vq inv : Prop} (hph : s.status.phase = t.status.phase) (hpos : s.bitpos = t.bitpos)
    {e : Err} (he : e ≠ .ok) : DecodedAlike vq inv (s.raise e) (t.raise e) where
  status := by simp [hph]
  bitpos := hpos
  result h := absurd h he
  vecLen _ h := absurd h he
  vec _ h := absurd h he

/-- Two decodes that walk alike show the same when they do so at the symbol found. -/
theorem DecodedAlike.decodeWith {vq inv : Prop} {k : Nat → State → State} (hph : s.status.phase = t.status.phase)
    (hwalk : s.walk bk = t.walk bk)
    (hk : ∀ y p, s.walk bk = .leaf y p → DecodedAlike vq inv (k y (s.seek p)) (k y (t.seek p))) :
    DecodedAlike vq inv (s.decodeWith bk k) (t.decodeWith bk k) := by
  cases hw : s.walk bk with
  | leaf y p => rw [State.decodeWith_leaf hw, State.decodeWith_leaf (hwalk ▸ hw)]; exact hk y p hw
  | packetEnd p =>
    rw [State.decodeWith_packetEnd hw, State.decodeWith_packetEnd (hwalk ▸ hw)]
    exact DecodedAlike.raise (s := s.seek p) (t := t.seek p) hph rfl nofun
  | noLeaf p =>
    rw [State.decodeWith_noLeaf hw, State.decodeWith_noLeaf (hwalk ▸ hw)]
    exact DecodedAlike.raise (s := s.seek p) (t := t.seek p) hph rfl nofun

theorem DecodedAlike.returnSymbol {vq inv : Prop} (hph : s.status.phase = t.status.phase) (hvq : ¬ vq) (y p : Nat) :
    DecodedAlike vq inv ((s.seek p).returnSymbol y) ((t.seek p).returnSymbol y) where
  status := by simp [State.returnSymbol, hph]
  bitpos := rfl
  result _ := rfl
  vecLen h := absurd h hvq
  vec h := absurd h hvq

theorem DecodedAlike.returnVector {vq inv : Prop} (hph : s.status.phase = t.status.phase) (hvq : bk.hasVq = true)
    {y : Nat} (hinv : inv → BookInv s.cfg bk) (hy : ∃ e ∈ bk.tab, e.sym = y) (p : Nat) :
    DecodedAlike vq inv ((s.seek p).returnVector bk y) ((t.seek p).returnVector bk y) where
  status := by simp [State.returnVector, hph]
  bitpos := rfl
  result _ := rfl
  vecLen _ _ := rfl
  vec _ _ hi j hj := by
    obtain ⟨e, he, rfl⟩ := hy
    obtain ⟨-, -, -, hsym⟩ := (hinv hi).entries e he
    have hj : j < bk.dim := hj.trans_le (Nat.mod_le _ _)
    obtain ⟨x, hx, hs⟩ := (hinv hi).get_writtenVector hvq hsym s.vec hj
    obtain ⟨x', hx', ht⟩ := (hinv hi).get_writtenVector hvq hsym t.vec hj
    cases hx.symm.trans hx'
    exact ⟨x, hs, ht⟩

/-- Two states that agree on the phase, the slot and the walk decode alike, by either command. -/
theorem exec_decode_alike {s' t' : State} {i : Instr} (hi : i = .cbDecode b ∨ i = .cbDecodeVq b)
    (hph : s.status.phase = t.status.phase) (hready : s.readyBook b = t.readyBook b)
    (hpos : s.bitpos = t.bitpos) (hwalk : ∀ bk, s.walk bk = t.walk bk) (hs : exec i s = .next s')
    (ht : exec i t = .next t') :
    DecodedAlike (i = .cbDecodeVq b) (∀ bk, s.Holds b bk → BookInv s.cfg bk) s' t' := by
  cases hp : t.status.phase with
  | setup =>
    cases (exec_decode_of_setup hi (hph.trans hp)).symm.trans hs
    cases (exec_decode_of_setup hi hp).symm.trans ht
    exact .raise hph hpos nofun
  | run =>
    cases hb : t.readyBook b with
    | none =>
      cases (exec_decode_of_not_ready hi (hph.trans hp) (hready.trans hb)).symm.trans hs
      cases (exec_decode_of_not_ready hi hp hb).symm.trans ht
      exact .raise hph hpos nofun
    | some bk =>
      have hbs := hready.trans hb
      rcases hi with rfl | rfl
      · cases (exec_decode (.symbol b bk) (hph.trans hp) hbs).symm.trans hs
        cases (exec_decode (.symbol b bk) hp hb).symm.trans ht
        exact .decodeWith hph (hwalk bk) fun y p _ => .returnSymbol hph nofun y p
      · cases hvq : bk.hasVq with
        | true =>
          cases (exec_decode (.vector b bk hvq) (hph.trans hp) hbs).symm.trans hs
          cases (exec_decode (.vector b bk hvq) hp hb).symm.trans ht
          exact .decodeWith hph (hwalk bk) fun y p hw =>
            .returnVector hph hvq (fun hinv => hinv bk (s.readyBook_eq_some.mp hbs)) (State.exists_entry_of_walk hw) p
        | false =>
          cases (exec_cbDecodeVq_of_scalar (hph.trans hp) hbs hvq).symm.trans hs
          cases (exec_cbDecodeVq_of_scalar hp hb hvq).symm.trans ht
          exact .raise hph hpos nofun

/-! ## The obligations -/

/-- Settles O38: the walk along an entry's code meets no other code before it. -/
theorem cbDecodeRoundTrip : Obligations.CbDecodeRoundTrip := by
  refine ⟨fun b hb => decodeUndoesEncode (.cbDecode b) (decide_eq_true hb), ?_⟩
  intro s b bk e hph hb hinv hpc he hnext hfit
  refine ⟨BitVec.ofNat 32 (s.bitpos.toNat + e.len), ?_, State.toNat_ofNat_of_le_packetBits hnext.1 hfit⟩
  rw [exec_decode (.symbol b bk) hph (State.readyBook_of_holds hb), State.decodeWith_leaf (hnext.walk_eq hinv hpc he)]
  exact congrArg Host.Outcome.next (State.succeed_of_phase hph)

/-- Settles O39: the same walk, and the vector lies whole in the value table. -/
theorem cbDecodeVqReturnsTheVector : Obligations.CbDecodeVqReturnsTheVector := by
  refine ⟨fun b hb => decodeUndoesEncode (.cbDecodeVq b) (decide_eq_true hb), ?_⟩
  intro s b bk e hph hb hinv hpc hvq he hnext hfit
  obtain ⟨-, -, -, hsym⟩ := hinv.entries e he
  refine ⟨BitVec.ofNat 32 (s.bitpos.toNat + e.len), s.vec.setRange 0 (bk.vector e.sym), ?_,
    State.toNat_ofNat_of_le_packetBits hnext.1 hfit, fun j hj => hinv.get_writtenVector hvq hsym s.vec hj,
    fun j hj => Memory.get_setRange_outside _ (.inr ?_)⟩
  · rw [exec_decode (.vector b bk hvq) hph (State.readyBook_of_holds hb),
      State.decodeWith_leaf (hnext.walk_eq hinv hpc he)]
    exact congrArg Host.Outcome.next (State.succeed_of_phase hph)
  · rwa [Nat.zero_add, hinv.vector_length hvq hsym]

/-- Settles O41: the walk without a match ends after `LMAX` bits or at the packet's end, whichever comes first. -/
theorem failedWalkKeepsTheCursor : Obligations.FailedWalkKeepsTheCursor := by
  intro s b bk hph hb hpos hfit i hi
  have hready := State.readyBook_of_holds hb
  obtain ⟨k, hk⟩ : ∃ k, DecodesBy i b bk k := by
    rcases hi with rfl | ⟨rfl, hvq⟩
    · exact ⟨_, .symbol b bk⟩
    · exact ⟨_, .vector b bk hvq⟩
  refine ⟨fun hend hno => ?_, fun hend hno => ?_, fun hinv => ?_⟩
  · refine ⟨BitVec.ofNat 32 (s.bitpos.toNat + bk.lmax), ?_, State.toNat_ofNat_of_le_packetBits hend hfit⟩
    rw [exec_decode hk hph hready, State.decodeWith_noLeaf (State.walk_eq_noLeaf hend hno)]
    exact congrArg Host.Outcome.next (State.raise_of_phase (s := s.seek _) hph _)
  · refine ⟨BitVec.ofNat 32 s.packetBits, ?_, State.toNat_ofNat_of_le_packetBits le_rfl hfit⟩
    rw [exec_decode hk hph hready, State.decodeWith_packetEnd (State.walk_eq_packetEnd hpos hend hno)]
    exact congrArg Host.Outcome.next (State.raise_of_phase (s := s.seek _) hph _)
  · exact hinv.lmax_le

/-- Settles O43: the walk reads nothing but the record, the packet and the cursor. -/
theorem decodeDependsOnBookAndPacketAlone : Obligations.DecodeDependsOnBookAndPacketAlone := by
  intro s t s' t' b i hi hslots hph hbook hpkt hplen hpos hdraws hs ht
  have hready : s.readyBook b = t.readyBook b := by rw [State.readyBook, State.readyBook, hslots, hbook]
  have h := exec_decode_alike hi hph hready hpos (State.walk_congr hpkt hplen hpos hdraws) hs ht
  exact ⟨h.status, h.bitpos, h.result, fun hvq hok => ⟨h.vecLen hvq hok, h.vec hvq hok⟩⟩

/-- Settles O40: the checks before the walk. -/
theorem decodeOperandErrors : Obligations.DecodeOperandErrors := by
  intro s b
  refine ⟨fun hph => ?_, fun hph hno => ?_, fun bk hph hb hvq => ?_⟩
  · rw [← State.raise_of_phase hph]
    exact ⟨exec_decode_of_setup (.inl rfl) hph, exec_decode_of_setup (.inr rfl) hph⟩
  · have hnone := State.readyBook_eq_none_iff.mpr hno
    rw [← State.raise_of_phase hph]
    exact ⟨exec_decode_of_not_ready (.inl rfl) hph hnone, exec_decode_of_not_ready (.inr rfl) hph hnone⟩
  · rw [← State.raise_of_phase hph]
    exact exec_cbDecodeVq_of_scalar hph (State.readyBook_of_holds hb) hvq

end Sys2Proof.Machine
end

section
/-! SUPPORT. The control commands and the phase (R180 to R185): how `COMMIT` ends by its checks, what a command's end
says of the phase before and after it, and what a step within `RUN` leaves unchanged. -/

namespace Sys2Proof.Machine

open Sys2Proof.Config

variable {s t : State}

/-! ## `COMMIT` and the configuration it checks (R27, R28, R183) -/

theorem State.bs0Log2_eq_mod (s : State) : s.bs0Log2 = s.blkcfg.toNat % 2 ^ 4 := BitVec.extractLsb'_toNat ..

theorem State.bs1Log2_eq_div_mod (s : State) : s.bs1Log2 = s.blkcfg.toNat / 2 ^ 4 % 2 ^ 4 := by
  rw [State.bs1Log2, BitVec.extractLsb'_toNat, Nat.shiftRight_eq_div_pow]

theorem State.channels_eq_mod (s : State) : s.channels = s.nch.toNat % 2 ^ 8 := BitVec.extractLsb'_toNat ..

theorem exec_commit_of_run (hph : s.status.phase = .run) : exec .commit s = .next (s.raise .incompleteHeader) :=
  congrArg Host.Outcome.next (s.requirePhase_of_ne (by simp [hph]) _)

theorem exec_commit_of_not_legal (hph : s.status.phase = .setup) (hcfg : ¬ s.configLegal = true) :
    exec .commit s = .next (s.raise .malformedHeader) :=
  congrArg Host.Outcome.next ((s.requirePhase_of_eq hph _).trans (if_neg hcfg))

theorem exec_commit_of_legal (hph : s.status.phase = .setup) (hcfg : s.configLegal = true) :
    exec .commit s = .next { s with status := ⟨.ok, .run⟩ } :=
  congrArg Host.Outcome.next ((s.requirePhase_of_eq hph _).trans (if_pos hcfg))

/-! ## The phase a command needs and the phase it leaves (R180, R181) -/

/-- Every command in every state has a next state (R315). -/
theorem exists_exec_eq_next (i : Instr) (s : State) : ∃ t, exec i s = .next t := by
  cases i <;> exact ⟨_, rfl⟩

/-- `IncompleteHeader` is the phase check's error alone: a command takes it exactly in a phase its row forbids. -/
theorem CommandEnd.phase_check {i : Instr} (h : CommandEnd s i t) :
    (allowedIn i s.status.phase = false ∧ t = s.raise .incompleteHeader) ∨
      (allowedIn i s.status.phase = true ∧ t.status.err ≠ .incompleteHeader) := by
  cases h with
  | wrongPhase _ hph => exact .inl ⟨hph, rfl⟩
  | raised _ e hph he => exact .inr ⟨hph, by rcases he with rfl | rfl | rfl <;> exact nofun⟩
  | walkFailed _ _ e hi hph he =>
    refine .inr ⟨?_, by rcases he with rfl | rfl <;> exact nofun⟩
    obtain ⟨b, rfl | rfl⟩ := hi <;> exact decide_eq_true hph
  | bitsRead _ n hi => exact .inr ⟨by rcases hi with ⟨rfl, -⟩ | ⟨rfl, -⟩ <;> rfl, nofun⟩
  | nop | reset | packetStarted => exact .inr ⟨rfl, nofun⟩
  | committed hph | built _ _ hph | decoded _ _ _ _ hph | vectorDecoded _ _ _ _ hph | transformed _ _ hph
  | overlapped _ _ hph | tailForgotten hph => exact .inr ⟨decide_eq_true hph, nofun⟩

/-- A command keeps the phase, or it is a `COMMIT` that succeeds in `SETUP`, or `RESET`. -/
theorem CommandEnd.phase_cases {i : Instr} (h : CommandEnd s i t) :
    t.status.phase = s.status.phase ∨ (i = .commit ∧ s.status.phase = .setup ∧ t.status = ⟨.ok, .run⟩) ∨
      (i = .reset ∧ t.status = ⟨.ok, .setup⟩) := by
  cases h with
  | committed hph => exact .inr (.inl ⟨rfl, hph, rfl⟩)
  | reset => exact .inr (.inr ⟨rfl, rfl⟩)
  | _ => exact .inl rfl

/-! ## What stays throughout `RUN` (R148, R184) -/

/-- The two states have the same block sizes, channel count and codebook records. -/
def SameStream (s t : State) : Prop := t.blkcfg = s.blkcfg ∧ t.nch = s.nch ∧ t.books = s.books

/-- In `RUN` a host write reaches neither the configuration nor a record. -/
theorem hostWrite_sameStream (hph : s.status.phase = .run) (l : Loc) (v : Word) : SameStream s (hostWrite l v s) := by
  have hset : s.status.phase ≠ .setup := by simp [hph]
  cases l with
  | reg i =>
    change SameStream s (writeReg i v s)
    rcases writeReg_cases i v s with e | ⟨hsetup, -⟩ | ⟨hsetup, -⟩ | e | e | e | e
    case inr.inl | inr.inr.inl => exact absurd hsetup hset
    all_goals rw [e]; exact ⟨rfl, rfl, rfl⟩
  | _ => exact ⟨rfl, rfl, rfl⟩

/-- A command from `RUN` to `RUN` is not `RESET` and stores no record. -/
theorem CommandEnd.sameStream {i : Instr} (h : CommandEnd s i t) (hs : s.status.phase = .run)
    (ht : t.status.phase = .run) : SameStream s t := by
  cases h with
  | reset => cases ht
  | built _ _ hsetup => cases hsetup.symm.trans hs
  | _ => exact ⟨rfl, rfl, rfl⟩

theorem performAccess_sameStream {a : Access} (hs : s.status.phase = .run) (h : performAccess a s = .next t)
    (ht : t.status.phase = .run) : SameStream s t := by
  rcases performAccess_cases h with ⟨l, rfl⟩ | ⟨l, v, -, rfl⟩ | ⟨w, hw⟩
  · exact ⟨rfl, rfl, rfl⟩
  · exact hostWrite_sameStream hs l v
  · rcases runCommand_cases hw with rfl | ⟨i, -, hend⟩
    · exact ⟨rfl, rfl, rfl⟩
    · exact hend.sameStream hs ht

/-! ## The obligations -/

/-- Settles O17: `configLegal` is the negation of R183's two causes, read off the fields of `BLKCFG` and `NCH`. -/
theorem commitChecksTheConfiguration : Obligations.CommitChecksTheConfiguration := by
  refine ⟨by decide, ?_⟩
  intro s e0 e1 n he0 he1 hn
  rw [← State.bs0Log2_eq_mod] at he0
  rw [← State.bs1Log2_eq_div_mod] at he1
  rw [← State.channels_eq_mod] at hn
  refine ⟨fun hph => ?_, fun hph hbad => ?_, fun hph h0 h1 h01 hn0 hnmax => ?_⟩
  · rw [exec_commit_of_run hph, State.raise_of_phase hph]
  · have hcfg : ¬ s.configLegal = true := by rw [State.configLegal_iff]; omega
    rw [exec_commit_of_not_legal hph hcfg, State.raise_of_phase hph]
  · exact exec_commit_of_legal hph (State.configLegal_iff.mpr (by omega))

/-- Settles O18: the phase check is the only cause of `IncompleteHeader`. -/
theorem phaseTableDecidesIncompleteHeader : Obligations.PhaseTableDecidesIncompleteHeader := by
  intro i s
  obtain ⟨t, ht⟩ := exists_exec_eq_next i s
  rcases (exec_end ht).phase_check with ⟨hno, rfl⟩ | ⟨hyes, herr⟩
  · exact ⟨fun _ => ht, fun hyes => by simp [hno] at hyes⟩
  · exact ⟨fun hno => by simp [hyes] at hno, fun _ => ⟨t, ht, herr⟩⟩

/-- Settles O19. -/
theorem onlyCommitAndResetChangeThePhase : Obligations.OnlyCommitAndResetChangeThePhase := by
  intro i s t hexec hne
  exact (exec_end hexec).phase_cases.resolve_left hne

/-- Settles O20: neither a host access nor a command from `RUN` to `RUN` reaches the configuration or a record. -/
theorem runFreezesConfigurationAndBooks : Obligations.RunFreezesConfigurationAndBooks := by
  intro s t hs hstep ht
  cases hp : s.pending with
  | nil =>
    cases (step_of_nil hp).symm.trans hstep
    exact ⟨rfl, rfl, rfl⟩
  | cons a rest => exact performAccess_sameStream (s := s.beginAccess rest) hs ((step_of_cons hp).symm.trans hstep) ht

/-- Settles O15: the command is its successful end. -/
theorem nopOnlyClearsErr : Obligations.NopOnlyClearsErr :=
  ⟨by decide, fun _ => rfl⟩

/-- Settles O16: the records after `RESET` are the records before it, each with `READY` cleared. -/
theorem resetDiscardsTheStream : Obligations.ResetDiscardsTheStream := by
  refine ⟨by decide, fun s => ⟨_, rfl, List.length_map _, fun b old hold => ?_⟩⟩
  rw [List.getElem?_map, hold, Option.map_some]

end Sys2Proof.Machine
end

section
/-! SUPPORT. The inverse MDCT (R201 to R207): the reference transform's reflections, what it gives for zeros, and how
`IMDCT` ends. -/

namespace Sys2Proof.Config

open Sys2Proof.Machine

/-! ## The reference transform (R202, R207) -/

/-- The angle of the cosine that `imdctSum` sums. -/
noncomputable def imdctAngle (e n k : Nat) : ℝ :=
  Real.pi / (2 * (2 : ℝ) ^ e) * (2 * n + 1 + (2 : ℝ) ^ e / 2) * (2 * k + 1)

theorem imdctSum_eq (scale : ℝ) (e : Nat) (x : Nat → ℝ) (n : Nat) :
    imdctSum scale e x n = scale * ∑ k ∈ Finset.range (2 ^ e / 2), x k * Real.cos (imdctAngle e n k) := rfl

/-- Two indices placed symmetrically about a multiple of the half block have angles that sum to a multiple of π. -/
theorem imdctAngle_reflect {e n m j : Nat} (h : 2 * (n + m + 1) + 2 ^ e = 2 * j * 2 ^ e) (k : Nat) :
    imdctAngle e m k = ((j * (2 * k + 1) : ℕ) : ℝ) * Real.pi - imdctAngle e n k := by
  have hN : (2 : ℝ) ^ e ≠ 0 := by positivity
  have hsum : (2 : ℝ) * (n + m + 1) + 2 ^ e = 2 * j * 2 ^ e := mod_cast h
  have hj : (j : ℝ) = (2 * (n + m + 1) + 2 ^ e) / (2 * 2 ^ e) := by rw [hsum]; field_simp
  rw [imdctAngle, imdctAngle]
  push_cast
  rw [hj]
  field_simp
  ring

theorem cos_imdctAngle_reflect {e n m j : Nat} (h : 2 * (n + m + 1) + 2 ^ e = 2 * j * 2 ^ e) (k : Nat) :
    Real.cos (imdctAngle e m k) = (-1) ^ j * Real.cos (imdctAngle e n k) := by
  have hodd : (-1 : ℝ) ^ (2 * k + 1) = -1 := Odd.neg_one_pow ⟨k, rfl⟩
  rw [imdctAngle_reflect h, Real.cos_nat_mul_pi_sub, Nat.mul_comm, pow_mul, hodd]

/-- Both symmetries of R207 at once: reflecting the index keeps the output, up to the sign of the reflection. -/
theorem imdctSum_reflect {e n m j : Nat} (h : 2 * (n + m + 1) + 2 ^ e = 2 * j * 2 ^ e) (scale : ℝ) (x : Nat → ℝ) :
    imdctSum scale e x m = (-1) ^ j * imdctSum scale e x n := by
  simp only [imdctSum_eq, cos_imdctAngle_reflect h, mul_left_comm _ ((-1 : ℝ) ^ j), ← Finset.mul_sum]

theorem imdctSum_linear (scale : ℝ) (e : Nat) (x y : Nat → ℝ) (a b : ℝ) (n : Nat) :
    imdctSum scale e (fun k => a * x k + b * y k) n = a * imdctSum scale e x n + b * imdctSum scale e y n := by
  simp only [imdctSum_eq, add_mul, Finset.sum_add_distrib, mul_assoc, ← Finset.mul_sum]
  ring

/-! ## Zeros (R205) -/

theorem magUnits_eq_zero_iff {w : Word} : magUnits w = 0 ↔ isZero w = true := by
  rw [magUnits, isZero]
  split <;> simp [*]

/-- The numerically zero samples are those that stand for 0. -/
theorem sampleValue_eq_zero_iff {w : Word} : sampleValue w = 0 ↔ isZero w = true := by
  have hunit : (2 : ℝ) ^ (-149 : ℤ) ≠ 0 := by positivity
  rw [sampleValue, mul_eq_zero_iff_right hunit, Int.cast_eq_zero, units, ← magUnits_eq_zero_iff]
  split <;> omega

theorem isFinite_of_isZero {w : Word} (h : isZero w = true) : isFinite w = true := by
  simp only [isZero, Bool.and_eq_true, beq_iff_eq] at h
  simp [isFinite, h.1]

variable {X : List Word}

theorem magnitudeSum_of_zeros (h : ∀ w ∈ X, isZero w = true) : magnitudeSum X = 0 := by
  refine List.sum_eq_zero fun v hv => ?_
  obtain ⟨w, hw, rfl⟩ := List.mem_map.mp hv
  rw [sampleValue_eq_zero_iff.mpr (h w hw), abs_zero]

theorem imdctInRange_of_zeros (h : ∀ w ∈ X, isZero w = true) (scale : ℝ) : ImdctInRange scale X := by
  refine ⟨fun w hw => isFinite_of_isZero (h w hw), ?_⟩
  rw [magnitudeSum_of_zeros h, mul_zero]
  positivity

theorem imdctRef_of_zeros (h : ∀ w ∈ X, isZero w = true) (scale : ℝ) (e n : Nat) : imdctRef scale e X n = 0 := by
  have hval (k : Nat) : sampleValue (X.getD k 0) = 0 := by
    refine sampleValue_eq_zero_iff.mpr ?_
    by_cases hk : k < X.length
    · rw [List.getD_eq_getElem X 0 hk]
      exact h _ (List.getElem_mem hk)
    · rw [List.getD_eq_default X 0 (Nat.le_of_not_lt hk)]
      decide
  simp only [imdctRef, imdctSum_eq, hval, zero_mul, Finset.sum_const_zero, mul_zero]

/-! ## The transform unit of a configuration (R203) -/

theorem Params.imdct_getElem? (p : Params) (e : Nat) (X : List Word) {n : Nat} (hn : n < 2 ^ e) :
    (p.imdct e X)[n]? = some (p.imdctUnit.out e X n) := by
  rw [Params.imdct, List.getElem?_map, List.getElem?_range hn, Option.map_some]

end Sys2Proof.Config

namespace Sys2Proof.Machine

open Sys2Proof.Config

variable {s : State} {c : Nat} {f : BlockSize}

/-! ## The command `IMDCT` (R201) -/

@[simp] theorem State.spectrum_length (s : State) (c e : Nat) : (s.spectrum c e).length = 2 ^ e / 2 := by
  simp [State.spectrum]

theorem State.mem_spectrum {e : Nat} {w : Word} : w ∈ s.spectrum c e ↔ ∃ k < 2 ^ e / 2, s.specAt c k = w := by
  simp [State.spectrum]

/-- `TIME` after the transform of channel c at block size f. -/
def State.timeAfter (s : State) (c : Nat) (f : BlockSize) : Memory Word :=
  s.time.setRange (cellKey c 0) (s.cfg.imdct (s.blockLog2 f) (s.spectrum c (s.blockLog2 f)))

theorem exec_imdct_of_setup (hph : s.status.phase = .setup) :
    exec (.imdct c f) s = .next { s with status := ⟨.incompleteHeader, .setup⟩ } := by
  rw [← State.raise_of_phase hph]
  exact congrArg Host.Outcome.next (s.requirePhase_of_ne (by simp [hph]) _)

theorem exec_imdct_of_no_channel (hph : s.status.phase = .run) (hc : s.channels ≤ c) :
    exec (.imdct c f) s = .next { s with status := ⟨.badOperand, .run⟩ } := by
  rw [← State.raise_of_phase hph]
  exact congrArg Host.Outcome.next ((s.requirePhase_of_eq hph _).trans (if_pos hc))

theorem exec_imdct_of_channel (hph : s.status.phase = .run) (hc : c < s.channels) :
    exec (.imdct c f) s = .next { s with status := ⟨.ok, .run⟩, time := s.timeAfter c f } := by
  refine congrArg Host.Outcome.next ((s.requirePhase_of_eq hph _).trans ((if_neg hc.not_ge).trans ?_))
  exact State.succeed_of_phase (s := { s with time := s.timeAfter c f }) hph

/-- Every cell of the row holds the sample of the transform unit. -/
theorem State.get_timeAfter {n : Nat} (hn : n < s.blockSize f) :
    (s.timeAfter c f).get (cellKey c n) =
      some (s.cfg.imdctUnit.out (s.blockLog2 f) (s.spectrum c (s.blockLog2 f)) n) := by
  have hlen : n < (s.cfg.imdct (s.blockLog2 f) (s.spectrum c (s.blockLog2 f))).length := by
    rwa [Params.imdct_length]
  rw [cellKey_add, State.timeAfter, Memory.get_setRange_inside _ hlen, ← List.getElem?_eq_getElem hlen,
    Params.imdct_getElem? _ _ _ hn]

/-- Every cell outside the row is as it was. -/
theorem State.get_timeAfter_outside {a : Nat} (h : a < cellKey c 0 ∨ cellKey c 0 + s.blockSize f ≤ a) :
    (s.timeAfter c f).get a = s.time.get a :=
  Memory.get_setRange_outside _ (by rwa [Params.imdct_length])

/-! ## The obligations -/

/-- Settles O44: past its two checks the command replaces the row of `TIME` that `State.timeAfter` says. -/
theorem imdctWritesTheTransform : Obligations.ImdctWritesTheTransform := by
  refine ⟨fun c hc => ⟨decodeUndoesEncode (.imdct c .short) (decide_eq_true hc), ?_⟩, ?_⟩
  · have hword : encode (.imdct c .long) = BitVec.ofNat 32 (0x00010030 + c * 2 ^ 8) :=
      congrArg (BitVec.ofNat 32) (show 0x30 + c * 2 ^ 8 + 1 * 2 ^ 16 = _ by omega)
    rw [← hword]
    exact decodeUndoesEncode (.imdct c .long) (decide_eq_true hc)
  · intro s c f e he
    obtain rfl : e = s.blockLog2 f := by
      cases f with
      | short => exact he.trans s.bs0Log2_eq_mod.symm
      | long => exact he.trans s.bs1Log2_eq_div_mod.symm
    rw [← State.channels_eq_mod]
    refine ⟨exec_imdct_of_setup, exec_imdct_of_no_channel, fun hph hc => ?_⟩
    refine ⟨s.timeAfter c f, exec_imdct_of_channel hph hc, Params.imdct_length .., fun n hn => ?_,
      fun a ha => State.get_timeAfter_outside ha⟩
    exact (State.get_timeAfter hn).trans (Params.imdct_getElem? _ _ _ hn).symm

/-- Settles O45: the samples written are those of the configuration's unit, whose accuracy is R204's. -/
theorem imdctIsAccurate : Obligations.ImdctIsAccurate := by
  refine ⟨Params.reference_scale, fun p => p.imdctTol_spec.1, fun s c f hph hc he hrange => ?_⟩
  have hacc := s.cfg.imdctTol_spec.2 _ he (Nat.le_of_lt_succ (s.blockLog2_lt f))
  exact ⟨_, exec_imdct_of_channel hph hc, fun n hn =>
    ⟨_, State.get_timeAfter hn, hacc _ (s.spectrum_length c _) hrange n hn⟩⟩

/-- Settles O46: for zeros the bound of R204 is 0 and so is the reference, so every sample stands for 0. -/
theorem imdctOfSilenceIsSilent : Obligations.ImdctOfSilenceIsSilent := by
  intro s c f hph hc he hsilent
  have hzeros : ∀ w ∈ s.spectrum c (s.blockLog2 f), isZero w = true := fun w hw => by
    obtain ⟨k, hk, rfl⟩ := State.mem_spectrum.mp hw
    exact hsilent k hk
  obtain ⟨-, -, haccurate⟩ := imdctIsAccurate
  obtain ⟨t, hexec, hsamples⟩ := haccurate s c f hph hc he (imdctInRange_of_zeros hzeros _)
  refine ⟨t, hexec, fun n hn => ?_⟩
  obtain ⟨y, hy, -, hbound⟩ := hsamples n hn
  rw [imdctRef_of_zeros hzeros, magnitudeSum_of_zeros hzeros, mul_zero, sub_zero, abs_nonpos_iff] at hbound
  exact ⟨y, hy, sampleValue_eq_zero_iff.mp hbound⟩

/-- Settles O47: the symmetries are the reflections about π and about 2π. -/
theorem referenceTransformSymmetries : Obligations.ReferenceTransformSymmetries := by
  intro scale e he
  have hhalf : 2 ^ e = 2 * (2 ^ e / 2) := (Nat.mul_div_cancel' (dvd_pow_self 2 (by omega))).symm
  refine ⟨fun x n hn => ⟨?_, ?_⟩, imdctSum_linear scale e⟩
  · have h := imdctSum_reflect (e := e) (n := n) (m := 2 ^ e / 2 - 1 - n) (j := 1) (by omega) scale x
    rwa [pow_one, neg_one_mul] at h
  · have h := imdctSum_reflect (e := e) (n := 2 ^ e / 2 + n) (m := 2 ^ e - 1 - n) (j := 2) (by omega) scale x
    rwa [neg_one_sq, one_mul] at h

end Sys2Proof.Machine
end

section
/-! SUPPORT. Sample arithmetic (R221 to R223): the kinds of samples, what it means that a sample is a number rounded once,
and that `fadd` and `fmul` round the exact sum and product. -/

namespace Sys2Proof.Machine

open Sys2Proof.Config

variable {a b d w y : Word} {n q sc : Nat}

/-! ## The kinds of samples -/

theorem isNaN_iff : isNaN w = true ↔ floatExp w = 255 ∧ floatFrac w ≠ 0 := by simp [isNaN]

theorem isInf_iff : isInf w = true ↔ floatExp w = 255 ∧ floatFrac w = 0 := by simp [isInf]

theorem isFinite_iff : isFinite w = true ↔ floatExp w ≠ 255 := by simp [isFinite]

theorem isZero_iff : isZero w = true ↔ floatExp w = 0 ∧ floatFrac w = 0 := by simp [isZero]

theorem isNaN_of_isFinite (h : isFinite w = true) : isNaN w = false :=
  Bool.eq_false_iff.mpr fun hn => isFinite_iff.mp h (isNaN_iff.mp hn).1

theorem isInf_of_isFinite (h : isFinite w = true) : isInf w = false :=
  Bool.eq_false_iff.mpr fun hi => isFinite_iff.mp h (isInf_iff.mp hi).1

theorem isNaN_of_isInf (h : isInf w = true) : isNaN w = false :=
  Bool.eq_false_iff.mpr fun hn => (isNaN_iff.mp hn).2 (isInf_iff.mp h).2

theorem isZero_of_isInf (h : isInf w = true) : isZero w = false :=
  Bool.eq_false_iff.mpr fun hz => by
    have hexp := (isInf_iff.mp h).1
    rw [(isZero_iff.mp hz).1] at hexp
    cases hexp

theorem isFinite_of_not_isNaN_of_not_isInf (hn : isNaN w = false) (hi : isInf w = false) : isFinite w = true := by
  rw [isFinite_iff]
  intro hexp
  by_cases hfrac : floatFrac w = 0
  · exact absurd (isInf_iff.mpr ⟨hexp, hfrac⟩) (by simp [hi])
  · exact absurd (isNaN_iff.mpr ⟨hexp, hfrac⟩) (by simp [hn])

/-- An infinity is its sign. -/
theorem packFloat_infMag_of_isInf (h : isInf w = true) : packFloat (floatSign w) infMag = w := by
  obtain ⟨hexp, hfrac⟩ := isInf_iff.mp h
  have hw := packFloat_fields w
  rwa [hexp, hfrac] at hw

theorem isInf_packFloat_infMag (s : Bool) : isInf (packFloat s infMag) = true := by
  have hlt : infMag < 2 ^ 31 := by decide
  rw [isInf_iff, floatExp_packFloat s hlt, floatFrac_packFloat s hlt]
  decide

theorem isFinite_packFloat (s : Bool) {m : Nat} (h : m ≤ infMag) : isFinite (packFloat s m) = decide (m < infMag) := by
  have hdiv : m / 2 ^ 23 ≠ 255 ↔ m < infMag := by simp only [infMag] at h ⊢; omega
  rw [Bool.eq_iff_iff, decide_eq_true_iff, isFinite_iff, floatExp_packFloat s (h.trans_lt (by decide)), hdiv]

theorem isZero_packFloat_zero (s : Bool) : isZero (packFloat s 0) = true := by cases s <;> decide

/-! ## The NaN of a draw (R223) -/

theorem isNaN_nanOf (d : Word) : isNaN (nanOf d) = true := by
  have hfrac := floatFrac_lt d
  have hlt : infMag + (if floatFrac d = 0 then 1 else floatFrac d) < 2 ^ 31 := by
    simp only [infMag]; split <;> omega
  rw [isNaN_iff, nanOf, floatExp_packFloat _ hlt, floatFrac_packFloat _ hlt]
  simp only [infMag]
  split <;> omega

/-- Every NaN is the NaN of a draw: of itself. -/
theorem nanOf_of_isNaN (h : isNaN w = true) : nanOf w = w := by
  obtain ⟨hexp, hfrac⟩ := isNaN_iff.mp h
  have hw := packFloat_fields w
  rw [hexp] at hw
  rwa [nanOf, if_neg hfrac]

/-! ## Signed magnitudes -/

/-- The integer of a sign and a magnitude. -/
def withSign (s : Bool) (n : Nat) : Int := if s then -(n : Int) else n

theorem units_eq_withSign (w : Word) : units w = withSign (floatSign w) (magUnits w) := rfl

@[simp] theorem abs_withSign (s : Bool) (n : Nat) : |withSign s n| = n := by cases s <;> simp [withSign]

theorem withSign_mul (s t : Bool) (m n : Nat) : withSign s m * withSign t n = withSign (s != t) (m * n) := by
  cases s <;> cases t <;> simp [withSign]

theorem withSign_mul_two_pow (s : Bool) (m k : Nat) : withSign s (m * 2 ^ k) = withSign s m * 2 ^ k := by
  cases s <;> simp [withSign]

theorem abs_withSign_sub_withSign (s : Bool) (m n : Nat) : |withSign s m - withSign s n| = |(m : Int) - n| := by
  cases s
  · rfl
  · rw [withSign, withSign, if_pos rfl, if_pos rfl, neg_sub_neg, abs_sub_comm]

/-- An integer is its sign and its magnitude; the sign of 0 does not matter. -/
theorem withSign_natAbs {s : Bool} {x : Int} (h : x ≠ 0 → s = decide (x < 0)) : withSign s x.natAbs = x := by
  by_cases hx : x = 0
  · subst hx; cases s <;> rfl
  · rw [h hx, withSign]
    split <;> simp only [decide_eq_true_eq] at * <;> omega

/-! ## Rounding to a multiple of a power of two -/

/-- Only a tie is half a unit away, and a tie goes to the even multiple. -/
theorem roundShift_even_of_tie
    (h : 2 * (roundShift n q * 2 ^ q) = 2 * n + 2 ^ q ∨ 2 * n = 2 * (roundShift n q * 2 ^ q) + 2 ^ q) :
    roundShift n q % 2 = 0 := by
  have hdiv := Nat.div_add_mod' n (2 ^ q)
  have hlt := Nat.mod_lt n (Nat.two_pow_pos q)
  simp only [roundShift] at h ⊢
  split at h
  · omega
  · split at h
    · rw [Nat.add_mul, Nat.one_mul] at h; omega
    · rw [if_neg ‹_›, if_neg ‹_›]; omega

/-- No multiple of `2^q` is nearer to a number than the rounded one; another as near makes the rounded one even. -/
theorem roundShift_nearest (s : Bool) (n q : Nat) (z : Int) :
    |withSign s (roundShift n q * 2 ^ q) - withSign s n| ≤ |z * 2 ^ q - withSign s n| ∧
      (z ≠ withSign s (roundShift n q) →
        |withSign s (roundShift n q * 2 ^ q) - withSign s n| = |z * 2 ^ q - withSign s n| → roundShift n q % 2 = 0) := by
  by_cases hz : z = withSign s (roundShift n q)
  · exact ⟨by rw [hz, withSign_mul_two_pow], fun h => absurd hz h⟩
  · obtain ⟨hlo, hhi⟩ := roundShift_close n q
    have hhalf : 2 * |withSign s (roundShift n q * 2 ^ q) - withSign s n| ≤ 2 ^ q := by
      zify at hlo hhi
      rw [abs_withSign_sub_withSign]; push_cast
      rcases abs_cases ((roundShift n q : Int) * 2 ^ q - n) with ⟨h, -⟩ | ⟨h, -⟩ <;> rw [h] <;> linarith
    have hapart : (2 : Int) ^ q ≤ |z * 2 ^ q - withSign s (roundShift n q * 2 ^ q)| := by
      have hone : 1 ≤ |z - withSign s (roundShift n q)| := Int.one_le_abs (sub_ne_zero.mpr hz)
      rw [withSign_mul_two_pow, ← sub_mul, abs_mul, abs_of_pos (by positivity : (0 : Int) < 2 ^ q)]
      exact le_mul_of_one_le_left (by positivity) hone
    have htri := abs_sub_le (z * 2 ^ q) (withSign s n) (withSign s (roundShift n q * 2 ^ q))
    rw [abs_sub_comm (withSign s n)] at htri
    refine ⟨by linarith, fun _ heq => roundShift_even_of_tie ?_⟩
    have htie : 2 * |withSign s (roundShift n q * 2 ^ q) - withSign s n| = 2 ^ q := by linarith
    rw [abs_withSign_sub_withSign] at htie
    zify
    push_cast at htie
    rcases abs_cases ((roundShift n q : Int) * 2 ^ q - n) with ⟨h, -⟩ | ⟨h, -⟩ <;> rw [h] at htie
    · left; linarith
    · right; linarith

@[simp] theorem roundShift_mul_two_pow (r q : Nat) : roundShift (r * 2 ^ q) q = r := by
  have hpos := Nat.two_pow_pos q
  simp [roundShift, Nat.mul_div_cancel r hpos]

/-! ## The quantum of a number -/

theorem lt_two_pow_roundQuantum (n sc : Nat) : n < 2 ^ (24 + roundQuantum n sc) := by
  refine Nat.lt_log2_self.trans_le (Nat.pow_le_pow_right (by decide) ?_)
  rw [roundQuantum]; omega

/-- Above the subnormal range the quantum is the unit of the last of the number's 24 bits. -/
theorem two_pow_roundQuantum_le (h : roundQuantum n sc ≠ sc) : 2 ^ (23 + roundQuantum n sc) ≤ n := by
  have hn : n ≠ 0 := by rintro rfl; simp [roundQuantum] at h
  have hlog : 23 + roundQuantum n sc = Nat.log2 n := by rw [roundQuantum] at h ⊢; omega
  exact hlog ▸ Nat.log2_self_le hn

theorem roundQuantum_of_lt (h : n < 2 ^ (24 + sc)) : roundQuantum n sc = sc := by
  by_contra hne
  have hle := two_pow_roundQuantum_le hne
  have hlt : sc < roundQuantum n sc := lt_of_le_of_ne (le_roundQuantum n sc) (Ne.symm hne)
  have hpow : 2 ^ (24 + sc) ≤ 2 ^ (23 + roundQuantum n sc) := Nat.pow_le_pow_right (by decide) (by omega)
  omega

theorem roundQuantum_of_le_of_lt (hq : sc ≤ q) (hle : 2 ^ (23 + q) ≤ n) (hlt : n < 2 ^ (24 + q)) :
    roundQuantum n sc = q := by
  have hn : n ≠ 0 := (lt_of_lt_of_le (Nat.two_pow_pos _) hle).ne'
  have hlog : Nat.log2 n = 23 + q := by
    rw [Nat.log2_eq_iff hn]
    exact ⟨hle, by rwa [show 23 + q + 1 = 24 + q by omega]⟩
  rw [roundQuantum, hlog]; omega

/-- A finite sample is a multiple of a power of two, or lies below the binade whose last place that power is. -/
theorem two_pow_dvd_magUnits_or_lt (w : Word) (t : Nat) : 2 ^ t ∣ magUnits w ∨ magUnits w < 2 ^ (23 + t) := by
  have hfrac := floatFrac_lt w
  rw [magUnits]
  split
  · exact .inr (hfrac.trans_le (Nat.pow_le_pow_right (by decide) (by omega)))
  · rcases Nat.lt_or_ge (floatExp w - 1) t with ht | ht
    · right
      calc (2 ^ 23 + floatFrac w) * 2 ^ (floatExp w - 1)
          < 2 ^ 24 * 2 ^ (floatExp w - 1) := Nat.mul_lt_mul_of_pos_right (by omega) (Nat.two_pow_pos _)
        _ = 2 ^ (24 + (floatExp w - 1)) := (Nat.pow_add ..).symm
        _ ≤ 2 ^ (23 + t) := Nat.pow_le_pow_right (by decide) (by omega)
    · exact .inl ((pow_dvd_pow 2 ht).mul_left _)

/-! ## Rounding to a sample (R221, R222) -/

/-- Rounding gives a finite sample exactly below the number half a unit past the largest one. -/
theorem roundMag_lt_infMag_iff : roundMag n sc < infMag ↔ n < (2 ^ 25 - 1) * 2 ^ (252 + sc) := by
  have hpos := Nat.two_pow_pos (252 + sc)
  have hr := roundShift_quantum_le n sc
  have hlt := lt_two_pow_roundQuantum n sc
  have htop := le_roundShift_quantum (n := n) (sc := sc)
  have hmin : roundMag n sc < infMag ↔
      (roundQuantum n sc - sc) * 2 ^ 23 + roundShift n (roundQuantum n sc) < 255 * 2 ^ 23 := by
    rw [roundMag, infMag]; omega
  rw [hmin]
  rcases Nat.lt_trichotomy (roundQuantum n sc) (253 + sc) with hq | hq | hq
  · have hpow : 2 ^ (24 + roundQuantum n sc) ≤ 2 ^ (24 + (252 + sc)) := Nat.pow_le_pow_right (by decide) (by omega)
    rw [Nat.pow_add 2 24 (252 + sc)] at hpow
    exact iff_of_true (by omega) (by omega)
  · have htie := roundShift_even_of_tie (n := n) (q := roundQuantum n sc)
    obtain ⟨hlo, hhi⟩ := roundShift_close n (roundQuantum n sc)
    have hpow : 2 ^ (253 + sc) = 2 * 2 ^ (252 + sc) := by rw [← Nat.pow_succ']; congr 1; omega
    rw [hq, hpow] at hlo hhi htie
    rw [hq] at hr ⊢
    constructor
    · intro hfin
      by_contra hge
      have hlast : 2 ^ 24 - 1 ≤ roundShift n (253 + sc) := le_roundShift (by rw [hpow]; omega)
      have hodd : roundShift n (253 + sc) = 2 ^ 24 - 1 := by omega
      rw [hodd] at hhi htie
      omega
    · intro hlt
      by_contra hinf
      have htop : roundShift n (253 + sc) = 2 ^ 24 := by omega
      rw [htop] at hlo
      omega
  · have hle := two_pow_roundQuantum_le (n := n) (sc := sc) (by omega)
    have hpow : 2 ^ (25 + (252 + sc)) ≤ 2 ^ (23 + roundQuantum n sc) := Nat.pow_le_pow_right (by decide) (by omega)
    rw [Nat.pow_add 2 25 (252 + sc)] at hpow
    have htop := htop (by omega)
    exact iff_of_false (by omega) (by omega)

/-- The magnitude bits of a finite sample are those of its magnitude. -/
theorem roundMag_magUnits (h : isFinite w = true) (sc : Nat) :
    roundMag (magUnits w * 2 ^ sc) sc = floatExp w * 2 ^ 23 + floatFrac w := by
  have hfrac := floatFrac_lt w
  have hexp := floatExp_lt w
  have hfin := isFinite_iff.mp h
  rw [roundMag, magUnits]
  split
  · next h0 =>
    have hq : roundQuantum (floatFrac w * 2 ^ sc) sc = sc := roundQuantum_of_lt <| by
      rw [Nat.pow_add]; exact Nat.mul_lt_mul_of_pos_right (by omega) (Nat.two_pow_pos _)
    rw [hq, roundShift_mul_two_pow, h0]; omega
  · have hq : roundQuantum ((2 ^ 23 + floatFrac w) * 2 ^ (floatExp w - 1 + sc)) sc = floatExp w - 1 + sc := by
      refine roundQuantum_of_le_of_lt (by omega) ?_ ?_
      · rw [Nat.pow_add 2 23]; exact Nat.mul_le_mul_right _ (by omega)
      · rw [Nat.pow_add 2 24]; exact Nat.mul_lt_mul_of_pos_right (by omega) (Nat.two_pow_pos _)
    rw [Nat.mul_assoc, ← Nat.pow_add, hq, roundShift_mul_two_pow]; omega

/-- No finite sample is nearer to `x` units of 2^-(149+sc) than `w`, and `w` is even if another is as near. -/
def IsNearestEven (w : Word) (x : Int) (sc : Nat) : Prop :=
  ∀ y : Word, isFinite y = true →
    |units w * 2 ^ sc - x| ≤ |units y * 2 ^ sc - x| ∧
      (units y ≠ units w → |units w * 2 ^ sc - x| = |units y * 2 ^ sc - x| → w.toNat % 2 = 0)

/-- `w` is the number of `x` units of 2^-(149+sc) rounded once: the nearest sample, ties to even, or an infinity exactly
from half a unit past the largest finite sample on. -/
structure IsRounded (w : Word) (x : Int) (sc : Nat) : Prop where
  nearest : isFinite w = true → IsNearestEven w x sc
  isInf : isFinite w = false → isInf w = true
  finite_iff : isFinite w = true ↔ |x| < (2 ^ 25 - 1) * 2 ^ (252 + sc)

theorem IsRounded.le_abs {x : Int} (h : IsRounded w x sc) (hw : isFinite w = false) :
    (2 ^ 25 - 1) * 2 ^ (252 + sc) ≤ |x| :=
  not_lt.mp fun hlt => by simp [h.finite_iff.mpr hlt] at hw

theorem IsRounded.isFinite_eq_false {x : Int} (h : IsRounded w x sc) (hx : (2 ^ 25 - 1) * 2 ^ (252 + sc) ≤ |x|) :
    isFinite w = false :=
  Bool.eq_false_iff.mpr fun hw => absurd (h.finite_iff.mp hw) (not_lt.mpr hx)

/-- The value of a rounded magnitude, in units of 2^-(149+sc), is the multiple of the quantum that `roundShift` names. -/
theorem units_packFloat_roundMag (s : Bool) (h : roundMag n sc < infMag) :
    units (packFloat s (roundMag n sc)) * 2 ^ sc =
      withSign s (roundShift n (roundQuantum n sc) * 2 ^ roundQuantum n sc) := by
  have hpow : 2 ^ (roundQuantum n sc - sc) * 2 ^ sc = 2 ^ roundQuantum n sc := by
    rw [← Nat.pow_add, Nat.sub_add_cancel (le_roundQuantum n sc)]
  rw [units_eq_withSign, floatSign_packFloat s (h.trans (by decide)), magUnits_roundMag s h,
    ← withSign_mul_two_pow, Nat.mul_assoc, hpow]

theorem packFloat_roundMag_mod_two (s : Bool) (h : roundMag n sc < infMag) :
    (packFloat s (roundMag n sc)).toNat % 2 = roundShift n (roundQuantum n sc) % 2 := by
  rw [packFloat_toNat s (h.trans (by decide))]
  rw [roundMag, infMag] at h
  rw [roundMag]
  split <;> omega

/-- No finite sample is nearer than the rounded one: a multiple of the quantum by `roundShift_nearest`, any other because
the least number of the binade lies between. -/
theorem isNearestEven_packFloat_roundMag (s : Bool) (h : roundMag n sc < infMag) :
    IsNearestEven (packFloat s (roundMag n sc)) (withSign s n) sc := by
  intro y _
  have hw := units_packFloat_roundMag s h
  rw [packFloat_roundMag_mod_two s h]
  have hnear := roundShift_nearest s n (roundQuantum n sc)
  have hpos : (0 : Int) < 2 ^ sc := by positivity
  generalize units (packFloat s (roundMag n sc)) = u at hw ⊢
  by_cases hdvd : 2 ^ (roundQuantum n sc - sc) ∣ magUnits y
  · obtain ⟨c, hc⟩ := hdvd
    have hy : units y * 2 ^ sc = withSign (floatSign y) c * 2 ^ roundQuantum n sc := by
      rw [units_eq_withSign, hc, Nat.mul_comm, withSign_mul_two_pow, mul_assoc, ← pow_add,
        Nat.sub_add_cancel (le_roundQuantum n sc)]
    obtain ⟨hle, htie⟩ := hnear (withSign (floatSign y) c)
    rw [hy, hw]
    refine ⟨hle, fun hne heq => htie (fun hz => hne (mul_right_cancel₀ hpos.ne' ?_)) heq⟩
    rw [hy, hw, hz, withSign_mul_two_pow]
  · have hq : roundQuantum n sc ≠ sc := fun hq => hdvd (by simp [hq])
    have hylt : |units y * 2 ^ sc| < 2 ^ (23 + roundQuantum n sc) := by
      have hlt := (two_pow_dvd_magUnits_or_lt y _).resolve_left hdvd
      have hpow : (2 : Int) ^ (23 + roundQuantum n sc) = 2 ^ (23 + (roundQuantum n sc - sc)) * 2 ^ sc := by
        have := le_roundQuantum n sc
        rw [← pow_add]; congr 1; omega
      rw [abs_mul, abs_of_pos hpos, units_eq_withSign, abs_withSign, hpow]
      exact mul_lt_mul_of_pos_right (mod_cast hlt) hpos
    have hbin : |withSign s (2 ^ 23) * 2 ^ roundQuantum n sc - withSign s n| = n - 2 ^ (23 + roundQuantum n sc) := by
      have hle : ((2 ^ (23 + roundQuantum n sc) : Nat) : Int) ≤ n := mod_cast two_pow_roundQuantum_le hq
      rw [← withSign_mul_two_pow, abs_withSign_sub_withSign, ← Nat.pow_add, abs_sub_comm,
        abs_of_nonneg (sub_nonneg.mpr hle)]
      push_cast; rfl
    have hle := (hnear (withSign s (2 ^ 23))).1
    have htri := abs_sub_abs_le_abs_sub (withSign s n) (units y * 2 ^ sc)
    rw [abs_withSign, abs_sub_comm] at htri
    rw [hw]
    have hlt : |withSign s (roundShift n (roundQuantum n sc) * 2 ^ roundQuantum n sc) - withSign s n| <
      |units y * 2 ^ sc - withSign s n| := by linarith
    exact ⟨hlt.le, fun _ heq => absurd heq hlt.ne⟩

theorem isRounded_packFloat_roundMag (s : Bool) (n sc : Nat) :
    IsRounded (packFloat s (roundMag n sc)) (withSign s n) sc := by
  have hfin := isFinite_packFloat s (roundMag_le n sc)
  refine ⟨fun hw => isNearestEven_packFloat_roundMag s (by simpa [hfin] using hw), fun hw => ?_, ?_⟩
  · have hmag : roundMag n sc = infMag := (roundMag_le n sc).antisymm (by simpa [hfin] using hw)
    exact hmag ▸ isInf_packFloat_infMag s
  · rw [hfin, decide_eq_true_iff, roundMag_lt_infMag_iff, abs_withSign]
    rw [← Nat.cast_lt (α := Int)]; push_cast; rfl

/-! ## The sum and the product of finite samples (R221, R222) -/

theorem fadd_of_isFinite (ha : isFinite a = true) (hb : isFinite b = true) (d : Word) :
    fadd a b d = faddFinite a b := by
  simp [fadd, isNaN_of_isFinite ha, isNaN_of_isFinite hb, isInf_of_isFinite ha, isInf_of_isFinite hb]

theorem fmul_of_isFinite (ha : isFinite a = true) (hb : isFinite b = true) (d : Word) :
    fmul a b d = packFloat (floatSign a != floatSign b) (roundMag (magUnits a * magUnits b) 149) := by
  simp [fmul, isNaN_of_isFinite ha, isNaN_of_isFinite hb, isInf_of_isFinite ha, isInf_of_isFinite hb]

/-- The sign of a sum of finite samples: the exact sum's, and for a sum of 0 minus only if both samples have it. -/
def sumSign (a b : Word) : Bool :=
  if units a + units b = 0 then floatSign a && floatSign b else decide (units a + units b < 0)

theorem faddFinite_eq_packFloat (a b : Word) :
    faddFinite a b = packFloat (sumSign a b) (roundMag (units a + units b).natAbs 0) := by
  rw [faddFinite, sumSign]
  split
  · next h => rw [h]; rfl
  · rfl

theorem faddFinite_of_sum_eq_zero (h : units a + units b = 0) :
    faddFinite a b = packFloat (floatSign a && floatSign b) 0 := if_pos h

theorem isRounded_faddFinite (a b : Word) : IsRounded (faddFinite a b) (units a + units b) 0 := by
  have hsign : units a + units b ≠ 0 → sumSign a b = decide (units a + units b < 0) := fun h => if_neg h
  have h := isRounded_packFloat_roundMag (sumSign a b) (units a + units b).natAbs 0
  rwa [withSign_natAbs hsign, ← faddFinite_eq_packFloat] at h

theorem isRounded_fmul (ha : isFinite a = true) (hb : isFinite b = true) (d : Word) :
    IsRounded (fmul a b d) (units a * units b) 149 := by
  rw [fmul_of_isFinite ha hb, units_eq_withSign a, units_eq_withSign b, withSign_mul]
  exact isRounded_packFloat_roundMag ..

theorem roundMag_lt_two_pow (n sc : Nat) : roundMag n sc < 2 ^ 31 := (roundMag_le n sc).trans_lt (by decide)

theorem floatSign_faddFinite (h : units a + units b ≠ 0) :
    floatSign (faddFinite a b) = decide (units a + units b < 0) := by
  rw [faddFinite_eq_packFloat, floatSign_packFloat _ (roundMag_lt_two_pow ..), sumSign, if_neg h]

/-- A zero times a finite sample is a zero. -/
theorem isZero_fmul (ha : isFinite a = true) (hb : isFinite b = true) (h : isZero a = true ∨ isZero b = true)
    (d : Word) : isZero (fmul a b d) = true := by
  have hzero : magUnits a * magUnits b = 0 := by
    rwa [mul_eq_zero, magUnits_eq_zero_iff, magUnits_eq_zero_iff]
  rw [fmul_of_isFinite ha hb, hzero]
  exact isZero_packFloat_zero _

/-- The sum of two zeros is a zero. -/
theorem isZero_fadd (ha : isZero a = true) (hb : isZero b = true) (d : Word) : isZero (fadd a b d) = true := by
  have hunits {w : Word} (hw : isZero w = true) : units w = 0 := by
    rw [units_eq_withSign, magUnits_eq_zero_iff.mpr hw]; cases floatSign w <;> rfl
  rw [fadd_of_isFinite (isFinite_of_isZero ha) (isFinite_of_isZero hb),
    faddFinite_of_sum_eq_zero (by rw [hunits ha, hunits hb]; rfl)]
  exact isZero_packFloat_zero _

theorem magUnits_one : magUnits 0x3F800000 = 2 ^ 149 := by decide

/-! ## Infinities (R221, R222) -/

theorem fadd_inf_left (ha : isInf a = true) (hb : isNaN b = false)
    (h : isFinite b = true ∨ floatSign b = floatSign a) (d : Word) : fadd a b d = a := by
  rw [fadd, if_neg (by simp [isNaN_of_isInf ha, hb]), if_pos ha, if_neg]
  rcases h with h | h
  · simp [isInf_of_isFinite h]
  · simp [h]

theorem fadd_inf_right (ha : isInf a = true) (hb : isNaN b = false)
    (h : isFinite b = true ∨ floatSign b = floatSign a) (d : Word) : fadd b a d = a := by
  by_cases hinf : isInf b = true
  · have hsign : floatSign b = floatSign a := h.resolve_left (by simp [isFinite, (isInf_iff.mp hinf).1])
    have hab : b = a := by rw [← packFloat_infMag_of_isInf hinf, hsign, packFloat_infMag_of_isInf ha]
    subst hab
    exact fadd_inf_left ha hb h d
  · simp [fadd, isNaN_of_isInf ha, hb, hinf, ha]

theorem fmul_of_isInf (h : isInf a = true ∨ isInf b = true) (ha : isNaN a = false) (hb : isNaN b = false)
    (hza : isZero a = false) (hzb : isZero b = false) (d : Word) :
    fmul a b d = packFloat (floatSign a != floatSign b) infMag := by
  rw [fmul, if_neg (by simp [ha, hb]), if_pos (by simpa using h), if_neg (by simp [hza, hzb])]

theorem floatSign_packFloat_infMag (s : Bool) : floatSign (packFloat s infMag) = s :=
  floatSign_packFloat s (by decide)

/-! ## NaN results (R223) -/

/-- The operands whose sum is a NaN. -/
def SumInvalid (a b : Word) : Prop :=
  isNaN a = true ∨ isNaN b = true ∨ (isInf a = true ∧ isInf b = true ∧ floatSign a ≠ floatSign b)

/-- The operands whose product is a NaN. -/
def ProductInvalid (a b : Word) : Prop :=
  isNaN a = true ∨ isNaN b = true ∨ (isInf a = true ∧ isZero b = true) ∨ (isZero a = true ∧ isInf b = true)

theorem fadd_of_invalid (h : SumInvalid a b) (d : Word) : fadd a b d = nanOf d := by
  rw [fadd]
  rcases h with h | h | ⟨ha, hb, hsign⟩
  · simp [h]
  · simp [h]
  · simp [isNaN_of_isInf ha, isNaN_of_isInf hb, ha, hb, hsign]

theorem fmul_of_invalid (h : ProductInvalid a b) (d : Word) : fmul a b d = nanOf d := by
  rw [fmul]
  rcases h with h | h | ⟨ha, hb⟩ | ⟨ha, hb⟩
  · simp [h]
  · simp [h]
  · simp [isNaN_of_isInf ha, isNaN_of_isFinite (isFinite_of_isZero hb), ha, hb]
  · simp [isNaN_of_isFinite (isFinite_of_isZero ha), isNaN_of_isInf hb, ha, hb]

/-- An operation that answers with the draw's NaN for some operands reaches every NaN there. -/
theorem nan_results_of_eq_nanOf {f : Word → Word} (h : ∀ d, f d = nanOf d) :
    (∀ d, isNaN (f d) = true) ∧ ∀ v, isNaN v = true → ∃ d, f d = v :=
  ⟨fun d => by rw [h]; exact isNaN_nanOf d, fun v hv => ⟨v, by rw [h, nanOf_of_isNaN hv]⟩⟩

/-- Past the invalid cases the draw enters no sum. -/
theorem fadd_of_valid (h : ¬ SumInvalid a b) (d : Word) :
    fadd a b d = if isInf a then a else if isInf b then b else faddFinite a b := by
  simp only [SumInvalid, not_or, not_and, not_not] at h
  obtain ⟨hna, hnb, hsign⟩ := h
  rw [fadd, if_neg (by simp [hna, hnb])]
  split
  · next ha =>
    refine if_neg fun hopp => ?_
    obtain ⟨hb, hne⟩ := Bool.and_eq_true_iff.mp hopp
    exact bne_iff_ne.mp hne (hsign ha hb)
  · rfl

/-- Past the invalid cases the draw enters no product. -/
theorem fmul_of_valid (h : ¬ ProductInvalid a b) (d : Word) :
    fmul a b d = packFloat (floatSign a != floatSign b)
      (if isInf a || isInf b then infMag else roundMag (magUnits a * magUnits b) 149) := by
  simp only [ProductInvalid, not_or, not_and] at h
  obtain ⟨hna, hnb, hab, hba⟩ := h
  rw [fmul, if_neg (by simp [hna, hnb])]
  split
  · next hinf =>
    rcases Bool.or_eq_true_iff.mp hinf with ha | hb
    · exact if_neg (by simp [isZero_of_isInf ha, hab ha])
    · exact if_neg (by simp [isZero_of_isInf hb, mt (hba ·) (not_not_intro hb)])
  · rfl

/-- An operation that is the draw's NaN in the invalid cases and ignores the draw in the others depends on the draw only
where it answers a NaN. -/
theorem draw_irrelevant_of_not_isNaN {f : Word → Word} {invalid : Prop} (hinv : invalid → ∀ d, f d = nanOf d)
    (hval : ¬ invalid → ∀ d d', f d' = f d) {d : Word} (h : isNaN (f d) = false) (d' : Word) : f d' = f d :=
  hval (fun hi => by simp [hinv hi, isNaN_nanOf] at h) d d'

/-! ## The obligations -/

/-- Settles O56: the sum of finite samples is `faddFinite`, the exact sum packed after one rounding. -/
theorem faddIsTheRoundedSum : Obligations.FaddIsTheRoundedSum := by
  intro a b d ha hb
  have hround := isRounded_faddFinite a b
  rw [fadd_of_isFinite ha hb]
  refine ⟨fun hzero => ?_, floatSign_faddFinite, fun hfin => ?_, fun hfin => ⟨hround.isInf hfin, hround.le_abs hfin⟩,
    hround.isFinite_eq_false⟩
  · rw [faddFinite_of_sum_eq_zero hzero]
    cases floatSign a <;> cases floatSign b <;> rfl
  · simpa only [IsNearestEven, pow_zero, mul_one] using hround.nearest hfin

/-- Settles O57: the product of finite samples is the exact product packed after one rounding. -/
theorem fmulIsTheRoundedProduct : Obligations.FmulIsTheRoundedProduct := by
  intro a b d ha hb
  have hround := isRounded_fmul ha hb d
  refine ⟨?_, fun hzero => isZero_fmul ha hb hzero d, hround.nearest,
    fun hfin => ⟨hround.isInf hfin, hround.le_abs hfin⟩, hround.isFinite_eq_false⟩
  rw [fmul_of_isFinite ha hb, floatSign_packFloat _ (roundMag_lt_two_pow ..)]

/-- Settles O58: 1.0 is 2^149 units, and rounding gives back the magnitude of a finite sample. -/
theorem fmulByOneIsIdentity : Obligations.FmulByOneIsIdentity := by
  intro x d hx
  have hsign : (floatSign x != floatSign 0x3F800000) = floatSign x := by
    rw [show floatSign 0x3F800000 = false by decide, Bool.bne_false]
  cases hinf : isInf x with
  | true =>
    rw [fmul_of_isInf (.inl hinf) hx (by decide) (isZero_of_isInf hinf) (by decide), hsign,
      packFloat_infMag_of_isInf hinf]
  | false =>
    have hfin := isFinite_of_not_isNaN_of_not_isInf hx hinf
    rw [fmul_of_isFinite hfin (by decide), hsign, magUnits_one, roundMag_magUnits hfin, packFloat_fields]

/-- Settles O59: both operand orders end in the infinity's own branch. -/
theorem infinitiesPropagate : Obligations.InfinitiesPropagate := by
  intro a b d ha hb
  have hna := isNaN_of_isInf ha
  have hza := isZero_of_isInf ha
  refine ⟨fun h => ⟨fadd_inf_left ha hb h d, fadd_inf_right ha hb h d⟩, fun hzb => ?_⟩
  rw [fmul_of_isInf (.inl ha) hna hb hza hzb, fmul_of_isInf (.inr ha) hb hna hzb hza, floatSign_packFloat_infMag,
    floatSign_packFloat_infMag]
  exact ⟨isInf_packFloat_infMag _, rfl, isInf_packFloat_infMag _, bne_comm⟩

/-- Settles O60: a NaN result is the draw's, and the draw enters nowhere else. -/
theorem nanResultsAreDraws : Obligations.NanResultsAreDraws := fun _ _ =>
  ⟨fun h => nan_results_of_eq_nanOf (fadd_of_invalid h), fun h => nan_results_of_eq_nanOf (fmul_of_invalid h),
    fun _ d' h => draw_irrelevant_of_not_isNaN fadd_of_invalid
      (fun hv d d' => (fadd_of_valid hv d').trans (fadd_of_valid hv d).symm) h d',
    fun _ d' h => draw_irrelevant_of_not_isNaN fmul_of_invalid
      (fun hv d d' => (fmul_of_valid hv d').trans (fmul_of_valid hv d).symm) h d'⟩

end Sys2Proof.Machine
end

section
/-! SUPPORT. The window (R224, R226, R227): the reference slope, what the table of a configuration inherits from R224, and
the five regions of a windowed block. -/

namespace Sys2Proof.Config

open Sys2Proof.Machine

/-! ## The reference slope (R224) -/

/-- The angle of the inner sine of `winRef`. -/
noncomputable def winAngle (m k : Nat) : ℝ := Real.pi * (2 * k + 1) / (2 * m)

variable {m j k : Nat}

theorem winAngle_pos (hm : 0 < m) (k : Nat) : 0 < winAngle m k := by
  have := Real.pi_pos
  rw [winAngle]; positivity

theorem winAngle_lt_winAngle (hm : 0 < m) (h : j < k) : winAngle m j < winAngle m k := by
  have := Real.pi_pos
  rw [winAngle, winAngle]; gcongr

/-- The reversed slope runs through the complements of the angles. -/
theorem winAngle_reflect (hm : 2 ∣ m) (hk : k < m / 2) :
    winAngle m (m / 2 - 1 - k) = Real.pi / 2 - winAngle m k := by
  obtain ⟨h, rfl⟩ := hm
  have hcast : ((2 * h / 2 - 1 - k : ℕ) : ℝ) = h - 1 - k := by
    rw [Nat.mul_div_cancel_left h two_pos, Nat.cast_sub (by omega), Nat.cast_sub (by omega), Nat.cast_one]
  have hh : (h : ℝ) ≠ 0 := by
    have : h ≠ 0 := by omega
    exact_mod_cast this
  rw [winAngle, winAngle, hcast]
  push_cast
  field_simp
  ring

theorem winAngle_lt_pi_div_two (hm : 2 ∣ m) (hk : k < m / 2) : winAngle m k < Real.pi / 2 := by
  have hpos := winAngle_pos (m := m) (by omega) (m / 2 - 1 - k)
  rw [winAngle_reflect hm hk] at hpos
  linarith

theorem sin_winAngle_pos (hm : 2 ∣ m) (hk : k < m / 2) : 0 < Real.sin (winAngle m k) :=
  Real.sin_pos_of_pos_of_lt_pi (winAngle_pos (by omega) k)
    ((winAngle_lt_pi_div_two hm hk).trans (half_lt_self Real.pi_pos))

theorem sin_winAngle_lt (hm : 2 ∣ m) (hjk : j < k) (hk : k < m / 2) :
    Real.sin (winAngle m j) < Real.sin (winAngle m k) :=
  Real.sin_lt_sin_of_lt_of_le_pi_div_two (by linarith [winAngle_pos (m := m) (by omega) j, Real.pi_pos])
    (winAngle_lt_pi_div_two hm hk).le (winAngle_lt_winAngle (by omega) hjk)

/-- The angle of the outer sine of `winRef`. -/
noncomputable def winOuter (m k : Nat) : ℝ := Real.pi / 2 * Real.sin (winAngle m k) ^ 2

theorem winRef_eq (m k : Nat) : winRef m k = Real.sin (winOuter m k) := rfl

theorem winOuter_pos (hm : 2 ∣ m) (hk : k < m / 2) : 0 < winOuter m k := by
  have := Real.pi_pos
  have := sin_winAngle_pos hm hk
  rw [winOuter]; positivity

/-- The outer angles of the slope and of the reversed slope are complements too. -/
theorem winOuter_reflect (hm : 2 ∣ m) (hk : k < m / 2) :
    winOuter m (m / 2 - 1 - k) = Real.pi / 2 - winOuter m k := by
  rw [winOuter, winOuter, winAngle_reflect hm hk, Real.sin_pi_div_two_sub, Real.cos_sq']
  ring

theorem winOuter_lt_pi_div_two (hm : 2 ∣ m) (hk : k < m / 2) : winOuter m k < Real.pi / 2 := by
  have hpos := winOuter_pos (k := m / 2 - 1 - k) hm (by omega)
  rw [winOuter_reflect hm hk] at hpos
  linarith

theorem winOuter_lt_winOuter (hm : 2 ∣ m) (hjk : j < k) (hk : k < m / 2) : winOuter m j < winOuter m k := by
  have hsin := sin_winAngle_lt hm hjk hk
  have hpos := sin_winAngle_pos (k := j) hm (by omega)
  have := Real.pi_pos
  rw [winOuter, winOuter]; gcongr

theorem winRef_pos (hm : 2 ∣ m) (hk : k < m / 2) : 0 < winRef m k := by
  rw [winRef_eq]
  exact Real.sin_pos_of_pos_of_lt_pi (winOuter_pos hm hk)
    ((winOuter_lt_pi_div_two hm hk).trans (half_lt_self Real.pi_pos))

theorem winRef_lt_winRef (hm : 2 ∣ m) (hjk : j < k) (hk : k < m / 2) : winRef m j < winRef m k := by
  have hpos := winOuter_pos (k := j) hm (by omega)
  rw [winRef_eq, winRef_eq]
  exact Real.sin_lt_sin_of_lt_of_le_pi_div_two (by linarith [Real.pi_pos]) (winOuter_lt_pi_div_two hm hk).le
    (winOuter_lt_winOuter hm hjk hk)

theorem winRef_sq_add_sq_reflect (hm : 2 ∣ m) (hk : k < m / 2) :
    winRef m k ^ 2 + winRef m (m / 2 - 1 - k) ^ 2 = 1 := by
  rw [winRef_eq, winRef_eq, winOuter_reflect hm hk, Real.sin_pi_div_two_sub]
  exact Real.sin_sq_add_cos_sq (winOuter m k)

theorem winRef_lt_one (hm : 2 ∣ m) (hk : k < m / 2) : winRef m k < 1 := by
  have hsum := winRef_sq_add_sq_reflect hm hk
  have hpos := pow_pos (winRef_pos (k := m / 2 - 1 - k) hm (by omega)) 2
  exact (sq_lt_one_iff₀ (winRef_pos hm hk).le).mp (by linarith)

/-! ## The table of a configuration (R224) -/

variable {e : Nat}

theorem Params.win_pos_le (p : Params) (he2 : 2 ≤ e) (he : e ≤ 15) (hk : k < 2 ^ e / 2) :
    0 < (p.win (2 ^ e) k).toNat ∧ (p.win (2 ^ e) k).toNat ≤ 0x3F800000 :=
  (windowTable p.num).pos e k he2 he hk

theorem Params.win_withinOneUlp (p : Params) (he2 : 2 ≤ e) (he : e ≤ 15) (hk : k < 2 ^ e / 2) :
    WithinOneUlp (p.win (2 ^ e) k) (winRef (2 ^ e) k) :=
  (windowTable p.num).accurate e k he2 he hk

/-- A word of at most 1.0 is finite. -/
theorem Params.isFinite_win (p : Params) (he2 : 2 ≤ e) (he : e ≤ 15) (hk : k < 2 ^ e / 2) :
    isFinite (p.win (2 ^ e) k) = true := by
  obtain ⟨-, hle⟩ := p.win_pos_le he2 he hk
  rw [isFinite_iff, floatExp]
  omega

/-- Configurations with one numerics record have one table. -/
theorem Params.win_congr {p p' : Params} (h : p.num = p'.num) : p.win = p'.win := by
  funext m k; rw [Params.win, Params.win, h]

end Sys2Proof.Config

namespace Sys2Proof.Machine

open Sys2Proof.Config

/-! ## The five regions (R226, R227) -/

variable (p : Params) {N P Q i : Nat} (y d : Word)

theorem windowed_leading_zeros (hi : i < N / 4 - min N P / 4) : windowed p N P Q i y d = 0 := if_pos hi

theorem windowed_rising (hl : N / 4 - min N P / 4 ≤ i) (hi : i < N / 4 + min N P / 4) :
    windowed p N P Q i y d = fmul y (p.win (min N P) (i - (N / 4 - min N P / 4))) d := by
  simp only [windowed]
  rw [if_neg hl.not_gt, if_pos hi]

theorem windowed_flat (hl : N / 4 + min N P / 4 ≤ i) (hi : i < 3 * N / 4 - min N Q / 4) :
    windowed p N P Q i y d = y := by
  simp only [windowed]
  rw [if_neg (by omega), if_neg hl.not_gt, if_pos hi]

theorem windowed_falling (hl : N / 4 + min N P / 4 ≤ i) (hr : 3 * N / 4 - min N Q / 4 ≤ i)
    (hi : i < 3 * N / 4 + min N Q / 4) :
    windowed p N P Q i y d = fmul y (p.win (min N Q) (min N Q / 2 - 1 - (i - (3 * N / 4 - min N Q / 4)))) d := by
  simp only [windowed]
  rw [if_neg (by omega), if_neg hl.not_gt, if_neg hr.not_gt, if_pos hi]

theorem windowed_trailing_zeros (hl : N / 4 + min N P / 4 ≤ i) (hi : 3 * N / 4 + min N Q / 4 ≤ i) :
    windowed p N P Q i y d = 0 := by
  simp only [windowed]
  rw [if_neg (by omega), if_neg hl.not_gt, if_neg (by omega), if_neg hi.not_gt]

/-- Which of its regions an index of the block lies in: zero, the sample itself, or its product with a coefficient of one
of the two slopes, the same for every sample, draw and configuration. -/
theorem windowed_cases (N P Q i : Nat) :
    (∀ p y d, windowed p N P Q i y d = 0) ∨
    (i < N ∧ ((∀ p y d, windowed p N P Q i y d = y) ∨
      ∃ m k, (m = min N P ∨ m = min N Q) ∧ k < m / 2 ∧ 4 ≤ m ∧
        ∀ p y d, windowed p N P Q i y d = fmul y (p.win m k) d)) := by
  rcases Nat.lt_or_ge i (N / 4 - min N P / 4) with h | hls
  · exact .inl fun p y d => windowed_leading_zeros p y d h
  rcases Nat.lt_or_ge i (N / 4 + min N P / 4) with h | hle
  · exact .inr ⟨by omega, .inr ⟨_, _, .inl rfl, by omega, by omega, fun p y d => windowed_rising p y d hls h⟩⟩
  rcases Nat.lt_or_ge i (3 * N / 4 - min N Q / 4) with h | hrs
  · exact .inr ⟨by omega, .inl fun p y d => windowed_flat p y d hle h⟩
  rcases Nat.lt_or_ge i (3 * N / 4 + min N Q / 4) with h | hre
  · exact .inr ⟨by omega, .inr ⟨_, _, .inr rfl, by omega, by omega, fun p y d => windowed_falling p y d hle hrs h⟩⟩
  · exact .inl fun p y d => windowed_trailing_zeros p y d hle hre

/-- Of the configuration only the numerics record enters, and of the samples only those of the block. -/
theorem windowed_congr {p p' : Params} {y y' : Word} (hnum : p.num = p'.num) (hy : i < N → y = y') :
    windowed p N P Q i y d = windowed p' N P Q i y' d := by
  rcases windowed_cases N P Q i with h | ⟨hi, h | ⟨m, k, -, -, -, h⟩⟩
  · rw [h, h]
  · rw [h, h, hy hi]
  · rw [h, h, hy hi, Params.win_congr hnum]

/-- The falling slope is no longer than the block, so a longer next block has no effect (R238). -/
theorem windowed_of_le {Q' : Nat} (hQ : N ≤ Q) (hQ' : N ≤ Q') : windowed p N P Q i y d = windowed p N P Q' i y d := by
  simp only [windowed, min_eq_left hQ, min_eq_left hQ']

/-- Of two powers of two the lesser is one. -/
theorem exists_min_two_pow (a b : Nat) : ∃ e, (e = a ∨ e = b) ∧ min (2 ^ a) (2 ^ b) = 2 ^ e := by
  rcases Nat.le_total a b with h | h
  · exact ⟨a, .inl rfl, min_eq_left (Nat.pow_le_pow_right two_pos h)⟩
  · exact ⟨b, .inr rfl, min_eq_right (Nat.pow_le_pow_right two_pos h)⟩

/-- A windowed zero is a zero (R240): the coefficients of a slope are finite. -/
theorem isZero_windowed {a b c : Nat} (ha : a ≤ 15) (hb : b ≤ 15) (hc : c ≤ 15) {y : Word}
    (hy : i < 2 ^ a → isZero y = true) : isZero (windowed p (2 ^ a) (2 ^ b) (2 ^ c) i y d) = true := by
  rcases windowed_cases (2 ^ a) (2 ^ b) (2 ^ c) i with h | ⟨hi, h | ⟨m, k, hm, hk, hm4, h⟩⟩
  · rw [h]; decide
  · rw [h]; exact hy hi
  · rw [h]
    have hpow : ∃ e ≤ 15, m = 2 ^ e := by
      rcases hm with rfl | rfl
      · obtain ⟨e, he, heq⟩ := exists_min_two_pow a b
        exact ⟨e, by omega, heq⟩
      · obtain ⟨e, he, heq⟩ := exists_min_two_pow a c
        exact ⟨e, by omega, heq⟩
    obtain ⟨e, he, rfl⟩ := hpow
    have he2 : 2 ≤ e := (Nat.pow_le_pow_iff_right one_lt_two).mp (show 2 ^ 2 ≤ 2 ^ e from hm4)
    exact isZero_fmul (isFinite_of_isZero (hy hi)) (p.isFinite_win he2 he hk) (.inl (hy hi)) d

/-! ## The obligations -/

/-- Settles O48: the angles of both sines lie strictly between 0 and π/2 and rise, and those of the reversed slope are
their complements; the table's properties are those of its numerics record. -/
theorem windowTableIsAccurate : Obligations.WindowTableIsAccurate := by
  rintro p e m k he2 he rfl hk
  have hm : 2 ∣ 2 ^ e := dvd_pow_self 2 (by omega)
  obtain ⟨hpos, hle⟩ := p.win_pos_le he2 he hk
  exact ⟨⟨winRef_pos hm hk, winRef_lt_one hm hk⟩, winRef_lt_winRef hm k.lt_succ_self, winRef_sq_add_sq_reflect hm hk,
    hpos, hle, p.win_withinOneUlp he2 he hk⟩

/-- Settles O49: one equation per region, and the regions' ends in order. -/
theorem windowShape : Obligations.WindowShape := by
  intro p N P Q i y d _
  refine ⟨fun hN hP hQ => ?_, windowed_leading_zeros p y d, windowed_rising p y d, windowed_flat p y d,
    windowed_falling p y d, fun hl _ => windowed_trailing_zeros p y d hl⟩
  have hl : 4 ∣ min N P := by rcases min_choice N P with h | h <;> rw [h] <;> assumption
  have hr : 4 ∣ min N Q := by rcases min_choice N Q with h | h <;> rw [h] <;> assumption
  omega

end Sys2Proof.Machine
end

section
/-! SUPPORT. The overlap-add commands (R225 to R240): what each index of an output row is made of, on what the windowed
block and the output depend, and how `OLA` and `OLA_RESET` end. -/

namespace Sys2Proof.Machine

open Sys2Proof.Config

variable {s t : State} {f nf : BlockSize} {N P Q Q' c i j k : Nat}

/-! ## The mix of the tail and the windowed block (R228, R229) -/

theorem State.mixAt_of_le_of_lt (hPN : P ≤ N) (hj : j < P / 2) :
    s.mixAt N P Q c j = s.overlapSum N P Q c j (j + (N - P) / 4) := by
  rw [State.mixAt, if_pos hPN]; exact if_pos hj

theorem State.mixAt_of_le_of_ge (hPN : P ≤ N) (hj : P / 2 ≤ j) :
    s.mixAt N P Q c j = s.windowedAt N P Q c (j + (N - P) / 4) := by
  rw [State.mixAt, if_pos hPN]; exact if_neg hj.not_gt

theorem State.mixAt_of_gt_of_lt (hNP : N < P) (hj : j < (P - N) / 4) : s.mixAt N P Q c j = s.ovlAt c j := by
  rw [State.mixAt, if_neg hNP.not_ge]; exact if_pos hj

theorem State.mixAt_of_gt_of_ge (hNP : N < P) (hj : (P - N) / 4 ≤ j) :
    s.mixAt N P Q c j = s.overlapSum N P Q c j (j - (P - N) / 4) := by
  rw [State.mixAt, if_neg hNP.not_ge]; exact if_neg hj.not_gt

/-- An index of the output is a windowed sample, a word of the tail or a sum of the two, whatever the state; it reads no
tail word past the tail's half block. -/
theorem mixAt_cases (hj : j < P / 4 + N / 4) : ∃ i,
    (∀ (s : State) (Q c : Nat), s.mixAt N P Q c j = s.windowedAt N P Q c i) ∨
    (j < P / 2 ∧ ((∀ (s : State) (Q c : Nat), s.mixAt N P Q c j = s.ovlAt c j) ∨
      ∀ (s : State) (Q c : Nat), s.mixAt N P Q c j = s.overlapSum N P Q c j i)) := by
  rcases Nat.lt_or_ge N P with hNP | hPN
  · refine ⟨j - (P - N) / 4, .inr ⟨by omega, ?_⟩⟩
    rcases Nat.lt_or_ge j ((P - N) / 4) with h | h
    · exact .inl fun s Q c => State.mixAt_of_gt_of_lt hNP h
    · exact .inr fun s Q c => State.mixAt_of_gt_of_ge hNP h
  · refine ⟨j + (N - P) / 4, ?_⟩
    rcases Nat.lt_or_ge j (P / 2) with h | h
    · exact .inr ⟨h, .inr fun s Q c => State.mixAt_of_le_of_lt hPN h⟩
    · exact .inl fun s Q c => State.mixAt_of_le_of_ge hPN h

/-- An output word depends on the windowed block of its channel, the words of the tail and the draws (R239). -/
theorem State.mixAt_congr (hw : ∀ i, s.windowedAt N P Q c i = t.windowedAt N P Q' c i)
    (hovl : ∀ j, j < P / 2 → s.ovlAt c j = t.ovlAt c j) (hdraws : s.draws = t.draws) (hj : j < P / 4 + N / 4) :
    s.mixAt N P Q c j = t.mixAt N P Q' c j := by
  obtain ⟨i, h | ⟨hlt, h | h⟩⟩ := mixAt_cases hj
  · rw [h, h, hw]
  · rw [h, h, hovl j hlt]
  · rw [h, h, State.overlapSum, State.overlapSum, hw, hovl j hlt, hdraws]

/-- A windowed sample depends on the window table, the samples of its channel's block and the draws (R239). -/
theorem State.windowedAt_congr (hnum : s.cfg.num = t.cfg.num) (hdraws : s.draws = t.draws)
    (htime : ∀ i, i < N → s.timeAt c i = t.timeAt c i) (i : Nat) :
    s.windowedAt N P Q c i = t.windowedAt N P Q c i := by
  rw [State.windowedAt, State.windowedAt, hdraws]
  exact windowed_congr _ hnum (htime i)

theorem State.windowedAt_of_le (hQ : N ≤ Q) (hQ' : N ≤ Q') (i : Nat) :
    s.windowedAt N P Q c i = s.windowedAt N P Q' c i := windowed_of_le _ _ _ hQ hQ'

theorem State.lt_olaLen_iff :
    j < s.olaLen N ↔ s.olaState.ovlValid = true ∧ j < s.prevSize N / 4 + N / 4 := by
  rw [State.olaLen]; split <;> simp [*]

/-! ## The memories after an `OLA` of a block no longer than the next ones (R238) -/

theorem State.outAfter_of_le (hQ : N ≤ Q) (hQ' : N ≤ Q') : s.outAfter N Q = s.outAfter N Q' := by
  have hrow : s.outRow N Q = s.outRow N Q' := funext fun c => List.map_congr_left fun j hj =>
    State.mixAt_congr (State.windowedAt_of_le hQ hQ') (fun _ _ => rfl) rfl
      (State.lt_olaLen_iff.mp (List.mem_range.mp hj)).2
  rw [State.outAfter, State.outAfter, hrow]

theorem State.ovlAfter_of_le (hQ : N ≤ Q) (hQ' : N ≤ Q') : s.ovlAfter N Q = s.ovlAfter N Q' := by
  have hrow : s.tailRow N Q = s.tailRow N Q' := funext fun c => List.map_congr_left fun k _ =>
    State.windowedAt_of_le hQ hQ' _
  rw [State.ovlAfter, State.ovlAfter, hrow]

/-! ## Block sizes -/

theorem State.blockSize_congr (h : s.blkcfg = t.blkcfg) (f : BlockSize) : s.blockSize f = t.blockSize f := by
  cases f <;> simp only [State.blockSize, State.blockLog2, State.bs0Log2, State.bs1Log2, h]

theorem State.prevSize_congr (h : s.olaState = t.olaState) (N : Nat) : s.prevSize N = t.prevSize N := by
  rw [State.prevSize, State.prevSize, h]

theorem State.olaLen_congr (h : s.olaState = t.olaState) (N : Nat) : s.olaLen N = t.olaLen N := by
  rw [State.olaLen, State.olaLen, State.prevSize_congr h, h]

/-- The previous block size is a power of two like the sizes `BLKCFG` names. -/
theorem State.exists_prevSize_eq (s : State) (f : BlockSize) : ∃ b ≤ 15, s.prevSize (s.blockSize f) = 2 ^ b := by
  cases hv : s.olaState.ovlValid with
  | true => exact ⟨_, Nat.le_of_lt_succ s.olaState.prevLog2.isLt, s.prevSize_of_tail hv _⟩
  | false => exact ⟨_, Nat.le_of_lt_succ (s.blockLog2_lt f), s.prevSize_of_no_tail hv _⟩

/-! ## Silence (R240) -/

theorem State.isZero_windowedAt (nf : BlockSize) (htime : ∀ i, i < s.blockSize f → isZero (s.timeAt c i) = true)
    (i : Nat) :
    isZero (s.windowedAt (s.blockSize f) (s.prevSize (s.blockSize f)) (s.blockSize nf) c i) = true := by
  obtain ⟨b, hb, hprev⟩ := s.exists_prevSize_eq f
  rw [State.windowedAt, hprev]
  exact isZero_windowed _ _ (Nat.le_of_lt_succ (s.blockLog2_lt f)) hb (Nat.le_of_lt_succ (s.blockLog2_lt nf)) (htime i)

theorem State.isZero_mixAt (hw : ∀ i, isZero (s.windowedAt N P Q c i) = true)
    (hovl : ∀ j, j < P / 2 → isZero (s.ovlAt c j) = true) (hj : j < P / 4 + N / 4) :
    isZero (s.mixAt N P Q c j) = true := by
  obtain ⟨i, h | ⟨hlt, h | h⟩⟩ := mixAt_cases hj
  · rw [h]; exact hw i
  · rw [h]; exact hovl j hlt
  · rw [h]; exact isZero_fadd (hovl j hlt) (hw i) _

/-! ## The commands (R225, R232, R235) -/

/-- The state after an `OLA` that passed the phase check. -/
def State.afterOla (s : State) (f nf : BlockSize) : State :=
  { s with
    status := ⟨.ok, .run⟩, result := BitVec.ofNat 32 (s.olaLen (s.blockSize f)),
    outLen := BitVec.ofNat 32 (s.olaLen (s.blockSize f)), out := s.outAfter (s.blockSize f) (s.blockSize nf),
    ovl := s.ovlAfter (s.blockSize f) (s.blockSize nf), olaState := ⟨true, BitVec.ofNat 4 (s.blockLog2 f)⟩ }

theorem exec_ola_of_setup (hph : s.status.phase = .setup) :
    exec (.ola f nf) s = .next { s with status := ⟨.incompleteHeader, .setup⟩ } := by
  rw [← State.raise_of_phase hph]
  exact congrArg Host.Outcome.next (s.requirePhase_of_ne (by simp [hph]) _)

theorem exec_ola_of_run (hph : s.status.phase = .run) : exec (.ola f nf) s = .next (s.afterOla f nf) := by
  refine congrArg Host.Outcome.next ((s.requirePhase_of_eq hph _).trans ?_)
  exact State.succeed_of_phase (s := { s.afterOla f nf with status := s.status }) hph

theorem State.afterOla_outLen_toNat : (s.afterOla f nf).outLen.toNat = s.olaLen (s.blockSize f) :=
  Nat.mod_eq_of_lt ((s.olaLen_le (s.blockSize_le f)).trans_lt (by decide))

/-- An output word after an `OLA` (R230). -/
theorem State.get_afterOla_out (hc : c < s.channels) (hj : j < s.olaLen (s.blockSize f)) :
    (s.afterOla f nf).out.get (cellKey c j) =
      some (s.mixAt (s.blockSize f) (s.prevSize (s.blockSize f)) (s.blockSize nf) c j) := by
  have hlen := s.olaLen_le (s.blockSize_le f)
  exact (s.get_outAfter (s.blockSize_le f) _ c j (by omega)).trans (if_pos ⟨hc, hj⟩)

/-- A tail word after an `OLA` (R231). -/
theorem State.get_afterOla_ovl (hc : c < s.channels) (hk : k < s.blockSize f / 2) :
    (s.afterOla f nf).ovl.get (cellKey c k) =
      some (s.windowedAt (s.blockSize f) (s.prevSize (s.blockSize f)) (s.blockSize nf) c (s.blockSize f / 2 + k)) := by
  have hN := s.blockSize_le f
  exact (s.get_ovlAfter hN _ c k (by omega)).trans (if_pos ⟨hc, hk⟩)

theorem State.get_afterOla_out_outside (hk : k < 2 ^ 15) (h : ¬ (c < s.channels ∧ k < s.olaLen (s.blockSize f))) :
    (s.afterOla f nf).out.get (cellKey c k) = s.out.get (cellKey c k) :=
  (s.get_outAfter (s.blockSize_le f) _ c k hk).trans (if_neg h)

theorem State.get_afterOla_ovl_outside (hk : k < 2 ^ 15) (h : ¬ (c < s.channels ∧ k < s.blockSize f / 2)) :
    (s.afterOla f nf).ovl.get (cellKey c k) = s.ovl.get (cellKey c k) :=
  (s.get_ovlAfter (s.blockSize_le f) _ c k hk).trans (if_neg h)

/-- Without a tail no output is written and its length is 0 (R232). -/
theorem State.afterOla_of_no_tail (hv : s.olaState.ovlValid = false) :
    s.afterOla f nf = { s with
      status := ⟨.ok, .run⟩, result := 0, outLen := 0, ovl := (s.afterOla f nf).ovl,
      olaState := ⟨true, BitVec.ofNat 4 (s.blockLog2 f)⟩ } := by
  have hout : s.outAfter (s.blockSize f) (s.blockSize nf) = s.out := if_neg (by simp [hv])
  rw [State.afterOla, s.olaLen_of_no_tail hv, hout]
  rfl

/-! ## The obligations -/

/-- Settles O50: without a tail the previous block size is the block's own, and nothing of `OUT` is written. -/
theorem firstOlaEmitsNothing : Obligations.FirstOlaEmitsNothing := by
  rintro s f nf N Q hph hv rfl rfl
  refine ⟨(s.afterOla f nf).ovl, ?_, fun c k hc hk => ?_, fun c k hk h => State.get_afterOla_ovl_outside hk h⟩
  · rw [exec_ola_of_run hph]
    exact congrArg Host.Outcome.next (State.afterOla_of_no_tail hv)
  · rw [State.get_afterOla_ovl hc hk, s.prevSize_of_no_tail hv]
    rfl

/-- Settles O51: each index of the output by the side of R228 or R229 it lies on. -/
theorem olaOverlapsAndKeepsTheTail : Obligations.OlaOverlapsAndKeepsTheTail := by
  refine ⟨by decide, ?_⟩
  rintro s f nf N P Q LEN wd sum rfl rfl rfl rfl hwd hsum
  refine ⟨exec_ola_of_setup, fun hph hv => ?_⟩
  have hprev := s.prevSize_of_tail hv (s.blockSize f)
  have hlen := s.olaLen_of_tail hv (s.blockSize f)
  have hwindowed (c i : Nat) :
      s.windowedAt (s.blockSize f) (2 ^ s.olaState.prevLog2.toNat) (s.blockSize nf) c i = wd c i := (hwd c i).symm
  have hsums (c j i : Nat) :
      s.overlapSum (s.blockSize f) (2 ^ s.olaState.prevLog2.toNat) (s.blockSize nf) c j i = sum c j i := by
    rw [hsum, State.overlapSum, hwindowed]
  refine ⟨(s.afterOla f nf).out, (s.afterOla f nf).ovl, ?_, fun c j hc hj hPN hlt => ?_, fun c j hc hj hPN hge => ?_,
    fun c j hc hj hNP hlt => ?_, fun c j hc hj hNP hge => ?_,
    fun c k hk h => State.get_afterOla_out_outside hk (by rwa [hlen]), fun c k hc hk => ?_,
    fun c k hk h => State.get_afterOla_ovl_outside hk h⟩
  · rw [exec_ola_of_run hph, ← hlen]; rfl
  · rw [State.get_afterOla_out hc (hlen ▸ hj), hprev, State.mixAt_of_le_of_lt hPN hlt, hsums]
  · rw [State.get_afterOla_out hc (hlen ▸ hj), hprev, State.mixAt_of_le_of_ge hPN hge, hwindowed]
  · rw [State.get_afterOla_out hc (hlen ▸ hj), hprev, State.mixAt_of_gt_of_lt hNP hlt]
  · rw [State.get_afterOla_out hc (hlen ▸ hj), hprev, State.mixAt_of_gt_of_ge hNP hge, hsums]
  · rw [State.get_afterOla_ovl hc hk, hprev, hwindowed]

/-- Settles O52: both slopes of a short block are at most as long as the block itself. -/
theorem shortOlaIgnoresNextSize : Obligations.ShortOlaIgnoresNextSize := by
  intro s hle
  cases hph : s.status.phase with
  | setup => rw [exec_ola_of_setup hph, exec_ola_of_setup hph]
  | run =>
    have hlong : s.blockSize .short ≤ s.blockSize .long := Nat.pow_le_pow_right two_pos hle
    rw [exec_ola_of_run hph, exec_ola_of_run hph, State.afterOla, State.afterOla, State.outAfter_of_le le_rfl hlong,
      State.ovlAfter_of_le le_rfl hlong]

/-- Settles O53: windowing and adding keep zeros. -/
theorem olaOfSilenceIsSilent : Obligations.OlaOfSilenceIsSilent := by
  intro s f nf hph htime hovl
  refine ⟨_, exec_ola_of_run hph, fun c j hc hj => ?_, fun c k hc hk => ?_⟩
  · rw [State.afterOla_outLen_toNat] at hj
    obtain ⟨hv, hlt⟩ := State.lt_olaLen_iff.mp hj
    refine ⟨_, State.get_afterOla_out hc hj,
      State.isZero_mixAt (State.isZero_windowedAt nf fun i => htime c i hc) (fun j hj => hovl hv c j hc ?_) hlt⟩
    rwa [s.prevSize_of_tail hv] at hj
  · exact ⟨_, State.get_afterOla_ovl hc hk, State.isZero_windowedAt nf (fun i => htime c i hc) _⟩

/-- Settles O54: the words written to a channel are the `mixAt` and `windowedAt` of that channel. -/
theorem olaChannelsAreIndependent : Obligations.OlaChannelsAreIndependent := by
  intro s t s' t' f nf c hc hs ht hnum hblk hnch hola hdraws htime hovl hexec hexec'
  obtain rfl := Host.Outcome.next.inj ((exec_ola_of_run hs).symm.trans hexec)
  obtain rfl := Host.Outcome.next.inj ((exec_ola_of_run ht).symm.trans hexec')
  have hct : c < t.channels := by rwa [State.channels, ← hnch]
  have hN := State.blockSize_congr hblk
  have hlen : s.olaLen (s.blockSize f) = t.olaLen (t.blockSize f) := by rw [hN, State.olaLen_congr hola]
  have hprev : s.prevSize (s.blockSize f) = t.prevSize (t.blockSize f) := by rw [hN, State.prevSize_congr hola]
  have hw (i : Nat) : s.windowedAt (s.blockSize f) (s.prevSize (s.blockSize f)) (s.blockSize nf) c i =
      t.windowedAt (t.blockSize f) (t.prevSize (t.blockSize f)) (t.blockSize nf) c i := by
    rw [State.windowedAt_congr hnum hdraws htime, hprev, hN, hN]
  refine ⟨congrArg (BitVec.ofNat 32) hlen, fun j hj => ?_, fun k hk => ?_⟩
  · rw [State.afterOla_outLen_toNat] at hj
    obtain ⟨hv, hlt⟩ := State.lt_olaLen_iff.mp hj
    rw [State.get_afterOla_out hc hj, State.get_afterOla_out hct (hlen ▸ hj)]
    rw [← hprev, ← hN] at hw ⊢
    refine congrArg some (State.mixAt_congr hw (fun j hj => hovl hv j ?_) hdraws hlt)
    rwa [s.prevSize_of_tail hv] at hj
  · rw [State.get_afterOla_ovl hc hk, State.get_afterOla_ovl hct (hN f ▸ hk), hw, hN f]

/-- Settles O55: the two sides of the command's phase check. -/
theorem olaResetForgetsTheTail : Obligations.OlaResetForgetsTheTail := by
  refine ⟨by decide, fun s => ⟨fun hph => ?_, fun hph => ?_⟩⟩
  · rw [← State.raise_of_phase hph]
    exact congrArg Host.Outcome.next (s.requirePhase_of_ne (by simp [hph]) _)
  · refine congrArg Host.Outcome.next ((s.requirePhase_of_eq hph _).trans ?_)
    exact State.succeed_of_phase (s := { s with olaState := ⟨false, 0⟩, outLen := 0 }) hph

end Sys2Proof.Machine
end

section
/-! SUPPORT. Errors (R145, R263, R273): what a command that ends with an error leaves unchanged, and that the walk of a
record whose codes fill the code space always meets one of them. -/

namespace Sys2Proof.Machine

open Sys2Proof.Config

variable {s t : State} {b : Nat} {bk : Book} {i : Instr} {tab : List CodeEntry} {x : Nat}

/-! ## The state after an error (R273) -/

/-- A command that ends with an error takes it in the state before the command, or it is a decode and takes it where the
walk left the cursor. -/
theorem CommandEnd.error_cases (h : CommandEnd s i t) (herr : t.status.err ≠ .ok) :
    ∃ e, t = s.raise e ∨ (IsDecode i ∧ ∃ p, t = (s.seek p).raise e) := by
  cases h with
  | wrongPhase => exact ⟨_, .inl rfl⟩
  | raised _ e => exact ⟨e, .inl rfl⟩
  | walkFailed _ p e hi => exact ⟨e, .inr ⟨hi, p, rfl⟩⟩
  | _ => exact absurd rfl herr

/-! ## Codes that fill the code space (R144, R145) -/

/-- The strings that begin with a code are those whose first bits are the code. -/
theorem mem_codeSpan_iff {l c : Nat} : x ∈ codeSpan l c ↔ x / 2 ^ (32 - l) = c := by
  have hpos := Nat.two_pow_pos (32 - l)
  rw [codeSpan, Set.mem_Ico, Nat.div_eq_iff hpos, Nat.add_mul]
  omega

/-- Of two codes that begin one string the shorter begins the longer. -/
theorem codePrefix_of_mem_span {a e : CodeEntry} (ha : x ∈ a.span) (he : x ∈ e.span) (hle : a.len ≤ e.len)
    (hlen : e.len ≤ 32) : CodePrefix a e := by
  have hsplit : 32 - e.len + (e.len - a.len) = 32 - a.len := by omega
  refine ⟨hle, ?_⟩
  rw [← mem_codeSpan_iff.mp he, Nat.div_div_eq_div_mul, ← Nat.pow_add, hsplit]
  exact mem_codeSpan_iff.mp ha

/-- The spans of the codes of a table that meets `PrefixCode` are disjoint. -/
theorem PrefixCode.pairwise_disjoint (h : PrefixCode tab) (hlen : ∀ e ∈ tab, e.len ≤ 32) :
    tab.Pairwise fun a e => Disjoint a.span e.span := by
  refine h.imp_of_mem fun {a e} ha he ⟨hae, hea⟩ => Set.disjoint_left.mpr fun x hxa hxe => ?_
  rcases Nat.le_total a.len e.len with hle | hle
  · exact hae (codePrefix_of_mem_span hxa hxe hle (hlen e he))
  · exact hea (codePrefix_of_mem_span hxe hxa hle (hlen a ha))

/-- The span of a code that fits its length lies in the code space. -/
theorem CodeEntry.span_subset_codeSpace {e : CodeEntry} (hlen : e.len ≤ 32) (hcode : e.code < 2 ^ e.len) :
    e.span ⊆ Finset.range (2 ^ 32) := by
  intro x hx
  rw [← mem_codeSpan_iff.mp hx, Nat.div_lt_iff_lt_mul (Nat.two_pow_pos _), ← Nat.pow_add,
    Nat.add_sub_cancel' hlen] at hcode
  exact Finset.mem_coe.mpr (Finset.mem_range.mpr hcode)

/-- A span is as large as what its code takes of the code space. -/
theorem CodeEntry.exists_finset_span (e : CodeEntry) :
    ∃ F : Finset Nat, (F : Set Nat) = e.span ∧ F.card = 2 ^ (32 - e.len) :=
  ⟨.Ico (e.code * 2 ^ (32 - e.len)) ((e.code + 1) * 2 ^ (32 - e.len)), Finset.coe_Ico _ _, by
    rw [Nat.card_Ico, Nat.add_mul, Nat.one_mul, Nat.add_sub_cancel_left]⟩

/-- Codes with disjoint spans take no more than the strings they stand in. -/
theorem tabSum_le_card {S : Finset Nat} (hdisj : tab.Pairwise fun a e => Disjoint a.span e.span)
    (hS : ∀ e ∈ tab, e.span ⊆ S) : tabSum tab ≤ S.card := by
  induction tab generalizing S with
  | nil => exact Nat.zero_le _
  | cons a tab ih =>
    obtain ⟨hhead, htail⟩ := List.pairwise_cons.mp hdisj
    obtain ⟨ha, hrest⟩ := List.forall_mem_cons.mp hS
    obtain ⟨F, hF, hcard⟩ := a.exists_finset_span
    have hFS : F ⊆ S := Finset.coe_subset.mp (hF ▸ ha)
    have hle : tabSum tab ≤ (S \ F).card := ih htail fun e he => by
      rw [Finset.coe_sdiff, hF]
      exact Set.subset_sdiff.mpr ⟨hrest e he, (hhead e he).symm⟩
    calc tabSum (a :: tab) = F.card + tabSum tab := by rw [hcard]; rfl
      _ ≤ F.card + (S \ F).card := Nat.add_le_add_left hle _
      _ = S.card := by rw [Nat.add_comm, Finset.card_sdiff_add_card_eq_card hFS]

/-- Codes with disjoint spans that take as much as the strings they stand in leave none of them out. -/
theorem exists_mem_span_of_tabSum_eq {S : Finset Nat} (hdisj : tab.Pairwise fun a e => Disjoint a.span e.span)
    (hS : ∀ e ∈ tab, e.span ⊆ S) (hsum : tabSum tab = S.card) (hx : x ∈ S) : ∃ e ∈ tab, x ∈ e.span := by
  by_contra! hnone
  have hle : tabSum tab ≤ (S.erase x).card := tabSum_le_card hdisj fun e he => by
    rw [Finset.coe_erase]
    exact Set.subset_sdiff_singleton (hS e he) (hnone e he)
  exact absurd (Finset.card_erase_lt_of_mem hx) (by omega)

/-! ## The walk along a complete code (R145, R150, R263) -/

/-- The first bits of a string of packet bits. -/
theorem State.codeAt_div (s : State) (p n k : Nat) : s.codeAt p (n + k) / 2 ^ k = s.codeAt p n := by
  induction k with
  | zero => exact Nat.div_one _
  | succ k ih =>
    have hlast : s.codeAt p (n + (k + 1)) / 2 = s.codeAt p (n + k) := by
      have hbit := Bool.toNat_le (s.pktBit (p + (n + k)))
      rw [← Nat.add_assoc, State.codeAt]
      omega
    rw [Nat.pow_succ', ← Nat.div_div_eq_div_mul, hlast, ih]

/-- The next 32 packet bits begin with a code of the table, when it meets `PrefixCode` and fills the code space. -/
theorem BookInv.not_noCodeWithin {p : Params} (hinv : BookInv p bk) (hpc : PrefixCode bk.tab)
    (hsum : tabSum bk.tab = 2 ^ 32) (s : State) : ¬ s.NoCodeWithin bk bk.lmax := by
  have hlen : ∀ e ∈ bk.tab, e.len ≤ 32 := fun e he => (hinv.entries e he).2.1
  have hinside : ∀ e ∈ bk.tab, e.span ⊆ Finset.range (2 ^ 32) := fun e he => by
    obtain ⟨-, hle, hcode, -⟩ := hinv.entries e he
    exact CodeEntry.span_subset_codeSpace hle hcode
  have hnext : s.codeAt s.bitpos.toNat 32 ∈ Finset.range (2 ^ 32) := Finset.mem_range.mpr (s.codeAt_lt _ _)
  obtain ⟨e, he, hmem⟩ := exists_mem_span_of_tabSum_eq (hpc.pairwise_disjoint hlen) hinside
    (hsum.trans (Finset.card_range _).symm) hnext
  obtain ⟨hpos, hle, -⟩ := hinv.entries e he
  obtain ⟨-, hmax, -⟩ := hinv.lmax
  have hcode : e.code = s.codeAt s.bitpos.toNat e.len := by
    rw [← s.codeAt_div _ e.len (32 - e.len), Nat.add_sub_cancel' hle]
    exact (mem_codeSpan_iff.mp hmem).symm
  exact fun hno => hno e.len hpos (hmax e he) e he ⟨rfl, hcode⟩

/-- Only a walk that meets no code within `LMAX` bits ends as `noLeaf` (R151). -/
theorem State.noCodeWithin_of_walk {p : Nat} (h : s.walk bk = .noLeaf p) : s.NoCodeWithin bk bk.lmax := by
  rcases s.walk_cases bk with ⟨_, _, -, -, -, hw, -⟩ | ⟨_, -, -, -, hw, -⟩ | ⟨-, -, hno⟩
  · cases hw.symm.trans h
  · cases hw.symm.trans h
  · exact hno

/-! ## The one cause of `InvalidCodeword` (R151, R263) -/

/-- A decode command goes on to the walk, unless it asks a scalar record for a vector (R152). -/
theorem decodesBy_or_scalar (hi : i = .cbDecode b ∨ i = .cbDecodeVq b) (bk : Book) :
    (∃ k, DecodesBy i b bk k) ∨ (i = .cbDecodeVq b ∧ bk.hasVq = false) := by
  rcases hi with rfl | rfl
  · exact .inl ⟨_, .symbol b bk⟩
  · cases hvq : bk.hasVq with
    | true => exact .inl ⟨_, .vector b bk hvq⟩
    | false => exact .inr ⟨rfl, rfl⟩

/-- Both decode commands succeed once they have a symbol. -/
theorem DecodesBy.err_eq_ok {k : Nat → State → State} (h : DecodesBy i b bk k) (y : Nat) (t : State) :
    (k y t).status.err = .ok := by
  cases h <;> rfl

/-- A decode that takes `InvalidCodeword` walked `LMAX` bits and met no code. -/
theorem exists_walk_eq_noLeaf (hi : i = .cbDecode b ∨ i = .cbDecodeVq b) (hb : s.readyBook b = some bk)
    (hexec : exec i s = .next t) (herr : t.status.err = .invalidCodeword) : ∃ p, s.walk bk = .noLeaf p := by
  cases hph : s.status.phase with
  | setup =>
    cases (exec_decode_of_setup hi hph).symm.trans hexec
    cases herr
  | run =>
    rcases decodesBy_or_scalar hi bk with ⟨k, hk⟩ | ⟨rfl, hvq⟩
    · cases (exec_decode hk hph hb).symm.trans hexec
      rcases s.decodeWith_cases bk k with ⟨y, p, -, hw⟩ | ⟨p, -, hw⟩ | ⟨p, hwalk, -⟩
      · rw [hw, hk.err_eq_ok] at herr; cases herr
      · rw [hw] at herr; cases herr
      · exact ⟨p, hwalk⟩
    · cases (exec_cbDecodeVq_of_scalar hph hb hvq).symm.trans hexec
      cases herr

/-! ## The obligations -/

/-- Settles O25: an error is taken by `raise` alone, after `seek` alone when it is the walk's. -/
theorem errorsArePrecise : Obligations.ErrorsArePrecise := by
  intro i s t hexec herr
  obtain ⟨e, rfl | ⟨hi, p, rfl⟩⟩ := (exec_end hexec).error_cases herr
  · exact ⟨rfl, fun hmoved => absurd rfl hmoved⟩
  · exact ⟨rfl, fun _ => hi⟩

/-- Settles O42: the spans of a complete `PrefixCode` cover the code space, so one begins the next bits. -/
theorem completeCodeHasNoDeadEnd : Obligations.CompleteCodeHasNoDeadEnd := by
  intro s t b bk i hb hinv hpc hsum hi hexec herr
  obtain ⟨p, hwalk⟩ := exists_walk_eq_noLeaf hi (State.readyBook_of_holds hb) hexec herr
  exact hinv.not_noCodeWithin hpc hsum s (State.noCodeWithin_of_walk hwalk)

end Sys2Proof.Machine
end

section
/-! SUPPORT. Completion (R260, R261, R266, R315): every command word has a next state, and no command ends with one of
the two error codes the VCU reserves. -/

namespace Sys2Proof.Machine

variable {s t : State}

/-! ## The reserved error codes (R261, R266) -/

/-- 5 and 6 are the numbers of the two reserved errors alone. -/
theorem Err.code_of_not_reserved {e : Err} (hfeature : e ≠ .unsupportedFeature) (hdecode : e ≠ .decodeError) :
    e.code ≤ 4 ∨ e.code = 7 ∨ e.code = 8 := by
  cases e with
  | unsupportedFeature => exact absurd rfl hfeature
  | decodeError => exact absurd rfl hdecode
  | _ => decide

/-- No command ends with a reserved error. -/
theorem CommandEnd.err_not_reserved {i : Instr} (h : CommandEnd s i t) :
    t.status.err ≠ .unsupportedFeature ∧ t.status.err ≠ .decodeError := by
  cases h with
  | raised _ _ _ he => rcases he with rfl | rfl | rfl <;> exact ⟨nofun, nofun⟩
  | walkFailed _ _ _ _ _ he => rcases he with rfl | rfl <;> exact ⟨nofun, nofun⟩
  | _ => exact ⟨nofun, nofun⟩

/-! ## Every word completes (R315) -/

/-- Every write to `CMD` has a next state: an illegal word takes its error, and a command runs whole. -/
theorem exists_runCommand_eq_next (w : Word) (s : State) : ∃ t, runCommand w s = .next t := by
  cases hd : decode w with
  | illegal why => exact ⟨_, runCommand_of_illegal hd s⟩
  | command i => rw [runCommand_of_command hd]; exact exists_exec_eq_next i s

/-- No write to `CMD` ends with a reserved error. -/
theorem runCommand_err_not_reserved {w : Word} (h : runCommand w s = .next t) :
    t.status.err ≠ .unsupportedFeature ∧ t.status.err ≠ .decodeError := by
  rcases runCommand_cases h with rfl | ⟨i, -, hend⟩
  · exact ⟨nofun, nofun⟩
  · exact hend.err_not_reserved

/-! ## The obligations -/

/-- Settles O24: the next state exists, and its error is not a reserved one. -/
theorem everyCommandWordCompletes : Obligations.EveryCommandWordCompletes := by
  intro w s
  obtain ⟨t, hrun⟩ := exists_runCommand_eq_next w s
  obtain ⟨hfeature, hdecode⟩ := runCommand_err_not_reserved hrun
  exact ⟨t, hrun, Err.code_of_not_reserved hfeature hdecode⟩

end Sys2Proof.Machine
end

section
/-! SUPPORT. Where the two code assignments meet (90_conflicts.md C1): over lengths that never decrease, the free nodes
of `FIRST_FIT` follow one another to the end of the code space, so its codes too stand without a gap from 0 on. -/

namespace Sys2Proof.Machine

/-! ## The order of a table fixes it -/

theorem UsedOrder.len_le {a b : UsedSym} (h : UsedOrder a b) : a.1 ≤ b.1 := by
  rcases h with h | ⟨h, -⟩ <;> omega

/-- Two lists with the same elements, both in the order of the used symbols, are equal. -/
theorem eq_of_usedOrder {α : Type} {f : α → UsedSym} {xs ys : List α}
    (hx : xs.Pairwise fun a b => UsedOrder (f a) (f b)) (hy : ys.Pairwise fun a b => UsedOrder (f a) (f b))
    (hmem : ∀ a, a ∈ xs ↔ a ∈ ys) : xs = ys := by
  have hasymm : Std.Asymm fun a b : α => UsedOrder (f a) (f b) := ⟨fun a b h h' => by
    rcases h with h | ⟨h, hs⟩ <;> rcases h' with h' | ⟨h', hs'⟩ <;> omega⟩
  exact hx.eq_of_mem_iff hy hmem

/-- Sorting a table that is in the table's order changes nothing. -/
theorem sortByLength_eq_self {tab : List CodeEntry} (htab : tab.Pairwise TableOrder)
    (hlen : ∀ e ∈ tab, 1 ≤ e.len ∧ e.len ≤ 32) :
    ((List.range' 1 32).flatMap fun l => tab.filter fun e => e.len == l) = tab := by
  refine eq_of_usedOrder (f := CodeEntry.usedSym) ?_ htab fun e => ?_
  · exact pairwise_sortByLength CodeEntry.len (fun _ _ _ _ h => .inl h)
      (htab.imp fun h heq => .inr ⟨heq, (h.resolve_left heq.not_lt).2⟩)
  · rw [mem_sortByLength]
    exact ⟨And.left, fun he => ⟨he, hlen e he⟩⟩

theorem usedInOrder_map_fst (lens : List Nat) : (usedInOrder lens).map Prod.fst = lens.filter fun l => l != 0 := by
  conv_rhs => rw [← List.zipIdx_map_fst 0 lens, List.filter_map]
  rfl

/-- When the lengths never decrease, symbol order is the table's order. -/
theorem usedInOrder_pairwise {lens : List Nat} (hrise : (lens.filter fun l => l != 0).Pairwise (· ≤ ·)) :
    (usedInOrder lens).Pairwise UsedOrder := by
  have hlen : (usedInOrder lens).Pairwise fun a b => a.1 ≤ b.1 := by
    rw [← usedInOrder_map_fst, List.pairwise_map] at hrise
    exact hrise
  refine (hlen.and ((zipIdx_pairwise_snd_lt lens).filter _)).imp fun ⟨h, hsym⟩ => ?_
  exact (Nat.lt_or_eq_of_le h).imp_right fun heq => ⟨heq, hsym⟩

theorem usedSorted_eq_usedInOrder {lens : List Nat} (hl : ∀ l ∈ lens, l ≤ 32)
    (hrise : (lens.filter fun l => l != 0).Pairwise (· ≤ ·)) : usedSorted lens = usedInOrder lens :=
  eq_of_usedOrder (f := id) (usedSorted_pairwise lens) (usedInOrder_pairwise hrise) fun _ =>
    (usedSorted_perm_usedInOrder hl).mem_iff

/-- Codes that fill the code space from p on are fixed by their symbols. -/
theorem Tiles.eq_of_usedSym {tab tab' : List CodeEntry} {p : Nat} (h : Tiles p tab) (h' : Tiles p tab')
    (hsym : tab.map CodeEntry.usedSym = tab'.map CodeEntry.usedSym) : tab = tab' := by
  induction tab generalizing p tab' with
  | nil => exact (List.map_eq_nil_iff.mp hsym.symm).symm
  | cons e tab ih =>
    obtain ⟨e', tab', rfl, he', htab'⟩ := List.map_eq_cons_iff.mp hsym.symm
    obtain ⟨l, c, y⟩ := e
    obtain ⟨l', c', y'⟩ := e'
    cases he'
    obtain ⟨hc, htab⟩ := h
    obtain ⟨hc', htiles'⟩ := h'
    obtain rfl : c = c' := Nat.eq_of_mul_eq_mul_right (Nat.two_pow_pos _) (hc.trans hc'.symm)
    rw [ih htab htiles' htab'.symm]

/-! ## Free nodes that follow one another (U14) -/

/-- How much of the code space the free nodes down to depth y hold, in units of 2^-32. -/
def Avail.spaceTo (avail : Avail) (y : Nat) : Nat := ∑ x ∈ avail.depths with x ≤ y, 2 ^ (32 - x)

/-- The free nodes, none below depth l, fill the end of the code space from the deepest to the shallowest. -/
structure Avail.Packed (avail : Avail) (l : Nat) : Prop where
  depth_le : ∀ {y q}, avail.Free y q → y ≤ l
  start : ∀ {y q}, avail.Free y q → q * 2 ^ (32 - y) + avail.spaceTo y = 2 ^ 32

section
variable {avail : Avail} {l l' z r : Nat}

theorem Avail.depths_first (hl : l ≤ 32) : (Avail.first l).depths = Finset.Ioc 0 l := by
  ext y
  rw [Avail.mem_depths, Finset.mem_Ioc]
  constructor
  · rintro ⟨⟨hy, -⟩, q, hq⟩
    rcases Avail.leftBeside_first l y q hq with ⟨hroot, hy0⟩ | ⟨-, hyl, -⟩
    · exact absurd (Avail.free_whole.mp hroot).1 hy0
    · exact ⟨hy, hyl⟩
  · rintro ⟨hy, hyl⟩
    refine ⟨⟨hy, hyl.trans hl⟩, 1, ?_⟩
    rw [Avail.Free, Avail.first, List.getElem?_map, List.getElem?_range (by omega), Option.map_some, if_pos ⟨hy, hyl⟩]

/-- After the first code the free nodes are packed. -/
theorem Avail.packed_first (hl : l ≤ 32) : (Avail.first l).Packed l := by
  have hfree : ∀ {y q}, (Avail.first l).Free y q → 0 < y ∧ y ≤ l ∧ q = 1 := fun {y q} hf => by
    rcases Avail.leftBeside_first l y q hf with ⟨hroot, hy0⟩ | ⟨hy, hyl, hq⟩
    · exact absurd (Avail.free_whole.mp hroot).1 hy0
    · exact ⟨hy, hyl, by omega⟩
  refine ⟨fun hf => (hfree hf).2.1, fun {y q} hf => ?_⟩
  obtain ⟨hy, hyl, rfl⟩ := hfree hf
  have hdepths : (Avail.first l).depths.filter (· ≤ y) = Finset.Ioc 0 y := by
    ext x
    rw [Avail.depths_first hl, Finset.mem_filter, Finset.mem_Ioc, Finset.mem_Ioc]
    omega
  have hsum := sum_space_between (Nat.zero_le y) (hyl.trans hl)
  rw [Avail.spaceTo, hdepths]
  omega

/-- A code no shorter than the deepest free node is taken from it. -/
theorem Avail.Packed.le_deepest (h : avail.Packed l) (hll : l ≤ l') (hd : avail.deepest l' = some (z, r)) {y q : Nat}
    (hf : avail.Free y q) : y ≤ z :=
  Nat.le_of_not_lt fun hzy => (Avail.deepest_deepest hd).2 y q hzy ((h.depth_le hf).trans hll) hf

/-- The node a code is taken from begins where the codes so far end. -/
theorem Avail.Packed.deepest_start (h : avail.Packed l) (hll : l ≤ l') (hd : avail.deepest l' = some (z, r)) :
    r * 2 ^ (32 - z) + avail.space = 2 ^ 32 := by
  have hspace : avail.spaceTo z = avail.space := by
    refine congrArg (fun s => ∑ x ∈ s, 2 ^ (32 - x)) (Finset.filter_true_of_mem fun y hy => ?_)
    obtain ⟨-, q, hq⟩ := Avail.mem_depths.mp hy
    exact h.le_deepest hll hd hq
  rw [← hspace]
  exact h.start (Avail.deepest_eq_some hd).1

/-- Taking a code from the node at depth z leaves the free nodes at shallower depths as they are. -/
theorem Avail.spaceTo_take_of_lt (hlen : avail.length = 33) (hl : l ≤ 32) {y : Nat} (hyz : y < z) :
    (avail.take z r l).spaceTo y = avail.spaceTo y := by
  have hdepths : (avail.take z r l).depths.filter (· ≤ y) = avail.depths.filter (· ≤ y) := by
    ext x
    rw [Avail.depths_take hlen hl]
    simp only [Finset.mem_filter, Finset.mem_union, Finset.mem_erase, Finset.mem_Ioc]
    constructor
    · rintro ⟨⟨-, hx⟩ | hx, hxy⟩
      · exact ⟨hx, hxy⟩
      · omega
    · rintro ⟨hx, hxy⟩
      exact ⟨.inl ⟨by omega, hx⟩, hxy⟩
  rw [Avail.spaceTo, hdepths, Avail.spaceTo]

/-- A node left over beside a code begins one node of its own depth after the node the code was taken from. -/
theorem Avail.Packed.spaceTo_take (h : avail.Packed l) (hlen : avail.length = 33) (hll : l ≤ l') (hl : l' ≤ 32)
    (hd : avail.deepest l' = some (z, r)) {y : Nat} (hzy : z < y) (hy : y ≤ l') :
    (avail.take z r l').spaceTo y + 2 ^ (32 - y) = avail.space := by
  obtain ⟨hz, -⟩ := Avail.deepest_eq_some hd
  have hmem : z ∈ avail.depths := Avail.mem_depths.mpr ⟨⟨(Avail.deepest_deepest hd).1, by omega⟩, r, hz⟩
  have hle : ∀ x ∈ avail.depths, x ≤ z := fun x hx => by
    obtain ⟨-, q, hq⟩ := Avail.mem_depths.mp hx
    exact h.le_deepest hll hd hq
  have hdepths : (avail.take z r l').depths.filter (· ≤ y) = avail.depths.erase z ∪ Finset.Ioc z y := by
    ext x
    rw [Avail.depths_take hlen hl]
    simp only [Finset.mem_filter, Finset.mem_union, Finset.mem_erase, Finset.mem_Ioc]
    have := hle x
    constructor
    · rintro ⟨hx | hx, hxy⟩
      · exact .inl hx
      · exact .inr ⟨hx.1, hxy⟩
    · rintro (⟨hne, hx⟩ | hx)
      · exact ⟨.inl ⟨hne, hx⟩, (hle x hx).trans hzy.le⟩
      · exact ⟨.inr ⟨hx.1, hx.2.trans hy⟩, hx.2⟩
  have hdisj : Disjoint (avail.depths.erase z) (Finset.Ioc z y) := Finset.disjoint_left.mpr fun x hx hxy =>
    absurd (hle x (Finset.mem_of_mem_erase hx)) (by rw [Finset.mem_Ioc] at hxy; omega)
  rw [Avail.spaceTo, hdepths, Finset.sum_union hdisj, Nat.add_assoc, sum_space_between hzy.le (hy.trans hl)]
  exact Finset.sum_erase_add _ _ hmem

/-- Taking a code no shorter than the ones before keeps the free nodes packed. -/
theorem Avail.Packed.take (h : avail.Packed l) (hlen : avail.length = 33) (hll : l ≤ l') (hl : l' ≤ 32)
    (hd : avail.deepest l' = some (z, r)) : (avail.take z r l').Packed l' where
  depth_le {y q} hf := by
    rcases avail.leftBeside_take z r l' y q hf with ⟨hf, -⟩ | ⟨-, hy, -⟩
    · exact (h.depth_le hf).trans hll
    · exact hy
  start {y q} hf := by
    rcases avail.leftBeside_take z r l' y q hf with ⟨hf, hyz⟩ | ⟨hzy, hy, rfl⟩
    · rw [Avail.spaceTo_take_of_lt hlen hl (lt_of_le_of_ne (h.le_deepest hll hd hf) hyz)]
      exact h.start hf
    · have hspace := h.spaceTo_take hlen hll hl hd hzy hy
      have hstart := h.deepest_start hll hd
      have hpow : r * 2 ^ (y - z) * 2 ^ (32 - y) = r * 2 ^ (32 - z) := by
        rw [Nat.mul_assoc, ← Nat.pow_add]; congr 2; omega
      rw [Nat.add_mul, Nat.one_mul, hpow]
      omega

end

/-! ## The codes of `FIRST_FIT` for lengths that never decrease -/

/-- Each code stands where the codes before it end. -/
theorem firstFitAfter_tiles {used : List UsedSym} {avail : Avail} {l p : Nat} {tab : List CodeEntry}
    (h : avail.Packed l) (hlen : avail.length = 33) (hl : ∀ u ∈ used, l ≤ u.1 ∧ u.1 ≤ 32)
    (hs : used.Pairwise UsedOrder) (hp : p + avail.space = 2 ^ 32) (htab : firstFitAfter avail used = some tab) :
    Tiles p tab := by
  induction used generalizing avail l p tab with
  | nil => cases htab; trivial
  | cons u used ih =>
    obtain ⟨hhead, htail⟩ := List.pairwise_cons.mp hs
    obtain ⟨hlu, hu⟩ := hl u List.mem_cons_self
    rw [firstFitAfter] at htab
    split at htab
    · cases htab
    · next z r hd =>
      obtain ⟨rest, hrest, rfl⟩ := Option.map_eq_some_iff.mp htab
      have hrise : ∀ v ∈ used, u.1 ≤ v.1 ∧ v.1 ≤ 32 := fun v hv =>
        ⟨(hhead v hv).len_le, (hl v (List.mem_cons_of_mem _ hv)).2⟩
      obtain ⟨-, hzl⟩ := Avail.deepest_eq_some hd
      have hstart := h.deepest_start hlu hd
      have hspace := Avail.space_take hlen hu hd
      have hnext : p + 2 ^ (32 - u.1) + (avail.take z r u.1).space = 2 ^ 32 := by omega
      have hcode : r * 2 ^ (u.1 - z) * 2 ^ (32 - u.1) = r * 2 ^ (32 - z) := by
        rw [Nat.mul_assoc, ← Nat.pow_add]; congr 2; omega
      exact ⟨by rw [hcode]; omega,
        ih (h.take hlen hlu hu hd) ((avail.take_length z r u.1).trans hlen) hrise htail hnext hrest⟩

theorem firstFit_tiles {used : List UsedSym} {tab : List CodeEntry} (hl : ∀ u ∈ used, u.1 ≤ 32)
    (hs : used.Pairwise UsedOrder) (htab : firstFit used = some tab) : Tiles 0 tab := by
  cases used with
  | nil => cases htab; trivial
  | cons u used =>
    obtain ⟨hhead, htail⟩ := List.pairwise_cons.mp hs
    obtain ⟨rest, hrest, rfl⟩ := Option.map_eq_some_iff.mp htab
    have hu : u.1 ≤ 32 := hl u List.mem_cons_self
    have hrise : ∀ v ∈ used, u.1 ≤ v.1 ∧ v.1 ≤ 32 := fun v hv =>
      ⟨(hhead v hv).len_le, hl v (List.mem_cons_of_mem _ hv)⟩
    have hspace : 0 + 2 ^ (32 - u.1) + (Avail.first u.1).space = 2 ^ 32 := by
      have := Avail.space_first hu
      omega
    exact ⟨Nat.zero_mul _,
      firstFitAfter_tiles (Avail.packed_first hu) (Avail.first_length u.1) hrise htail hspace hrest⟩

/-- In the table's order both assignments give the same codes. -/
theorem firstFit_eq_assignCodes {used : List UsedSym} {tab : List CodeEntry} (hl : ∀ u ∈ used, u.1 ≤ 32)
    (hs : used.Pairwise UsedOrder) (htab : firstFit used = some tab) : tab = assignCodes used :=
  (firstFit_tiles hl hs htab).eq_of_usedSym (assignCodes_tiles hl hs)
    ((firstFit_usedSym htab).trans (assignCodes_usedSym used).symm)

/-! ## The obligation -/

/-- Over lengths that never decrease, the table of `FIRST_FIT` is the one of `assign_codes`. -/
theorem firstFitTable_eq_assignCodes {lens : List Nat} {tab : List CodeEntry} (hl : ∀ l ∈ lens, l ≤ 32)
    (hrise : (lens.filter fun l => l != 0).Pairwise (· ≤ ·)) (htab : firstFitTable lens = some tab) :
    tab = assignCodes (usedSorted lens) := by
  obtain ⟨codes, hcodes, rfl⟩ := Option.map_eq_some_iff.mp htab
  have hcodes := firstFit_eq_assignCodes (usedInOrder_len_le hl) (usedInOrder_pairwise hrise) hcodes
  rw [← usedSorted_eq_usedInOrder hl hrise] at hcodes
  have hsyms : codes.map CodeEntry.usedSym = usedSorted lens := hcodes ▸ assignCodes_usedSym _
  have horder : codes.Pairwise TableOrder := by
    have := usedSorted_pairwise lens
    rwa [← hsyms, List.pairwise_map] at this
  rw [← hcodes]
  refine sortByLength_eq_self horder fun e he => ?_
  obtain ⟨h1, h32, -⟩ := mem_usedSorted.mp (show e.usedSym ∈ usedSorted lens from hsyms ▸ List.mem_map_of_mem he)
  exact ⟨h1, h32⟩

/-- Settles O35: both fail on over-subscribed lengths, and otherwise both tables fill the code space from 0 on with the
same symbols in the same order. -/
theorem firstFitAgreesOnRisingLengths : Obligations.FirstFitAgreesOnRisingLengths := by
  intro lens hl hrise
  cases hff : firstFitTable lens with
  | none => exact ((sortedTable_eq_none_iff hl).mpr ((firstFitTable_eq_none_iff hl).mp hff)).symm
  | some tab =>
    obtain ⟨tab', htab'⟩ : ∃ tab', sortedTable lens = some tab' := Option.ne_none_iff_exists'.mp fun hnone => by
      rw [(firstFitTable_eq_none_iff hl).mpr ((sortedTable_eq_none_iff hl).mp hnone)] at hff
      cases hff
    rw [htab', firstFitTable_eq_assignCodes hl hrise hff, sortedTable_eq_some htab']

end Sys2Proof.Machine
end
